-- ==== Sys2Proof/Word.lean ====
section
/-! DEFINITION. The word types: every register and DMEM word is 64 bits (10_state.md R22, 20_memory.md R61); a byte is a lane
of a word (R65). -/

namespace Sys2Proof

/-- A register, a DMEM word, a command word or a binary64 pattern (R22, R61, R80, R100). -/
abbrev Word := BitVec 64

/-- One byte lane of a word (R65). -/
abbrev Byte := BitVec 8

/-- A host byte offset: the core decodes `HOST_AW` = 32 bits (R7, R60). -/
abbrev Offset := BitVec 32

end Sys2Proof
end

