-- ==== Sys2Proof/Syntax.lean ====
section
/-! DEFINITION. The instruction set: DSPCORE's "instructions" are the ten legal command words (00_scope.md R2, 30_encoding.md
R81, R82). No command carries an operand: every operand comes from a fixed register (R86), so no constructor has a field. -/

namespace Sys2Proof

/-- One constructor per row of the opcode table (R81, R82). -/
inductive Instr
  /-- FIR, word 0x001 (R182). -/
  | fir
  /-- DFT, word 0x002 (R144). -/
  | dft
  /-- FREQMAP, the unfolded axis, word 0x003 (R155). -/
  | freqmap
  /-- FREQMAP.FOLD, the folded axis, word 0x103 (R155). -/
  | freqmapFold
  /-- MAG, word 0x004 (R158). -/
  | mag
  /-- HALFSPEC, word 0x005 (R162). -/
  | halfspec
  /-- FADD, word 0x010 (R120). -/
  | fadd
  /-- FSUB, word 0x011 (R121). -/
  | fsub
  /-- FMUL, word 0x012 (R122). -/
  | fmul
  /-- FMA, word 0x013 (R123). -/
  | fma
deriving DecidableEq, Repr

end Sys2Proof
end

