-- ==== Sys2Proof/WellFormed.lean ====
section
/-! DEFINITION. Legality of a command's fields (30_encoding.md R80 to R82), as three checks, and the fields of each instruction.
An instruction has no operands, so what can be ill formed is a set of field values. -/

namespace Sys2Proof

/-- The fields of a command word (R80). -/
structure CmdFields where
  /-- OP, bits 7:0. -/
  op : BitVec 8
  /-- FOLD, bit 8. -/
  fold : Bool
  /-- RSV, bits 63:9. -/
  rsv : BitVec 55
deriving DecidableEq, Repr

/-- The OP values of R81. -/
def listedOps : List (BitVec 8) := [0x01, 0x02, 0x03, 0x04, 0x05, 0x10, 0x11, 0x12, 0x13]

/-- R82 (1): OP is one of the nine listed values. -/
abbrev CmdFields.opListed (f : CmdFields) : Prop := f.op ∈ listedOps

/-- R82 (2): the reserved bits are zero. -/
abbrev CmdFields.rsvZero (f : CmdFields) : Prop := f.rsv = 0#55

/-- R82 (3): FOLD is 0, or OP is FREQMAP's. -/
abbrev CmdFields.foldAllowed (f : CmdFields) : Prop := f.fold = false ∨ f.op = 0x03#8

/-- The fields of a legal command word (R82). -/
abbrev CmdFields.WellFormed (f : CmdFields) : Prop := f.opListed ∧ f.rsvZero ∧ f.foldAllowed

/-- The fields of each instruction (R81). -/
def Instr.fields : Instr → CmdFields
  | .fir => ⟨0x01, false, 0⟩
  | .dft => ⟨0x02, false, 0⟩
  | .freqmap => ⟨0x03, false, 0⟩
  | .freqmapFold => ⟨0x03, true, 0⟩
  | .mag => ⟨0x04, false, 0⟩
  | .halfspec => ⟨0x05, false, 0⟩
  | .fadd => ⟨0x10, false, 0⟩
  | .fsub => ⟨0x11, false, 0⟩
  | .fmul => ⟨0x12, false, 0⟩
  | .fma => ⟨0x13, false, 0⟩

/-- An instruction is well formed when its fields are legal; every one is (`Instr.wellFormed_all`). -/
abbrev Instr.WellFormed (i : Instr) : Prop := i.fields.WellFormed

end Sys2Proof
end

