-- ==== Sys2Proof/Decode.lean ====
section
/-! DEFINITION. The decoder of command words (30_encoding.md R80 to R83, R88), total on 64-bit words: `none` is the one
illegal-command outcome of R83. After it the encoder, written from the same table. -/

namespace Sys2Proof

/-- OP, bits 7:0 of a command word (R80). -/
def opField (w : Word) : BitVec 8 := w.extractLsb' 0 8

/-- FOLD, bit 8 of a command word (R80). -/
def foldField (w : Word) : Bool := w.getLsbD 8

/-- RSV, bits 63:9 of a command word (R80). -/
def rsvField (w : Word) : BitVec 55 := w.extractLsb' 9 55

/-- The instruction of an OP value with FOLD = 0 (R81). -/
def decodeOp (op : BitVec 8) : Option Instr :=
  match op.toNat with
  | 0x01 => some .fir
  | 0x02 => some .dft
  | 0x03 => some .freqmap
  | 0x04 => some .mag
  | 0x05 => some .halfspec
  | 0x10 => some .fadd
  | 0x11 => some .fsub
  | 0x12 => some .fmul
  | 0x13 => some .fma
  | _ => none

/-- The instruction of a command word, or `none` where the word is illegal (R82, R83, R85). -/
def decode (w : Word) : Option Instr :=
  if rsvField w ≠ 0#55 then none
  else if foldField w then
    if opField w = 0x03#8 then some .freqmapFold else none
  else decodeOp (opField w)

/-- A command word from its fields (R80). -/
def packFields (f : CmdFields) : Word := f.rsv ++ (BitVec.ofBool f.fold ++ f.op)

/-- The command word of an instruction (R81, R82). -/
def encode (i : Instr) : Word := packFields i.fields

/-- The instruction the decoder reads from an instruction whose bits are `w`, of which the opcode table gives `nbits`. A
command is one 64-bit word (R89), so a number of more than 64 bits is none. -/
def decodeTableWord (nbits w : Nat) : Option Instr :=
  if w % 2 ^ nbits < 2 ^ 64 then decode (BitVec.ofNat 64 (w % 2 ^ nbits)) else none

end Sys2Proof
end

