-- ==== Sys2Proof/Machine/Flags.lean ====
section
/-! DEFINITION. The floating-point exception flags (10_state.md R42) and every operation on them: union (sticky OR, R111),
their register image (R42) and a host write of them (R43). Bits 3 and 63:5 of FFLAGS read 0 and ignore writes, so the
register's state is its four flags. -/

namespace Sys2Proof

/-- The four flags of FFLAGS (R42). -/
structure Flags where
  /-- NX, bit 0: a rounded result differs from the exact result. -/
  nx : Bool := false
  /-- UF, bit 1: underflow (R108). -/
  uf : Bool := false
  /-- OF, bit 2: overflow (R107). -/
  of : Bool := false
  /-- NV, bit 4: invalid operation (R109). -/
  nv : Bool := false
deriving DecidableEq, Repr

namespace Machine

/-- No flag: the pseudocode's `{}`. -/
def noFlags : Flags := {}

/-- The pseudocode's `{NV}`. -/
def invalidFlag : Flags := { nv := true }

/-- The sticky OR of two flag sets (R42, R111). -/
def flagsUnion (a b : Flags) : Flags :=
  { nx := a.nx || b.nx, uf := a.uf || b.uf, of := a.of || b.of, nv := a.nv || b.nv }

/-- A one-bit field at bit `i` of a word. -/
def bitAt (b : Bool) (i : Nat) : Word := if b then 1#64 <<< i else 0#64

/-- `bits(fl)` of R120, which is also what FFLAGS reads (R42): NX = bit 0, UF = bit 1, OF = bit 2, NV = bit 4. -/
def flagsWord (f : Flags) : Word :=
  bitAt f.nx 0 ||| bitAt f.uf 1 ||| bitAt f.of 2 ||| bitAt f.nv 4

/-- The flags a host write of `w` to FFLAGS leaves, `w & 0x17` (R43). -/
def flagsOfWord (w : Word) : Flags :=
  { nx := w.getLsbD 0, uf := w.getLsbD 1, of := w.getLsbD 2, nv := w.getLsbD 4 }

end Machine

end Sys2Proof
end

