-- ==== Sys2Proof/Machine/Float.lean ====
section
/-! DEFINITION. Binary64 arithmetic (40_fp_arith.md R100 to R117): the classes and values of patterns, round to nearest
with ties to even, and the primitives fadd, fsub, fmul, ffma, fsqrt, fabs, fneg. Exact values are integers or quotients of
naturals in UNITS of 2^-1074 (the smallest subnormal), of which every finite binary64 value is a whole number. -/

namespace Sys2Proof.F64

open Sys2Proof.Machine

/-! ## Fields, classes and values (R100, R101) -/

/-- s = b[63] (R100). -/
def sign (b : Word) : Bool := b.getLsbD 63

/-- e = b[62:52] (R100). -/
def expField (b : Word) : Nat := (b.extractLsb' 52 11).toNat

/-- f = b[51:0] (R100). -/
def fracField (b : Word) : Nat := (b.extractLsb' 0 52).toNat

/-- e = 2047 and f ≠ 0 (R101). -/
def isNaN (b : Word) : Bool := expField b == 2047 && fracField b != 0

/-- A NaN with f[51] = 0 (R101). -/
def isSNaN (b : Word) : Bool := isNaN b && !b.getLsbD 51

/-- e = 2047 and f = 0 (R101). -/
def isInf (b : Word) : Bool := expField b == 2047 && fracField b == 0

/-- e = 0 and f = 0 (R101). -/
def isZero (b : Word) : Bool := expField b == 0 && fracField b == 0

/-- e ≠ 2047 (R101); its negation is the source's "non-finite" (R102). -/
def isFinite (b : Word) : Bool := expField b != 2047

/-- The magnitude of a sign-less pattern in units of 2^-1074, by the table of R100: f for a zero or subnormal, and
(2^52 + f) · 2^(e - 1) for a normal. At the pattern of infinity it gives R103's virtual value 2^1024. -/
def magUnits (m : Nat) : Nat :=
  if m < 2 ^ 52 then m else (2 ^ 52 + m % 2 ^ 52) * 2 ^ (m / 2 ^ 52 - 1)

/-- The magnitude of a finite pattern in units of 2^-1074. -/
def units (b : Word) : Nat := magUnits (b.toNat % 2 ^ 63)

/-- The value of a finite pattern in units of 2^-1074. -/
def signedUnits (b : Word) : Int := if sign b then -(units b : Int) else (units b : Int)

/-- `val(b)`, the exact value of a finite pattern (R101). -/
def val (b : Word) : ℚ := (signedUnits b : ℚ) / 2 ^ 1074

/-! ## Patterns -/

/-- The canonical NaN (R106). -/
def canonNaN : Word := 0x7FF8000000000000#64

/-- MAX, the largest finite magnitude (R101). -/
def maxFinite : Word := 0x7FEFFFFFFFFFFFFF#64

/-- The sign-less pattern of infinity, which stands for 2^1024 while rounding (R103). -/
def infMag : Nat := 0x7FF0000000000000

/-- A sign-less pattern with a sign. -/
def withSign (s : Bool) (m : Nat) : Word := BitVec.ofNat 64 ((if s then 2 ^ 63 else 0) + m)

/-- Infinity with sign `s`. -/
def infinity (s : Bool) : Word := withSign s infMag

/-- Zero with sign `s`. -/
def zero (s : Bool) : Word := withSign s 0

/-! ## Rounding (R103, R107, R108) -/

/-- The integer nearest to p/d, ties to even. -/
def nearestEven (p d : Nat) : Nat :=
  if d < 2 * (p % d) || (2 * (p % d) == d && (p / d) % 2 == 1) then p / d + 1 else p / d

/-- The exponent, over 2^-1074, of the spacing of binary64 numbers around p/q units: 53 significant bits, and never a
spacing finer than one unit. -/
def ulpExp (p q : Nat) : Nat := Nat.log2 (p / q) - 52

/-- RN of the magnitude p/q units (R103), as a sign-less pattern: the nearest multiple of the spacing, ties to even, and
`infMag` where that is 2^1024 or more. The pattern of m · 2^E units is E · 2^52 + m. -/
def roundMag (p q : Nat) : Nat :=
  min (ulpExp p q * 2 ^ 52 + nearestEven p (q * 2 ^ ulpExp p q)) infMag

/-- Tiny (R108): rounding p/q units to 53 bits with an unbounded exponent range gives less than 2^52 units (2^-1022).
The 53-bit numbers just below 2^52 units are spaced 1/2 unit, and a tie at 2^52 - 1/4 goes to 2^52, whose significand is
even; so this is p/q < 2^52 - 1/4. -/
def tiny (p q : Nat) : Bool := decide (4 * p < (2 ^ 54 - 1) * q)

/-- `RN` of the exact non-zero value with sign `s` and magnitude p/q units, with the flags NX, OF and UF of R107, R108 and
R112: NX when the value changed or became infinite, OF when it became infinite, UF when tiny and inexact. -/
def round (s : Bool) (p q : Nat) : Word × Flags :=
  let m := roundMag p q
  let inexact := m == infMag || magUnits m * q != p
  (withSign s m, { nx := inexact, of := m == infMag, uf := tiny p q && inexact })

/-! ## Primitives (R112 to R117) -/

/-- `fabs(a)`: bit 63 cleared, on every pattern (R117). -/
def fabs (a : Word) : Word := a &&& 0x7FFFFFFFFFFFFFFF#64

/-- `fneg(a)`: bit 63 inverted, on every pattern (R117). -/
def fneg (a : Word) : Word := a ^^^ 0x8000000000000000#64

/-- `{NV} if c else {}`. -/
def nvIf (c : Bool) : Flags := if c then invalidFlag else noFlags

/-- `fadd(a, b)` (R112); an exact zero sum is -0 only where both addends are -0 (R110). -/
def fadd (a b : Word) : Word × Flags :=
  if isNaN a || isNaN b then (canonNaN, nvIf (isSNaN a || isSNaN b))
  else if isInf a && isInf b then
    if sign a == sign b then (a, noFlags) else (canonNaN, invalidFlag)
  else if isInf a then (a, noFlags)
  else if isInf b then (b, noFlags)
  else
    let v := signedUnits a + signedUnits b
    if v = 0 then (zero (isZero a && isZero b && sign a && sign b), noFlags)
    else round (decide (v < 0)) v.natAbs 1

/-- `fsub(a, b) = fadd(a, fneg(b))` (R113). -/
def fsub (a b : Word) : Word × Flags := fadd a (fneg b)

/-- `fmul(a, b)` (R114). A product of two whole numbers of units is in units of 2^-2148. -/
def fmul (a b : Word) : Word × Flags :=
  let s := sign a ^^ sign b
  if isNaN a || isNaN b then (canonNaN, nvIf (isSNaN a || isSNaN b))
  else if (isInf a && isZero b) || (isZero a && isInf b) then (canonNaN, invalidFlag)
  else if isInf a || isInf b then (infinity s, noFlags)
  else if isZero a || isZero b then (zero s, noFlags)
  else round s (units a * units b) (2 ^ 1074)

/-- `ffma(a, b, c)` (R115): one rounding of the exact a·b + c; the NaN branch raises NV also for 0·∞ + qNaN. -/
def ffma (a b c : Word) : Word × Flags :=
  let s := sign a ^^ sign b
  let zi := (isZero a && isInf b) || (isInf a && isZero b)
  if isNaN a || isNaN b || isNaN c then (canonNaN, nvIf (isSNaN a || isSNaN b || isSNaN c || zi))
  else if zi then (canonNaN, invalidFlag)
  else if isInf a || isInf b then
    if isInf c && sign c != s then (canonNaN, invalidFlag) else (infinity s, noFlags)
  else if isInf c then (c, noFlags)
  else
    let v := signedUnits a * signedUnits b + signedUnits c * 2 ^ 1074
    if v = 0 then (zero ((isZero a || isZero b) && isZero c && s && sign c), noFlags)
    else round (decide (v < 0)) v.natAbs (2 ^ 1074)

/-- The integer square root of `n` below 2^`bits`, one bit at a time from the top. -/
def isqrtFrom (n : Nat) : (bits : Nat) → (acc : Nat) → Nat
  | 0, acc => acc
  | b + 1, acc => if (acc + 2 ^ b) * (acc + 2 ^ b) ≤ n then isqrtFrom n b (acc + 2 ^ b) else isqrtFrom n b acc

/-- The exponent of the spacing around the square root of `P`. -/
def sqrtExp (P : Nat) : Nat := Nat.log2 P / 2 - 52

/-- The integer nearest to √P / 2^E, ties to even, where √P / 2^E is below 2^53. -/
def nearestSqrt (P E : Nat) : Nat :=
  let m := isqrtFrom (P / 4 ^ E) 53 0
  if (2 * m + 1) ^ 2 * 4 ^ E < 4 * P || ((2 * m + 1) ^ 2 * 4 ^ E == 4 * P && m % 2 == 1) then m + 1 else m

/-- RN of √(n units), for n > 0. The root of n · 2^-1074 is √(n · 2^1074) units. -/
def sqrtMag (n : Nat) : Nat :=
  let P := n * 2 ^ 1074
  sqrtExp P * 2 ^ 52 + nearestSqrt P (sqrtExp P)

/-- `fsqrt(a)` (R116). -/
def fsqrt (a : Word) : Word × Flags :=
  if isNaN a then (canonNaN, nvIf (isSNaN a))
  else if isZero a then (a, noFlags)
  else if sign a then (canonNaN, invalidFlag)
  else if isInf a then (a, noFlags)
  else
    let m := sqrtMag (units a)
    (withSign false m, { nx := magUnits m ^ 2 != units a * 2 ^ 1074 })

/-- RN of the quotient num/den with sign `s`, +0.0 for zero: what the literal `f64(<decimal>)` of R90 stands for. -/
def ofQuotient (s : Bool) (num den : Nat) : Word :=
  if num = 0 then zero false else withSign s (roundMag (num * 2 ^ 1074) den)

end Sys2Proof.F64
end

