-- ==== Sys2Proof/Config.lean ====
section
/-! DEFINITION. What an instance of the hardware fixes (00_scope.md R7) and the values the spec leaves open. The parameters with
a default are a record that State carries, so that a statement about every state holds for every instance. The open values
are opaque constants: no proof can see what they are. -/

namespace Sys2Proof

/-- The parameters of R7 that have a default. -/
structure Params where
  /-- P_DMEM_WORDS, the number of 64-bit words of DMEM. -/
  dmemWords : Nat := 8192
  /-- P_MAC_FUSED, FIR's multiply-accumulate mode (R185). -/
  macFused : Bool := false
  /-- P_ID, the value ID reads (R8, R24). -/
  id : Word := 0x0000000144535043#64
deriving DecidableEq, Repr

/-- 16 ≤ P_DMEM_WORDS ≤ 2^24 (R7). -/
abbrev Params.wf (p : Params) : Prop := 16 ≤ p.dmemWords ∧ p.dmemWords ≤ 2 ^ 24

/-- Which DMEM read, of the reads one turn makes, a free draw answers. Every `MemRead` of the pseudocode is a read of its
own (R64, log entry 4), so two reads of one turn never share a draw. -/
inductive ReadTag
  /-- The one read of a host access (R64, R71). -/
  | bus
  /-- The finiteness scan's read of x[n] (R145). -/
  | scan (n : Nat)
  /-- DFT's read of x[n] after the scan (R144). -/
  | dftSample (n : Nat)
  /-- FIR's read of tap k for output n (R182). -/
  | firTap (n k : Nat)
  /-- FIR's read of x[n-k] for output n (R182). -/
  | firSample (n k : Nat)
  /-- The read of RE[k] by MAG or HALFSPEC (R158, R162). -/
  | re (k : Nat)
  /-- The read of IM[k] by MAG or HALFSPEC (R158, R162). -/
  | im (k : Nat)
deriving DecidableEq, Repr

/-- The arbitrary word that a read of an unwritten DMEM word returns (R64), and a read of DMEM, RESULT or FFLAGS while
BUSY = 1 (R71): a fresh one for each value of State's draw counter and each read of the turn. -/
opaque Config.freeWord : Nat → ReadTag → Word

/-- What an abort leaves in word `i` of the command's output regions (R233): `none` keeps the old value, `some v` is an
arbitrary word that persists. -/
opaque Config.abortWord : (draw : Nat) → (i : Nat) → Option Word

/-- Bin k of the N-point transform of `xs` is within `tol` · Σ|x[n]| of the exact X_k in both parts, and finite (R142, R148). -/
def BinWithin (tol : ℝ) (N : Nat) (xs : List Word) (k : Nat) (bin : Word × Word) : Prop :=
  let S : ℝ := ∑ n ∈ Finset.range N, |(F64.val (xs.getD n 0) : ℝ)|
  F64.isFinite bin.1 = true ∧ F64.isFinite bin.2 = true ∧
  |(F64.val bin.1 : ℝ) -
      ∑ n ∈ Finset.range N, (F64.val (xs.getD n 0) : ℝ) * Real.cos (2 * Real.pi * k * n / N)| ≤ tol * S ∧
  |(F64.val bin.2 : ℝ) -
      -∑ n ∈ Finset.range N, (F64.val (xs.getD n 0) : ℝ) * Real.sin (2 * Real.pi * k * n / N)| ≤ tol * S

/-- No bin is in reach of overflow: S · (1 + P_FFT_TOL) < MAX (R148). -/
def BinBounded (tol : ℝ) (N : Nat) (xs : List Word) : Prop :=
  (∑ n ∈ Finset.range N, |(F64.val (xs.getD n 0) : ℝ)|) * (1 + tol) < (F64.val F64.maxFinite : ℝ)

/-- R148: what holds of P_DFT_BIN for the tolerance P_FFT_TOL, on P_DFT_BIN's domain (R147). -/
def BinsAccurate (tol : ℝ) (bin : Nat → List Word → Nat → Word × Word) : Prop :=
  0 ≤ tol ∧
  ∀ N xs k, 2 ≤ N → xs.length = N → (∀ x ∈ xs, F64.isFinite x = true) → k ≤ N / 2 →
    BinBounded tol N xs → BinWithin tol N xs k (bin N xs k)

/-- Some bin function is accurate for some tolerance: the zero one, within Σ|x[n]| of every bin. -/
theorem zeroBins_accurate : BinsAccurate 1 (fun _ _ _ => (0#64, 0#64)) := by
  have h0 : F64.val 0#64 = 0 := by simp [F64.val, F64.signedUnits, F64.units, F64.magUnits, F64.sign]
  have hf : F64.isFinite 0#64 = true := by decide
  have key : ∀ (N : Nat) (xs : List Word) (c : Nat → ℝ), (∀ n, |c n| ≤ 1) →
      |∑ n ∈ Finset.range N, (F64.val (xs.getD n 0) : ℝ) * c n| ≤
        ∑ n ∈ Finset.range N, |(F64.val (xs.getD n 0) : ℝ)| := by
    intro N xs c hc
    refine (Finset.abs_sum_le_sum_abs _ _).trans (Finset.sum_le_sum fun n _ => ?_)
    rw [abs_mul]
    exact mul_le_of_le_one_right (abs_nonneg _) (hc n)
  refine ⟨zero_le_one, fun N xs k _ _ _ _ _ => ⟨hf, hf, ?_, ?_⟩⟩
  · simpa [h0] using key N xs _ fun n => Real.abs_cos_le_one _
  · simpa [h0] using key N xs _ fun n => Real.abs_sin_le_one _

/-- The open pair of R7: the tolerance P_FFT_TOL, the function P_DFT_BIN (R147) and R148's relation between them. The
defaults only show that the type has a member; the constant below is some member, and nothing tells which. -/
structure DftUnit where
  /-- P_FFT_TOL. -/
  tol : ℝ := 1
  /-- P_DFT_BIN: (N, x, k) to (re, im). -/
  bin : Nat → List Word → Nat → Word × Word := fun _ _ _ => (0#64, 0#64)
  /-- R148. -/
  accurate : BinsAccurate tol bin := by exact zeroBins_accurate
deriving Inhabited

/-- The instance's transform unit: P_FFT_TOL and P_DFT_BIN, OPEN (R7, R147, R148). -/
opaque Config.dft : DftUnit

end Sys2Proof
end

