-- ==== Sys2Proof/Machine/HostSyntax.lean ====
section
/-! DEFINITION. What the outside world can do to the core, as data: bus accesses (20_memory.md R60, R63), host-script statements
(30_encoding.md R90) and the turns that interleave the host, the engine and the reset input (R69, 60_exceptions.md R217). -/

namespace Sys2Proof

/-- The registers of the register block (10_state.md R23), by name. -/
inductive RegName
  | id | ctrl | status | cmd
  | xBase | nlen | tBase | tlen | yBase | reBase | imBase | fBase | mBase
  | fs | opa | opb | opc
  | result | fflags | errInfo
deriving DecidableEq, Repr

/-- A read, or a write of the 64 bits on the bus. -/
inductive BusOp
  | read
  | write (v : Word)
deriving DecidableEq, Repr

/-- One bus access as the host issues it: its width in bits, its byte offset, and what it does. Only 64-bit accesses at
multiples of 8 are accepted; the others are here because R63 says what they get. -/
structure BusAccess where
  width : Nat := 64
  offset : Offset
  op : BusOp
deriving DecidableEq, Repr

/-- The bus's response to an access (R63, R46, R51). -/
inductive BusResponse
  /-- No access has been made yet (the model's own value, log entry 11). -/
  | idle
  /-- A write whose bus access succeeded, whether or not it changed anything. -/
  | accepted
  /-- A read that succeeded, and its data. -/
  | data (v : Word)
  /-- A bus error: no effect, read data 0 (R63). -/
  | busError
deriving DecidableEq, Repr

/-- The statements of the host script (R90), labels resolved to statement numbers. -/
inductive HostStmt
  /-- Any bus access, the faulty ones of R63 included. -/
  | access (a : BusAccess)
  /-- `wr REG, v`. -/
  | wr (r : RegName) (v : Word)
  /-- `rd REG`. -/
  | rd (r : RegName)
  /-- `wrm i, v`. -/
  | wrm (i : Nat) (v : Word)
  /-- `rdm i`. -/
  | rdm (i : Nat)
  /-- `bnz v, mask, label`, where v is the value of the last read. -/
  | bnz (mask : Word) (label : Nat)
  /-- `bz v, mask, label`. -/
  | bz (mask : Word) (label : Nat)
deriving DecidableEq, Repr

/-- The host as an agent: its script, the statement it is at, and the value of its last read (R90). -/
structure HostAgent where
  script : List HostStmt := []
  pos : Nat := 0
  lastRead : Word := 0
deriving DecidableEq, Repr

/-- Who moves next (R69, R217): the engine, the host, or the reset input RST. -/
inductive Turn
  | engine
  | host
  | rst
deriving DecidableEq, Repr

end Sys2Proof
end

