-- ==== Sys2Proof/Machine/State.lean ====
section
/-! DEFINITION. The machine's state as plain data (10_state.md R20 to R50), its reset value, and the reasons a step can stop. -/

namespace Sys2Proof.Machine

/-- STATUS.ERR_KIND (R32). Codes 5 to 15 are never written, so they have no constructor. -/
inductive ErrKind
  /-- 0: no error since the last acceptance. -/
  | none
  /-- 1. -/
  | invalidParameter
  /-- 2. -/
  | invalidInput
  /-- 3. -/
  | numericalInstability
  /-- 4. -/
  | illegalCommand
deriving DecidableEq, Repr

/-- STATUS.ERR_STAGE (R33). Codes 4 to 15 are never written. -/
inductive ErrStage
  /-- 0. -/
  | none
  /-- 1. -/
  | decode
  /-- 2. -/
  | spectrumAnalyzer
  /-- 3. -/
  | firFilter
deriving DecidableEq, Repr

/-- The fields of STATUS (R27). Its reserved bits always read 0, so its fields are all it holds. -/
structure Status where
  /-- BUSY (R28). -/
  busy : Bool := false
  /-- DONE (R29). -/
  done : Bool := false
  /-- ERR (R30). -/
  err : Bool := false
  /-- OVR (R31). -/
  ovr : Bool := false
  /-- ERR_KIND (R32). -/
  errKind : ErrKind := .none
  /-- ERR_STAGE (R33). -/
  errStage : ErrStage := .none
  /-- ERR_PARAM (R34): a register number. -/
  errParam : BitVec 8 := 0
  /-- LAST_OP (R35). -/
  lastOp : BitVec 8 := 0
deriving DecidableEq, Repr

/-- Registers 4 to 16: the base and length registers (R38), FS (R39) and the scalar operands (R40). No command writes any
of them (R51), and a host write of any of them is dropped while BUSY = 1 (20_memory.md R70). -/
structure OperandRegs where
  xBase : Word := 0
  nlen : Word := 0
  tBase : Word := 0
  tlen : Word := 0
  yBase : Word := 0
  reBase : Word := 0
  imBase : Word := 0
  fBase : Word := 0
  mBase : Word := 0
  fs : Word := 0
  opa : Word := 0
  opb : Word := 0
  opc : Word := 0
deriving DecidableEq, Repr

/-- DMEM (R49, 20_memory.md R61) as the bytes of the words written since the last hardware reset, by byte offset in the
host's address space, offsets strictly rising. An unlisted byte holds no value: a word with one is unwritten (R64). -/
abbrev Memory := List Host.Cell

/-- The state of DSPCORE (R20), the instance's parameters (R7), the outside agents, and the draw counter. -/
structure State where
  /-- The instance's parameters (R7), which nothing changes. ID reads `params.id` (R24). -/
  params : Params := {}
  /-- CTRL.IRQ_EN (R25). -/
  irqEn : Bool := false
  /-- STATUS (R27). -/
  status : Status := {}
  /-- Registers 4 to 16 (R38 to R40). -/
  regs : OperandRegs := {}
  /-- RESULT (R41). -/
  result : Word := 0
  /-- FFLAGS (R42). -/
  fflags : Flags := {}
  /-- ERR_INFO (R44). -/
  errInfo : Word := 0
  /-- PENDING, the accepted command word (R47). -/
  pending : Word := 0
  /-- DMEM (R49). -/
  dmem : Memory := []
  /-- The model's own: numbers the turns that may draw free values (log entry 3). -/
  draws : Nat := 0
  /-- The model's own: the bus's response to the last host access (R63; log entry 11). -/
  resp : BusResponse := .idle
  /-- The model's own: the host agent (R90; log entry 7). -/
  host : HostAgent := {}
  /-- The model's own: the turns still to be taken (R69; log entry 8). -/
  sched : List Turn := []
deriving DecidableEq, Repr

/-- Why a step would stop with a fault: never. DSPCORE has no traps (60_exceptions.md R200), a command error is a way to
complete (R204), and a bus error is a response (R209). So the type has no member, and no meaning can end in a fault. -/
inductive Fault
deriving DecidableEq, Repr

/-- Why a step would be refused. -/
inductive Refusal
  /-- An instruction without a meaning, by its mnemonic. Raised by no arm: every instruction has its meaning. Safe: the
  machine would stop where the hardware goes on. -/
  | notModelled (mnemonic : String)
deriving DecidableEq, Repr

/-- What a meaning answers. -/
abbrev Result := Host.Outcome State Fault Refusal

/-- The machine right after a hardware reset (R50, 70_reset_and_hazards.md R231), with the default parameters (R7): every
register 0 except ID, PENDING 0, DMEM unwritten, no script and no turn waiting. -/
def State.reset : State := {}

end Sys2Proof.Machine
end

