-- ==== Sys2Proof/Machine/Operands.lean ====
section
/-! DEFINITION. Operand decoding (30_encoding.md R86, R87), regions (00_scope.md R10), the validity of a sample rate
(41_spectrum.md R141), and the checks of each command in row order (60_exceptions.md R206). -/

namespace Sys2Proof.Machine

/-! ## DMEM bytes and words (R61, R65) -/

/-- The byte offset of DMEM word `i` in the host's address space (R60, R61). -/
def wordOffset (i : Nat) : Nat := 0x10000 + 8 * i

/-- The byte at a byte offset, if its word has been written. -/
def byteAt : Memory → Nat → Option Byte
  | [], _ => none
  | (a, v) :: m, k => if a = k then some v else byteAt m k

/-- DMEM word `i`, if it has been written: the byte at offset +j is bits 8j+7 to 8j (R65). -/
def wordAt (m : Memory) (i : Nat) : Option Word :=
  match byteAt m (wordOffset i), byteAt m (wordOffset i + 1), byteAt m (wordOffset i + 2), byteAt m (wordOffset i + 3),
    byteAt m (wordOffset i + 4), byteAt m (wordOffset i + 5), byteAt m (wordOffset i + 6), byteAt m (wordOffset i + 7) with
  | some b0, some b1, some b2, some b3, some b4, some b5, some b6, some b7 =>
    some (b7 ++ (b6 ++ (b5 ++ (b4 ++ (b3 ++ (b2 ++ (b1 ++ b0)))))))
  | _, _, _, _, _, _, _, _ => none

/-- `MemRead(i, 8)` (R10): the word, or a free draw where it is unwritten (R64). -/
def readWord (s : State) (tag : ReadTag) (i : Nat) : Word :=
  (wordAt s.dmem i).getD (Config.freeWord s.draws tag)

/-! ## Lengths, regions and FS (R10, R87, R141, R160) -/

/-- N = u64(x[NLEN]) (R140, R180). -/
def len (s : State) : Nat := s.regs.nlen.toNat

/-- T = u64(x[TLEN]) (R180). -/
def taps (s : State) : Nat := s.regs.tlen.toNat

/-- H = ⌈N/2⌉ (R160). -/
def halfLen (s : State) : Nat := (len s + 1) / 2

/-- `inrange(b, n)` (R10). -/
def inRange (s : State) (b : Word) (n : Nat) : Bool := decide (b.toNat + n ≤ s.params.dmemWords)

/-- `overlap(region(b, n), region(c, k))`: the two regions share an index (R10). -/
def overlap (b : Word) (n : Nat) (c : Word) (k : Nat) : Bool :=
  decide (max b.toNat c.toNat < min (b.toNat + n) (c.toNat + k))

/-- `fs_ok(b)` (R141). -/
def fsOk (b : Word) : Bool := F64.isFinite b && !F64.isZero b && !F64.sign b

/-! ## Command errors (R201, R204, R206) -/

/-- The register number of a register (R23). -/
def regNum : RegName → Nat
  | .id => 0 | .ctrl => 1 | .status => 2 | .cmd => 3
  | .xBase => 4 | .nlen => 5 | .tBase => 6 | .tlen => 7 | .yBase => 8
  | .reBase => 9 | .imBase => 10 | .fBase => 11 | .mBase => 12
  | .fs => 13 | .opa => 14 | .opb => 15 | .opc => 16
  | .result => 17 | .fflags => 18 | .errInfo => 19

/-- The four values of `raise Error(kind, stage, param, info)` (R204). -/
structure CmdError where
  kind : ErrKind
  stage : ErrStage
  param : RegName
  info : Word := 0
deriving DecidableEq, Repr

/-- A row of R206: its condition, and the error it raises. -/
structure CheckRow where
  cond : Bool
  error : CmdError
deriving DecidableEq, Repr

/-- The first row, in row order, whose condition is true (R206, R207). -/
def firstError : List CheckRow → Option CmdError
  | [] => none
  | r :: rs => if r.cond then some r.error else firstError rs

/-- What an illegal command raises (R83). -/
def illegalCommand : CmdError := ⟨.illegalCommand, .decode, .cmd, 0⟩

/-- Rows FIR-1 to FIR-7 (R206). -/
def firChecks (s : State) : List CheckRow :=
  let r := s.regs
  [ ⟨len s == 0, .invalidInput, .firFilter, .nlen, 0⟩,
    ⟨taps s == 0, .invalidParameter, .firFilter, .tlen, 0⟩,
    ⟨taps s % 2 == 0, .invalidParameter, .firFilter, .tlen, 0⟩,
    ⟨!inRange s r.xBase (len s), .invalidParameter, .firFilter, .xBase, 0⟩,
    ⟨!inRange s r.tBase (taps s), .invalidParameter, .firFilter, .tBase, 0⟩,
    ⟨!inRange s r.yBase (len s), .invalidParameter, .firFilter, .yBase, 0⟩,
    ⟨overlap r.yBase (len s) r.xBase (len s) || overlap r.yBase (len s) r.tBase (taps s),
      .invalidParameter, .firFilter, .yBase, 0⟩ ]

/-- Rows DFT-1 to DFT-6 (R206). -/
def dftChecks (s : State) : List CheckRow :=
  let r := s.regs
  [ ⟨len s == 0, .invalidInput, .spectrumAnalyzer, .nlen, 0⟩,
    ⟨!inRange s r.xBase (len s), .invalidParameter, .spectrumAnalyzer, .xBase, 0⟩,
    ⟨!inRange s r.reBase (len s), .invalidParameter, .spectrumAnalyzer, .reBase, 0⟩,
    ⟨!inRange s r.imBase (len s), .invalidParameter, .spectrumAnalyzer, .imBase, 0⟩,
    ⟨overlap r.reBase (len s) r.xBase (len s), .invalidParameter, .spectrumAnalyzer, .reBase, 0⟩,
    ⟨overlap r.imBase (len s) r.xBase (len s) || overlap r.imBase (len s) r.reBase (len s),
      .invalidParameter, .spectrumAnalyzer, .imBase, 0⟩ ]

/-- The smallest n with `not isFinite(x[n])`, in increasing order (R145). -/
def firstNonFinite (s : State) : Option Nat :=
  (List.range (len s)).find? fun n => !F64.isFinite (readWord s (.scan n) (s.regs.xBase.toNat + n))

/-- Row DFT-7, reached when DFT-1 to DFT-6 pass (R145, R206). -/
def finitenessError (s : State) : Option CmdError :=
  (firstNonFinite s).map fun n => ⟨.numericalInstability, .spectrumAnalyzer, .xBase, BitVec.ofNat 64 n⟩

/-- Rows FRQ-1 to FRQ-3 (R206). -/
def freqmapChecks (s : State) : List CheckRow :=
  [ ⟨len s == 0, .invalidInput, .spectrumAnalyzer, .nlen, 0⟩,
    ⟨!fsOk s.regs.fs, .invalidParameter, .spectrumAnalyzer, .fs, 0⟩,
    ⟨!inRange s s.regs.fBase (len s), .invalidParameter, .spectrumAnalyzer, .fBase, 0⟩ ]

/-- Rows MAG-1 to MAG-5 (R206). -/
def magChecks (s : State) : List CheckRow :=
  let r := s.regs
  [ ⟨len s == 0, .invalidInput, .spectrumAnalyzer, .nlen, 0⟩,
    ⟨!inRange s r.reBase (len s), .invalidParameter, .spectrumAnalyzer, .reBase, 0⟩,
    ⟨!inRange s r.imBase (len s), .invalidParameter, .spectrumAnalyzer, .imBase, 0⟩,
    ⟨!inRange s r.mBase (len s), .invalidParameter, .spectrumAnalyzer, .mBase, 0⟩,
    ⟨overlap r.mBase (len s) r.reBase (len s) || overlap r.mBase (len s) r.imBase (len s),
      .invalidParameter, .spectrumAnalyzer, .mBase, 0⟩ ]

/-- Rows HLF-1 to HLF-8 (R206). -/
def halfspecChecks (s : State) : List CheckRow :=
  let r := s.regs
  let h := halfLen s
  [ ⟨len s == 0, .invalidInput, .spectrumAnalyzer, .nlen, 0⟩,
    ⟨!fsOk r.fs, .invalidParameter, .spectrumAnalyzer, .fs, 0⟩,
    ⟨!inRange s r.reBase h, .invalidParameter, .spectrumAnalyzer, .reBase, 0⟩,
    ⟨!inRange s r.imBase h, .invalidParameter, .spectrumAnalyzer, .imBase, 0⟩,
    ⟨!inRange s r.fBase h, .invalidParameter, .spectrumAnalyzer, .fBase, 0⟩,
    ⟨!inRange s r.mBase h, .invalidParameter, .spectrumAnalyzer, .mBase, 0⟩,
    ⟨overlap r.fBase h r.reBase h || overlap r.fBase h r.imBase h,
      .invalidParameter, .spectrumAnalyzer, .fBase, 0⟩,
    ⟨overlap r.mBase h r.reBase h || overlap r.mBase h r.imBase h || overlap r.mBase h r.fBase h,
      .invalidParameter, .spectrumAnalyzer, .mBase, 0⟩ ]

/-- The error a command completes with at this state, if any: the first failing row of its group (R206, R207). The scalar
commands raise none (R205). -/
def commandError (i : Instr) (s : State) : Option CmdError :=
  match i with
  | .fir => firstError (firChecks s)
  | .dft => (firstError (dftChecks s)).or (finitenessError s)
  | .freqmap => firstError (freqmapChecks s)
  | .freqmapFold => firstError (freqmapChecks s)
  | .mag => firstError (magChecks s)
  | .halfspec => firstError (halfspecChecks s)
  | .fadd => none
  | .fsub => none
  | .fmul => none
  | .fma => none

/-- The regions of DMEM, as base and length, that a command writes (R51). -/
def outputRegions (i : Instr) (s : State) : List (Nat × Nat) :=
  let r := s.regs
  match i with
  | .fir => [(r.yBase.toNat, len s)]
  | .dft => [(r.reBase.toNat, len s), (r.imBase.toNat, len s)]
  | .freqmap => [(r.fBase.toNat, len s)]
  | .freqmapFold => [(r.fBase.toNat, len s)]
  | .mag => [(r.mBase.toNat, len s)]
  | .halfspec => [(r.fBase.toNat, halfLen s), (r.mBase.toNat, halfLen s)]
  | .fadd => []
  | .fsub => []
  | .fmul => []
  | .fma => []

end Sys2Proof.Machine
end

