-- ==== Sys2Proof/Machine/Ops.lean ====
section
/-! DEFINITION. The shared operations: writing DMEM, register images, command acceptance (30_encoding.md R84), the two
completions (60_exceptions.md R204, R210), reading and writing registers as the host does (10_state.md R23 to R46), the two
resets and the abort (70_reset_and_hazards.md R231 to R233), and the IRQ output (R214). -/

namespace Sys2Proof.Machine

/-! ## Writing DMEM -/

/-- Memory with the byte at one offset set, offsets kept strictly rising. -/
def setByte : Memory → Nat → Byte → Memory
  | [], k, v => [(k, v)]
  | (a, x) :: m, k, v =>
    if k < a then (k, v) :: (a, x) :: m else if k = a then (k, v) :: m else (a, x) :: setByte m k v

/-- `MemWrite(i, 8, v)` (R10): byte +j of the word gets bits 8j+7 to 8j (R65). -/
def writeWord (m : Memory) (i : Nat) (v : Word) : Memory :=
  let lane (j : Nat) : Byte := v.extractLsb' (8 * j) 8
  let o := wordOffset i
  setByte (setByte (setByte (setByte (setByte (setByte (setByte (setByte m
    o (lane 0)) (o + 1) (lane 1)) (o + 2) (lane 2)) (o + 3) (lane 3))
    (o + 4) (lane 4)) (o + 5) (lane 5)) (o + 6) (lane 6)) (o + 7) (lane 7)

/-- `for j in [0, n): MemWrite(b + j, 8, f j)`. -/
def writeBuffer (m : Memory) (b : Nat) (f : Nat → Word) : Nat → Memory
  | 0 => m
  | n + 1 => writeWord (writeBuffer m b f n) (b + n) (f n)

/-- DMEM whose listing is in the canonical form: offsets strictly rising. -/
abbrev Memory.sorted (m : Memory) : Prop := List.Pairwise (fun x y => x.1 < y.1) m

/-- Memory in canonical form for a DMEM of `words` words: offsets strictly rising and inside the window (R60), each word
listed whole or not at all. -/
abbrev Memory.wf (words : Nat) (m : Memory) : Prop :=
  Memory.sorted m ∧
  (∀ c ∈ m, 0x10000 ≤ c.1 ∧ c.1 < 0x10000 + 8 * words) ∧
  (∀ c ∈ m, (wordAt m ((c.1 - 0x10000) / 8)).isSome = true)

/-! ## Completion (R204, R210) -/

/-- Success: BUSY <- 0, DONE <- 1 (R210). -/
def complete (s : State) : State := { s with status := { s.status with busy := false, done := true } }

/-- `raise Error(kind, stage, param, info)` (R204): the error fields, then BUSY <- 0, ERR <- 1 (R210). This is the one way
DSPCORE takes an exception: nothing is saved and control goes nowhere (R200), and there is nothing to return to (R213). -/
def raiseError (e : CmdError) (s : State) : State :=
  { s with
    status := { s.status with
      busy := false, err := true, errKind := e.kind, errStage := e.stage,
      errParam := BitVec.ofNat 8 (regNum e.param) }
    errInfo := e.info }

/-- A command's last act: raise its error, or take its effect and complete (R85, R202). -/
def finish (err : Option CmdError) (effect : State) (s : State) : State :=
  match err with
  | some e => raiseError e s
  | none => complete effect

/-! ## Command acceptance (R84) -/

/-- A CMD write of `w` while idle (R84). -/
def acceptCommand (w : Word) (s : State) : State :=
  { s with
    pending := w
    status := { s.status with
      busy := true, done := false, err := false, errKind := .none, errStage := .none, errParam := 0,
      lastOp := opField w }
    errInfo := 0 }

/-! ## Register images (R25, R27) -/

/-- The code of an error kind (R32). -/
def errKindCode : ErrKind → BitVec 4
  | .none => 0 | .invalidParameter => 1 | .invalidInput => 2 | .numericalInstability => 3 | .illegalCommand => 4

/-- The code of a stage (R33). -/
def errStageCode : ErrStage → BitVec 4
  | .none => 0 | .decode => 1 | .spectrumAnalyzer => 2 | .firFilter => 3

/-- What STATUS reads (R27), its fields from the high end: 63:32 reserved, LAST_OP, ERR_PARAM, ERR_STAGE, ERR_KIND, 7:4
reserved, OVR, ERR, DONE, BUSY. -/
def statusWord (st : Status) : Word :=
  0#32 ++ (st.lastOp ++ (st.errParam ++ (errStageCode st.errStage ++ (errKindCode st.errKind ++
    (0#4 ++ (BitVec.ofBool st.ovr ++ (BitVec.ofBool st.err ++ (BitVec.ofBool st.done ++ BitVec.ofBool st.busy))))))))

/-- What CTRL reads: IRQ_EN in bit 0, SRST and the reserved bits 0 (R25). -/
def ctrlWord (irqEn : Bool) : Word := bitAt irqEn 0

/-- The register with a number below 20; the others are reserved (R23, R45). -/
def regOfNum : Nat → Option RegName
  | 0 => some .id | 1 => some .ctrl | 2 => some .status | 3 => some .cmd
  | 4 => some .xBase | 5 => some .nlen | 6 => some .tBase | 7 => some .tlen | 8 => some .yBase
  | 9 => some .reBase | 10 => some .imBase | 11 => some .fBase | 12 => some .mBase
  | 13 => some .fs | 14 => some .opa | 15 => some .opb | 16 => some .opc
  | 17 => some .result | 18 => some .fflags | 19 => some .errInfo
  | _ => none

/-! ## IRQ (R214) -/

/-- The level of the IRQ output: CTRL.IRQ_EN and (STATUS.DONE or STATUS.ERR) (R214). -/
def irq (s : State) : Bool := s.irqEn && (s.status.done || s.status.err)

/-! ## Resets (R231 to R233) -/

/-- Every register and PENDING at its reset value (R50), DMEM and the model's own fields as they are. -/
def resetRegisters (s : State) : State :=
  { s with irqEn := false, status := {}, regs := {}, result := 0, fflags := {}, errInfo := 0, pending := 0 }

/-- RST (R231): the registers at their reset values, and every DMEM word unwritten. -/
def hardReset (s : State) : State := { resetRegisters s with dmem := [] }

/-- The words of one output region after an abort: each its old value or a draw that persists (R233). -/
def scrambleRegion (draw : Nat) (m : Memory) (b : Nat) : Nat → Memory
  | 0 => m
  | n + 1 =>
    match Config.abortWord draw (b + n) with
    | none => scrambleRegion draw m b n
    | some v => writeWord (scrambleRegion draw m b n) (b + n) v

/-- The words of every output region after an abort (R233). -/
def scrambleRegions (draw : Nat) (m : Memory) (regions : List (Nat × Nat)) : Memory :=
  regions.foldl (fun m r => scrambleRegion draw m r.1 r.2) m

/-- DMEM after the pending command is abandoned (R233): unchanged when the command is illegal, is scalar or would have
failed its checks; otherwise its output regions are as R233 says. -/
def abortMemory (s : State) : Memory :=
  match decode s.pending with
  | none => s.dmem
  | some i =>
    match commandError i s with
    | some _ => s.dmem
    | none => scrambleRegions s.draws s.dmem (outputRegions i s)

/-- Soft reset (R232), which aborts a pending command (R233). -/
def softReset (s : State) : State :=
  { resetRegisters s with dmem := if s.status.busy then abortMemory s else s.dmem }

/-! ## The host's view of the registers (R23 to R46, R70, R71) -/

/-- A host read of a register. RESULT and FFLAGS read as a free draw while BUSY = 1 (R71); CMD reads 0 (R37). -/
def readReg (r : RegName) (s : State) : Word :=
  match r with
  | .id => s.params.id
  | .ctrl => ctrlWord s.irqEn
  | .status => statusWord s.status
  | .cmd => 0
  | .xBase => s.regs.xBase
  | .nlen => s.regs.nlen
  | .tBase => s.regs.tBase
  | .tlen => s.regs.tlen
  | .yBase => s.regs.yBase
  | .reBase => s.regs.reBase
  | .imBase => s.regs.imBase
  | .fBase => s.regs.fBase
  | .mBase => s.regs.mBase
  | .fs => s.regs.fs
  | .opa => s.regs.opa
  | .opb => s.regs.opb
  | .opc => s.regs.opc
  | .result => if s.status.busy then Config.freeWord s.draws .bus else s.result
  | .fflags => if s.status.busy then Config.freeWord s.draws .bus else flagsWord s.fflags
  | .errInfo => s.errInfo

/-- A host write dropped because BUSY = 1: STATUS.OVR <- 1 (R70). -/
def setOvr (s : State) : State := { s with status := { s.status with ovr := true } }

/-- A host write that BUSY = 1 drops, and that otherwise gives `t` (R70). -/
def unlessBusy (s t : State) : State := if s.status.busy then setOvr s else t

/-- A host write of `w` to CTRL (R26). -/
def writeCtrl (w : Word) (s : State) : State :=
  if w.getLsbD 1 then softReset s else { s with irqEn := w.getLsbD 0 }

/-- A host write of `w` to STATUS: write 1 to clear DONE, ERR and OVR (R36). -/
def writeStatus (w : Word) (s : State) : State :=
  { s with status := { s.status with
      done := s.status.done && !w.getLsbD 1
      err := s.status.err && !w.getLsbD 2
      ovr := s.status.ovr && !w.getLsbD 3 } }

/-- A host write of `w` to a register. -/
def writeReg (r : RegName) (w : Word) (s : State) : State :=
  match r with
  | .id => s
  | .ctrl => writeCtrl w s
  | .status => writeStatus w s
  | .cmd => unlessBusy s (acceptCommand w s)
  | .xBase => unlessBusy s { s with regs := { s.regs with xBase := w } }
  | .nlen => unlessBusy s { s with regs := { s.regs with nlen := w } }
  | .tBase => unlessBusy s { s with regs := { s.regs with tBase := w } }
  | .tlen => unlessBusy s { s with regs := { s.regs with tlen := w } }
  | .yBase => unlessBusy s { s with regs := { s.regs with yBase := w } }
  | .reBase => unlessBusy s { s with regs := { s.regs with reBase := w } }
  | .imBase => unlessBusy s { s with regs := { s.regs with imBase := w } }
  | .fBase => unlessBusy s { s with regs := { s.regs with fBase := w } }
  | .mBase => unlessBusy s { s with regs := { s.regs with mBase := w } }
  | .fs => unlessBusy s { s with regs := { s.regs with fs := w } }
  | .opa => unlessBusy s { s with regs := { s.regs with opa := w } }
  | .opb => unlessBusy s { s with regs := { s.regs with opb := w } }
  | .opc => unlessBusy s { s with regs := { s.regs with opc := w } }
  | .result => s
  | .fflags => unlessBusy s { s with fflags := flagsOfWord w }
  | .errInfo => s

end Sys2Proof.Machine
end

