-- ==== Sys2Proof/Machine/Bus.lean ====
section
/-! DEFINITION. Bus accesses (20_memory.md R60, R63, R67 to R71) and the host script (30_encoding.md R90, R91). -/

namespace Sys2Proof.Machine

/-! ## Bus accesses -/

/-- What an accepted 64-bit aligned access reaches (R60). -/
inductive BusTarget
  /-- Register number r, 0 to 511. -/
  | reg (r : Nat)
  /-- DMEM word i. -/
  | word (i : Nat)
deriving DecidableEq, Repr

/-- The target of an access, or `none` where it gets a bus error: its width is not 64 bits, its offset is no multiple of
8, or the offset is unmapped (R60, R63). -/
def busTarget (words : Nat) (a : BusAccess) : Option BusTarget :=
  let o := a.offset.toNat
  if a.width ≠ 64 then none
  else if o % 8 ≠ 0 then none
  else if o < 0x1000 then some (.reg (o / 8))
  else if 0x10000 ≤ o ∧ o < 0x10000 + 8 * words then some (.word ((o - 0x10000) / 8))
  else none

/-- The data of an accepted read. A reserved register reads 0 (R45); a DMEM word reads as a free draw while BUSY = 1 (R71). -/
def busRead (t : BusTarget) (s : State) : Word :=
  match t with
  | .reg r =>
    match regOfNum r with
    | some n => readReg n s
    | none => 0
  | .word i => if s.status.busy then Config.freeWord s.draws .bus else readWord s .bus i

/-- The effect of an accepted write. A reserved register ignores it (R45); a DMEM write is dropped while BUSY = 1 (R70). -/
def busWrite (t : BusTarget) (v : Word) (s : State) : State :=
  match t with
  | .reg r =>
    match regOfNum r with
    | some n => writeReg n v s
    | none => s
  | .word i => unlessBusy s { s with dmem := writeWord s.dmem i v }

/-- One bus access: its response and its effect on the core. A bus error has no effect (R63), a read has none (R67). -/
def busAccess (a : BusAccess) (s : State) : BusResponse × State :=
  match busTarget s.params.dmemWords a with
  | none => (.busError, s)
  | some t =>
    match a.op with
    | .read => (.data (busRead t s), s)
    | .write v => (.accepted, busWrite t v s)

/-- The data a read returns to the host: 0 on a bus error (R63). -/
def readData : BusResponse → Word
  | .data v => v
  | .idle => 0
  | .accepted => 0
  | .busError => 0

/-! ## The host script (R90) -/

/-- The access of `wr REG, v` and `rd REG` (R22, R90). -/
def regAccess (r : RegName) (op : BusOp) : BusAccess := { offset := BitVec.ofNat 32 (8 * regNum r), op }

/-- The access of `wrm i, v` and `rdm i` (R60, R90). -/
def wordAccess (i : Nat) (op : BusOp) : BusAccess := { offset := BitVec.ofNat 32 (wordOffset i), op }

/-- The bus access a statement makes; branches make none. -/
def stmtAccess : HostStmt → Option BusAccess
  | .access a => some a
  | .wr r v => some (regAccess r (.write v))
  | .rd r => some (regAccess r .read)
  | .wrm i v => some (wordAccess i (.write v))
  | .rdm i => some (wordAccess i .read)
  | .bnz _ _ => none
  | .bz _ _ => none

/-- A host statement in range of what an offset can say: `wrm` and `rdm` name a word whose offset has 32 bits. -/
abbrev stmtWellFormed : HostStmt → Prop
  | .wrm i _ => wordOffset i < 2 ^ 32
  | .rdm i => wordOffset i < 2 ^ 32
  | .access _ => True
  | .wr _ _ => True
  | .rd _ => True
  | .bnz _ _ => True
  | .bz _ _ => True

/-- The value of the last read after an access (R90). -/
def nextLastRead (h : HostAgent) (op : BusOp) (r : BusResponse) : Word :=
  match op with
  | .read => readData r
  | .write _ => h.lastRead

/-- The statement after the one at hand: a branch's label where it is taken (R90). -/
def nextPos (h : HostAgent) : HostStmt → Nat
  | .bnz mask label => if h.lastRead &&& mask ≠ 0 then label else h.pos + 1
  | .bz mask label => if h.lastRead &&& mask = 0 then label else h.pos + 1
  | .access _ => h.pos + 1
  | .wr _ _ => h.pos + 1
  | .rd _ => h.pos + 1
  | .wrm _ _ => h.pos + 1
  | .rdm _ => h.pos + 1

/-- The host makes one access, and moves on: the core's part is `busAccess`; the response, the host's place and the draw
counter are the model's. -/
def hostAccess (a : BusAccess) (pos : Nat) (s : State) : State :=
  let r := busAccess a s
  { r.2 with
    resp := r.1
    host := { s.host with pos := pos, lastRead := nextLastRead s.host a.op r.1 }
    draws := s.draws + 1 }

/-- The host's turn: the statement it is at (R68); nothing once its script has ended. -/
def hostTurn (s : State) : State :=
  match s.host.script[s.host.pos]? with
  | none => s
  | some st =>
    match stmtAccess st with
    | some a => hostAccess a (nextPos s.host st) s
    | none => { s with host := { s.host with pos := nextPos s.host st } }

/-! ## Pseudo-instructions (R91) -/

/-- `issue m`: `wr CMD, word(m)`. -/
def issue (m : Instr) : List HostStmt := [.wr .cmd (encode m)]

/-- `wait`, standing at statement `at`: `L: rd STATUS` ; `bnz STATUS, 0x1, L`. -/
def waitIdle (here : Nat) : List HostStmt := [.rd .status, .bnz 0x1 here]

/-- `run m`, standing at statement `here`: `issue m` ; `wait`. -/
def runCmd (m : Instr) (here : Nat) : List HostStmt := issue m ++ waitIdle (here + 1)

/-- `clr`: `wr STATUS, 0xE`. -/
def clearStatus : List HostStmt := [.wr .status 0xE]

/-- `clrf`: `wr FFLAGS, 0`. -/
def clearFlags : List HostStmt := [.wr .fflags 0]

/-- `wrf REG, d`, for d the quotient num/den with sign `s`. -/
def writeRegFloat (r : RegName) (s : Bool) (num den : Nat) : List HostStmt := [.wr r (F64.ofQuotient s num den)]

/-- `wrmf i, d`. -/
def writeWordFloat (i : Nat) (s : Bool) (num den : Nat) : List HostStmt := [.wrm i (F64.ofQuotient s num den)]

end Sys2Proof.Machine
end

