-- ==== Sys2Proof/Machine/Fir.lean ====
section
/-! DEFINITION. The FIR command (42_fir.md R180 to R191): direct-form causal convolution, accumulated left to right. Every
output is computed from the memory before the command: the checks refuse a Y region that meets an input (20_memory.md R78). -/

namespace Sys2Proof.Machine

/-- One term after the first (R185): `ffma(t, x, acc)` when fused, else `fadd(acc, fmul(t, x))`, with the flags raised. -/
def macStep (fused : Bool) (t x acc : Word) : Word × Flags :=
  if fused then F64.ffma t x acc
  else
    let p := F64.fmul t x
    let a := F64.fadd acc p.1
    (a.1, flagsUnion p.2 a.2)

/-- The accumulator after term K, and the flags so far: it starts at the first product, and terms 1, ..., K are added in
order (R184). `t k` and `x k` are the tap and the sample of term k. -/
def firAcc (fused : Bool) (t x : Nat → Word) : Nat → Word × Flags
  | 0 => F64.fmul (t 0) (x 0)
  | k + 1 =>
    let a := firAcc fused t x k
    let r := macStep fused (t (k + 1)) (x (k + 1)) a.1
    (r.1, flagsUnion a.2 r.2)

/-- Tap k as output n reads it (R180). -/
def firTap (s : State) (n k : Nat) : Word := readWord s (.firTap n k) (s.regs.tBase.toNat + k)

/-- Sample n - k as output n reads it (R180). -/
def firSample (s : State) (n k : Nat) : Word := readWord s (.firSample n k) (s.regs.xBase.toNat + (n - k))

/-- y[n] and the flags its operations raise: terms 0 to min(n, T - 1) (R182, R183). -/
def firOutput (s : State) (n : Nat) : Word × Flags :=
  firAcc s.params.macFused (firTap s n) (firSample s n) (min n (taps s - 1))

/-- The union of the flags of outputs 0, ..., n - 1 (R188). -/
def firFlags (s : State) : Nat → Flags
  | 0 => noFlags
  | n + 1 => flagsUnion (firFlags s n) (firOutput s n).2

/-- FIR's writes: y[0] to y[N-1], then the flags (R182, R188). -/
def firEffect (s : State) : State :=
  { s with
    dmem := writeBuffer s.dmem s.regs.yBase.toNat (fun n => (firOutput s n).1) (len s)
    fflags := flagsUnion s.fflags (firFlags s (len s)) }

/-- FIR (R182). -/
def execFir (s : State) : Result := .next (finish (commandError .fir s) (firEffect s) s)

end Sys2Proof.Machine
end

