-- ==== Sys2Proof/Machine/Scalar.lean ====
section
/-! DEFINITION. The scalar floating-point commands (40_fp_arith.md R120 to R123). They never raise an error (R205). -/

namespace Sys2Proof.Machine

/-- RESULT <- r; FFLAGS gains the flags raised (R111); complete (R210). -/
def scalarResult (r : Word × Flags) (s : State) : State :=
  complete { s with result := r.1, fflags := flagsUnion s.fflags r.2 }

/-- FADD (R120). -/
def execFadd (s : State) : Result := .next (scalarResult (F64.fadd s.regs.opa s.regs.opb) s)

/-- FSUB (R121). -/
def execFsub (s : State) : Result := .next (scalarResult (F64.fsub s.regs.opa s.regs.opb) s)

/-- FMUL (R122). -/
def execFmul (s : State) : Result := .next (scalarResult (F64.fmul s.regs.opa s.regs.opb) s)

/-- FMA (R123). -/
def execFma (s : State) : Result := .next (scalarResult (F64.ffma s.regs.opa s.regs.opb s.regs.opc) s)

end Sys2Proof.Machine
end

