-- ==== Sys2Proof/Machine/Spectrum.lean ====
section
/-! DEFINITION. The spectrum commands (41_spectrum.md R140 to R163): DFT, FREQMAP with either axis, MAG, HALFSPEC. None changes
FFLAGS or RESULT (R51, 40_fp_arith.md R111). Every output is computed from the memory before the command, since the checks
refuse an output region that meets an input (20_memory.md R78). -/

namespace Sys2Proof.Machine

/-! ## DFT (R144 to R152) -/

/-- The samples xs, read after the finiteness scan (R144). -/
def dftSamples (s : State) : List Word :=
  (List.range (len s)).map fun n => readWord s (.dftSample n) (s.regs.xBase.toNat + n)

/-- What is written for computed bin k (R144): x[0] for N = 1 (R150), else P_DFT_BIN's bin (R147); the imaginary part of
bins 0 and N/2 is +0.0 (R149). -/
def computedBin (N : Nat) (xs : List Word) (k : Nat) : Word × Word :=
  let bin := if N = 1 then (xs.getD 0 0, 0#64) else Config.dft.bin N xs k
  (bin.1, if k = 0 || 2 * k = N then 0#64 else bin.2)

/-- What is written for bin k: itself where it is computed, else the conjugate mirror of bin N - k (R146, R151). -/
def dftBin (N : Nat) (xs : List Word) (k : Nat) : Word × Word :=
  if k ≤ N / 2 then computedBin N xs k
  else ((computedBin N xs (N - k)).1, F64.fneg (computedBin N xs (N - k)).2)

/-- DFT's writes (R144). -/
def dftEffect (s : State) : State :=
  let N := len s
  let xs := dftSamples s
  { s with
    dmem := writeBuffer (writeBuffer s.dmem s.regs.reBase.toNat (fun k => (dftBin N xs k).1) N)
      s.regs.imBase.toNat (fun k => (dftBin N xs k).2) N }

/-- DFT (R144). -/
def execDft (s : State) : Result := .next (finish (commandError .dft s) (dftEffect s) s)

/-! ## Frequency axis (R154, R155) -/

/-- The signed bin number of bin k: k - N on the folded axis where 2k ≥ N, else k (R154). -/
def binNumber (N k : Nat) (fold : Bool) : Int :=
  if fold && decide (N ≤ 2 * k) then (k : Int) - N else k

/-- `freq(k, fold)` (R154): +0.0 for bin number 0, else one rounding of j · val(fs) / N. -/
def binFreq (fs : Word) (N k : Nat) (fold : Bool) : Word :=
  let j := binNumber N k fold
  if j = 0 then F64.zero false
  else F64.withSign (decide (j < 0)) (F64.roundMag (j.natAbs * F64.units fs) N)

/-- FREQMAP's writes (R155). -/
def freqmapEffect (fold : Bool) (s : State) : State :=
  { s with dmem := writeBuffer s.dmem s.regs.fBase.toNat (fun k => binFreq s.regs.fs (len s) k fold) (len s) }

/-- FREQMAP, the unfolded axis (R155). -/
def execFreqmap (s : State) : Result := .next (finish (commandError .freqmap s) (freqmapEffect false s) s)

/-- FREQMAP.FOLD, the folded axis (R155). -/
def execFreqmapFold (s : State) : Result := .next (finish (commandError .freqmapFold s) (freqmapEffect true s) s)

/-! ## Magnitude (R157, R158) -/

/-- `mag(re, im)` (R157). -/
def binMag (re im : Word) : Word :=
  if F64.isNaN re || F64.isNaN im then F64.canonNaN
  else if F64.isZero im then F64.fabs re
  else if F64.isZero re then F64.fabs im
  else (F64.fsqrt (F64.fadd (F64.fmul re re).1 (F64.fmul im im).1).1).1

/-- M[k] from the RE and IM regions (R158, R162). -/
def magOutput (s : State) (k : Nat) : Word :=
  binMag (readWord s (.re k) (s.regs.reBase.toNat + k)) (readWord s (.im k) (s.regs.imBase.toNat + k))

/-- MAG's writes (R158). -/
def magEffect (s : State) : State :=
  { s with dmem := writeBuffer s.dmem s.regs.mBase.toNat (magOutput s) (len s) }

/-- MAG (R158). -/
def execMag (s : State) : Result := .next (finish (commandError .mag s) (magEffect s) s)

/-! ## Half spectrum (R160 to R162) -/

/-- HALFSPEC's writes (R162): F and M for k in [0, H). -/
def halfspecEffect (s : State) : State :=
  { s with
    dmem := writeBuffer
      (writeBuffer s.dmem s.regs.fBase.toNat (fun k => binFreq s.regs.fs (len s) k false) (halfLen s))
      s.regs.mBase.toNat (magOutput s) (halfLen s) }

/-- HALFSPEC (R162). -/
def execHalfspec (s : State) : Result := .next (finish (commandError .halfspec s) (halfspecEffect s) s)

end Sys2Proof.Machine
end

