-- ==== Sys2Proof/Machine/Dispatch.lean ====
section
/-! DEFINITION. exec: one arm per command (30_encoding.md R85). -/

namespace Sys2Proof.Machine

/-- The engine performs a command (R85). -/
def exec (i : Instr) (s : State) : Host.Outcome State Fault Refusal :=
  match i with
  | .fir => Sys2Proof.Machine.execFir s
  | .dft => Sys2Proof.Machine.execDft s
  | .freqmap => Sys2Proof.Machine.execFreqmap s
  | .freqmapFold => Sys2Proof.Machine.execFreqmapFold s
  | .mag => Sys2Proof.Machine.execMag s
  | .halfspec => Sys2Proof.Machine.execHalfspec s
  | .fadd => Sys2Proof.Machine.execFadd s
  | .fsub => Sys2Proof.Machine.execFsub s
  | .fmul => Sys2Proof.Machine.execFmul s
  | .fma => Sys2Proof.Machine.execFma s

end Sys2Proof.Machine
end

