-- ==== Sys2Proof/Machine/Engine.lean ====
section
/-! DEFINITION. The turns of the engine and of the reset input, and which comes next (20_memory.md R69, 30_encoding.md R85). -/

namespace Sys2Proof.Machine

/-- After a turn that may have drawn free values, the next turn's draws are fresh (R64, R71). -/
def nextDraws (s : State) : State := { s with draws := s.draws + 1 }

/-- What a turn adds around a meaning: the draw counter advances. -/
def afterCommand : Result → Result
  | .next t => .next (nextDraws t)
  | .fault r => .fault r
  | .refused r => .refused r

/-- The engine performs PENDING while BUSY = 1 (R85): its command, or ILLEGAL_COMMAND where it is no legal word (R83).
Idle, it does nothing (R224). -/
def engineTurn (s : State) : Result :=
  if s.status.busy then
    match decode s.pending with
    | some i => afterCommand (exec i s)
    | none => afterCommand (.next (raiseError illegalCommand s))
  else .next s

/-- The turn at hand is taken out of the schedule. -/
def takeTurn (s : State) : State := { s with sched := s.sched.tail }

/-- Who moves: the schedule's next turn; where it is empty, the engine while a command is pending (R225), else the host. -/
def whoMoves (s : State) : Turn :=
  match s.sched with
  | t :: _ => t
  | [] => if s.status.busy then .engine else .host

/-- The turn of one agent. -/
def agentTurn (t : Turn) (s : State) : Result :=
  match t with
  | .engine => engineTurn s
  | .host => .next (hostTurn s)
  | .rst => .next (hardReset s)

end Sys2Proof.Machine
end

