-- ==== Sys2Proof/Machine/Step.lean ====
section
/-! DEFINITION. One step of the machine, and the placing of a command where the next step performs it. -/

namespace Sys2Proof.Machine

/-- One step: the agent whose turn it is moves (20_memory.md R69, R73). -/
def step (s : State) : Host.Outcome State Fault Refusal := agentTurn (whoMoves s) (takeTurn s)

/-- `s` with the command word `w` accepted (30_encoding.md R84) and the engine's turn next, so that the very next step
performs it. DSPCORE fetches nothing (R21): acceptance latches the word in PENDING. The bits from `nbits` up are zero. -/
def State.withFetchWord (s : State) (nbits w : Nat) : State :=
  { acceptCommand (BitVec.ofNat 64 (w % 2 ^ nbits)) s with sched := .engine :: s.sched }

end Sys2Proof.Machine
end

