-- ==== Sys2Proof/Machine/RoundSpec.lean ====
section
/-! DEFINITION. Rounding as the spec words it (40_fp_arith.md R103, R107, R108): nearness over the reals, with no algorithm. The
machine computes with Float.lean; claims compare it with these. -/

namespace Sys2Proof.F64

/-- The magnitude of a sign-less pattern; `infMag` stands for the virtual value 2^1024 (R103). -/
def magVal (m : Nat) : ℚ := (magUnits m : ℚ) / 2 ^ 1074

/-- `m` is the pattern of the element of F nearest to the magnitude `v`, ties to the even significand (R103). A pattern's
significand is even exactly when the pattern is. -/
def NearestMag (v : ℝ) (m : Nat) : Prop :=
  m ≤ infMag ∧
  ∀ b, b ≤ infMag → |v - (magVal m : ℝ)| ≤ |v - (magVal b : ℝ)| ∧
    (b ≠ m → |v - (magVal b : ℝ)| = |v - (magVal m : ℝ)| → m % 2 = 0)

/-- `r` is RN of the non-zero real `v`: the nearest magnitude with the sign of v (R103). -/
def IsRN (v : ℝ) (r : Word) : Prop :=
  v ≠ 0 ∧ ∃ m, NearestMag |v| m ∧ (0 < v → r = withSign false m) ∧ (v < 0 → r = withSign true m)

/-- c · 2^e, with 53 significant bits, is the number of that form nearest to the magnitude `v`, ties to even: rounding with
an unbounded exponent range (R107, R108). -/
def NearestUnbounded (v : ℝ) (c : Nat) (e : ℤ) : Prop :=
  (2 ^ 52 ≤ c ∧ c < 2 ^ 53) ∧
  ∀ (d : Nat) (f : ℤ), 2 ^ 52 ≤ d → d < 2 ^ 53 →
    |v - (c : ℝ) * (2 : ℝ) ^ e| ≤ |v - (d : ℝ) * (2 : ℝ) ^ f| ∧
    ((d ≠ c ∨ f ≠ e) → |v - (d : ℝ) * (2 : ℝ) ^ f| = |v - (c : ℝ) * (2 : ℝ) ^ e| → c % 2 = 0)

/-- A non-zero magnitude is tiny when rounding it with an unbounded exponent range gives less than 2^-1022 (R108). -/
def IsTiny (v : ℝ) : Prop := ∃ c e, NearestUnbounded v c e ∧ (c : ℝ) * (2 : ℝ) ^ e < (2 : ℝ) ^ (-1022 : ℤ)

/-- A magnitude overflows: |v| ≥ (2 - 2^-53) · 2^1023 (R107). -/
def Overflows (v : ℝ) : Prop := (2 - (2 : ℝ) ^ (-53 : ℤ)) * (2 : ℝ) ^ (1023 : ℤ) ≤ v

/-- The result and flags that R112, R114 and R115 give for an exact non-zero result `v`: RN(v); NX where the value changed
or became infinite; OF where v overflows; UF where v is tiny and the result inexact; never NV. -/
def RoundsTo (v : ℝ) (r : Word) (fl : Flags) : Prop :=
  IsRN v r ∧
  (fl.nx = true ↔ ((val r : ℝ) ≠ v ∨ isInf r = true)) ∧
  (fl.of = true ↔ Overflows |v|) ∧
  (fl.uf = true ↔ (IsTiny |v| ∧ fl.nx = true)) ∧
  fl.nv = false

end Sys2Proof.F64
end

