-- ==== Sys2Proof/Safety.lean ====
section
/-! DEFINITION. The machine's invariant: what the spec's prose says of every state, and the terms claims
use: readiness of each command, what a completion leaves alone, and the accesses that reset. -/

namespace Sys2Proof.Machine

/-- What STATUS, ERR_INFO and PENDING say of each other:
DONE and ERR are never both 1 (R29); while BUSY = 1 neither is set and LAST_OP is PENDING's low byte (R35, R84); a pending
or a successful command has no error recorded, and ERR = 1 has one (R29, R30, R84, R204). -/
abbrev StatusConsistent (s : State) : Prop :=
  ¬(s.status.done = true ∧ s.status.err = true) ∧
  (s.status.busy = true → s.status.done = false ∧ s.status.err = false ∧ s.status.lastOp = opField s.pending) ∧
  (s.status.busy = true ∨ s.status.done = true → s.status.errKind = .none) ∧
  (s.status.err = true → s.status.errKind ≠ .none)

/-- What the error fields say of each other (R32 to R34, R44, R205): no kind means no stage, parameter or information;
ILLEGAL_COMMAND goes with stage DECODE and parameter CMD; INVALID_INPUT names NLEN; NUMERICAL_INSTABILITY names X_BASE and
only it leaves ERR_INFO non-zero, at an index of DMEM. -/
abbrev ErrorFieldsConsistent (s : State) : Prop :=
  (s.status.errKind = .none ↔ s.status.errStage = .none) ∧
  (s.status.errKind = .none → s.status.errParam = 0) ∧
  (s.status.errKind = .illegalCommand ↔ s.status.errStage = .decode) ∧
  (s.status.errKind = .illegalCommand → s.status.errParam = 3) ∧
  (s.status.errKind = .invalidInput → s.status.errParam = 5) ∧
  (s.status.errKind = .numericalInstability → s.status.errParam = 4 ∧ s.status.errStage = .spectrumAnalyzer) ∧
  (s.errInfo ≠ 0 → s.status.errKind = .numericalInstability) ∧
  s.errInfo.toNat < s.params.dmemWords

/-- The invariant: the parameters are in their ranges (R7), DMEM's listing is in canonical form (R61, log entry 16), and
the status and error fields are consistent. -/
abbrev State.Inv (s : State) : Prop :=
  s.params.wf ∧ Memory.wf s.params.dmemWords s.dmem ∧ StatusConsistent s ∧ ErrorFieldsConsistent s

/-! ## Readiness: the states from which a command takes its effect (R206 read as conditions for success) -/

/-- Two non-empty regions share no index (R10). -/
abbrev Apart (b n c k : Nat) : Prop := b + n ≤ c ∨ c + k ≤ b

/-- No row of FIR's group fails (R206). -/
abbrev FirReady (s : State) : Prop :=
  1 ≤ len s ∧ taps s % 2 = 1 ∧
  s.regs.xBase.toNat + len s ≤ s.params.dmemWords ∧ s.regs.tBase.toNat + taps s ≤ s.params.dmemWords ∧
  s.regs.yBase.toNat + len s ≤ s.params.dmemWords ∧
  Apart s.regs.yBase.toNat (len s) s.regs.xBase.toNat (len s) ∧
  Apart s.regs.yBase.toNat (len s) s.regs.tBase.toNat (taps s)

/-- No row of DFT's group but the finiteness scan's fails (R206). -/
abbrev DftReady (s : State) : Prop :=
  1 ≤ len s ∧ s.regs.xBase.toNat + len s ≤ s.params.dmemWords ∧
  s.regs.reBase.toNat + len s ≤ s.params.dmemWords ∧ s.regs.imBase.toNat + len s ≤ s.params.dmemWords ∧
  Apart s.regs.reBase.toNat (len s) s.regs.xBase.toNat (len s) ∧
  Apart s.regs.imBase.toNat (len s) s.regs.xBase.toNat (len s) ∧
  Apart s.regs.imBase.toNat (len s) s.regs.reBase.toNat (len s)

/-- FS is finite and above zero (R141). -/
abbrev FsPositive (s : State) : Prop :=
  F64.isFinite s.regs.fs = true ∧ F64.isZero s.regs.fs = false ∧ F64.sign s.regs.fs = false

/-- No row of FREQMAP's group fails (R206). -/
abbrev FreqmapReady (s : State) : Prop :=
  1 ≤ len s ∧ FsPositive s ∧ s.regs.fBase.toNat + len s ≤ s.params.dmemWords

/-- No row of MAG's group fails (R206). -/
abbrev MagReady (s : State) : Prop :=
  1 ≤ len s ∧ s.regs.reBase.toNat + len s ≤ s.params.dmemWords ∧
  s.regs.imBase.toNat + len s ≤ s.params.dmemWords ∧ s.regs.mBase.toNat + len s ≤ s.params.dmemWords ∧
  Apart s.regs.mBase.toNat (len s) s.regs.reBase.toNat (len s) ∧
  Apart s.regs.mBase.toNat (len s) s.regs.imBase.toNat (len s)

/-- No row of HALFSPEC's group fails (R206). -/
abbrev HalfspecReady (s : State) : Prop :=
  1 ≤ len s ∧ FsPositive s ∧
  s.regs.reBase.toNat + halfLen s ≤ s.params.dmemWords ∧ s.regs.imBase.toNat + halfLen s ≤ s.params.dmemWords ∧
  s.regs.fBase.toNat + halfLen s ≤ s.params.dmemWords ∧ s.regs.mBase.toNat + halfLen s ≤ s.params.dmemWords ∧
  Apart s.regs.fBase.toNat (halfLen s) s.regs.reBase.toNat (halfLen s) ∧
  Apart s.regs.fBase.toNat (halfLen s) s.regs.imBase.toNat (halfLen s) ∧
  Apart s.regs.mBase.toNat (halfLen s) s.regs.reBase.toNat (halfLen s) ∧
  Apart s.regs.mBase.toNat (halfLen s) s.regs.imBase.toNat (halfLen s) ∧
  Apart s.regs.mBase.toNat (halfLen s) s.regs.fBase.toNat (halfLen s)

/-- The words of region(b, n) hold f 0, f 1, ..., each written since the last hardware reset (R235 step 2). -/
abbrev Holds (s : State) (b : Word) (n : Nat) (f : Nat → Word) : Prop := ∀ j < n, wordAt s.dmem (b.toNat + j) = some (f j)

/-- No check of the command fails, the finiteness scan of DFT included (R145, R206). The scalar commands have no checks. -/
def Ready (i : Instr) (s : State) : Prop :=
  match i with
  | .fir => FirReady s
  | .dft => DftReady s ∧ ∀ n < len s, F64.isFinite (readWord s (.scan n) (s.regs.xBase.toNat + n)) = true
  | .freqmap => FreqmapReady s
  | .freqmapFold => FreqmapReady s
  | .mag => MagReady s
  | .halfspec => HalfspecReady s
  | .fadd => True
  | .fsub => True
  | .fmul => True
  | .fma => True

/-- The regions of DMEM that R51 and R233 list for each command, as base and length. -/
def tableRegions (i : Instr) (s : State) : List (Nat × Nat) :=
  match i with
  | .fir => [(s.regs.yBase.toNat, s.regs.nlen.toNat)]
  | .dft => [(s.regs.reBase.toNat, s.regs.nlen.toNat), (s.regs.imBase.toNat, s.regs.nlen.toNat)]
  | .freqmap => [(s.regs.fBase.toNat, s.regs.nlen.toNat)]
  | .freqmapFold => [(s.regs.fBase.toNat, s.regs.nlen.toNat)]
  | .mag => [(s.regs.mBase.toNat, s.regs.nlen.toNat)]
  | .halfspec => [(s.regs.fBase.toNat, (s.regs.nlen.toNat + 1) / 2), (s.regs.mBase.toNat, (s.regs.nlen.toNat + 1) / 2)]
  | .fadd => []
  | .fsub => []
  | .fmul => []
  | .fma => []

/-- A command word is legal: R82's three conditions, on the bits of the word. -/
abbrev LegalWord (w : Word) : Prop :=
  w.extractLsb' 0 8 ∈ ([0x01, 0x02, 0x03, 0x04, 0x05, 0x10, 0x11, 0x12, 0x13] : List (BitVec 8)) ∧
  w.extractLsb' 9 55 = 0#55 ∧
  (w.getLsbD 8 = false ∨ w.extractLsb' 0 8 = 0x03#8)

/-! ## What a command leaves alone (R51, R204, R210) -/

/-- A successful completion sets BUSY = 0 and DONE = 1 and leaves CTRL, every other STATUS field, registers 4 to 16,
ERR_INFO, PENDING, the parameters and the outside agents as they were. -/
def CompletedFrame (s t : State) : Prop :=
  t.status = { s.status with busy := false, done := true } ∧
  t.params = s.params ∧ t.irqEn = s.irqEn ∧ t.regs = s.regs ∧ t.errInfo = s.errInfo ∧ t.pending = s.pending ∧
  t.draws = s.draws ∧ t.resp = s.resp ∧ t.host = s.host ∧ t.sched = s.sched

/-- Every byte of memory outside the words of the given regions reads as before. -/
def SameBytesOutside (s t : State) (regions : List (Nat × Nat)) : Prop :=
  ∀ a, (∀ r ∈ regions, ¬(wordOffset r.1 ≤ a ∧ a < wordOffset (r.1 + r.2))) → byteAt t.dmem a = byteAt s.dmem a

/-- A command ends with an error: the error fields and ERR_INFO are set, BUSY = 0 and ERR = 1, and nothing else of the state
changes (R204, R210). -/
def FailsWith (i : Instr) (s : State) (kind : ErrKind) (stage : ErrStage) (param : BitVec 8) (info : Word) : Prop :=
  exec i s = .next { s with
    status := { s.status with busy := false, err := true, errKind := kind, errStage := stage, errParam := param }
    errInfo := info }

/-- A command completes without an error. -/
def Succeeds (i : Instr) (s : State) : Prop := ∃ t, exec i s = .next t ∧ CompletedFrame s t

/-! ## The host's move -/

/-- The next step is the host's, and the statement it is at makes the access `a`. -/
abbrev HostMakes (s : State) (a : BusAccess) : Prop :=
  whoMoves s = .host ∧ (s.host.script[s.host.pos]?).bind stmtAccess = some a

/-- The host's next step is a 64-bit write of `v` at an offset. -/
abbrev HostWrites (s : State) (offset : Offset) (v : Word) : Prop := HostMakes s ⟨64, offset, .write v⟩

/-- The host's next step is a 64-bit read at an offset. -/
abbrev HostReads (s : State) (offset : Offset) : Prop := HostMakes s ⟨64, offset, .read⟩

/-- The engine's next step performs PENDING (R85). -/
abbrev EnginePerforms (s : State) : Prop := whoMoves s = .engine ∧ s.status.busy = true

/-- What a host step leaves around the core: `r` is the response, and the host has gone on to its next statement. -/
def afterAccess (r : BusResponse) (lastRead : Word) (s : State) : State :=
  { s with
    resp := r
    host := { s.host with pos := s.host.pos + 1, lastRead := lastRead }
    draws := s.draws + 1
    sched := s.sched.tail }

/-- The next step resets the register block: RST, or a write to CTRL with bit 1 set (R26, R231, R232). -/
abbrev Resets (s : State) : Prop :=
  whoMoves s = .rst ∨ ∃ v : Word, v.getLsbD 1 = true ∧ HostWrites s 0x008#32 v

/-- An offset whose write BUSY = 1 drops (R70): CMD, registers 4 to 16, FFLAGS, or a DMEM word. -/
abbrev Droppable (words : Nat) (offset : Offset) : Prop :=
  offset = 0x018#32 ∨ (offset.toNat % 8 = 0 ∧ 0x020 ≤ offset.toNat ∧ offset.toNat ≤ 0x080) ∨ offset = 0x090#32 ∨
  (offset.toNat % 8 = 0 ∧ 0x10000 ≤ offset.toNat ∧ offset.toNat < 0x10000 + 8 * words)

end Sys2Proof.Machine
end

