-- ==== Sys2Proof/Certificates/Slice0/Obligations.lean ====
section
/-! DEFINITION. The statements about the model, each a def Obligations.<Name> : Prop. Numbers R<n> are the spec's rules. -/

section

open Sys2Proof Sys2Proof.Machine

/-! ## Encoding (30_encoding.md) -/

/-- The ten legal words of R82 decode to their commands, and the illegal words that 95_test_vectors.md lists do not. -/
def Obligations.ListedWordsDecode : Prop :=
  decode 0x0000000000000001#64 = some .fir ∧ decode 0x0000000000000002#64 = some .dft ∧
  decode 0x0000000000000003#64 = some .freqmap ∧ decode 0x0000000000000103#64 = some .freqmapFold ∧
  decode 0x0000000000000004#64 = some .mag ∧ decode 0x0000000000000005#64 = some .halfspec ∧
  decode 0x0000000000000010#64 = some .fadd ∧ decode 0x0000000000000011#64 = some .fsub ∧
  decode 0x0000000000000012#64 = some .fmul ∧ decode 0x0000000000000013#64 = some .fma ∧
  decode 0x0000000000000000#64 = none ∧ decode 0x0000000000000006#64 = none ∧ decode 0x0000000000000014#64 = none ∧
  decode 0x00000000000000FF#64 = none ∧ decode 0x0000000000000101#64 = none ∧ decode 0x0000000000000110#64 = none ∧
  decode 0x0000000000000201#64 = none ∧ decode 0x0000000000000203#64 = none ∧ decode 0x0000000000001103#64 = none ∧
  decode 0x8000000000000001#64 = none

/-- R82: a word is legal exactly when its OP is listed, its reserved bits are zero, and FOLD is 0 or OP is FREQMAP's; the
legal words are ten. -/
def Obligations.LegalWordsAreTheTen : Prop :=
  ∀ w : Word,
    ((∃ i, decode w = some i) ↔ LegalWord w) ∧
    (LegalWord w ↔ w ∈ ([0x001, 0x002, 0x003, 0x103, 0x004, 0x005, 0x010, 0x011, 0x012, 0x013] : List Word))

/-- Decoding and encoding are inverse: each command has exactly one word (R80, R81, R89). -/
def Obligations.DecodeInvertsEncode : Prop := ∀ (i : Instr) (w : Word), decode w = some i ↔ w = encode i

/-- R83: performing a word that is not legal raises Error(ILLEGAL_COMMAND, DECODE, 3, 0), and changes nothing else of the
core. (`draws` and `sched` are the model's own.) -/
def Obligations.IllegalWordsRaise : Prop :=
  ∀ s : State, EnginePerforms s → ¬LegalWord s.pending →
    step s = .next { s with
      status := { s.status with
        busy := false, err := true, errKind := .illegalCommand, errStage := .decode, errParam := 3 }
      errInfo := 0
      draws := s.draws + 1
      sched := s.sched.tail }

/-! ## The life of a command -/

/-- R84: a write to CMD while idle is the acceptance, and sets exactly what R84 lists; while busy it is none. -/
def Obligations.AcceptanceSetsExactly : Prop :=
  ∀ (s : State) (w : Word), HostWrites s 0x018#32 w →
    (s.status.busy = false → step s = .next (afterAccess .accepted s.host.lastRead { s with
      pending := w
      status := { s.status with
        busy := true, done := false, err := false, errKind := .none, errStage := .none, errParam := 0,
        lastOp := w.extractLsb' 0 8 }
      errInfo := 0 })) ∧
    (s.status.busy = true → ∃ t, step s = .next t ∧ t.pending = s.pending ∧
      t.status = { s.status with ovr := true } ∧ t.errInfo = s.errInfo)

/-- R85: the engine's step is exec of the command that PENDING decodes to. The second clause is about the model's own placing
of a command, `withFetchWord`, over every state: the next step runs exactly the word's command, as accepted. That a state
with a command already pending has it replaced is the model's choice, as is the placing itself (log entry 13); so is that
the draw counter then advances by one (log entry 21). -/
def Obligations.StepRunsPendingCommand : Prop :=
  (∀ (s : State) (i : Instr), EnginePerforms s → decode s.pending = some i →
    ∃ t, exec i { s with sched := s.sched.tail } = .next t ∧ step s = .next { t with draws := t.draws + 1 }) ∧
  (∀ (s : State) (i : Instr) (w : Word), decode w = some i →
    ∃ t, exec i (acceptCommand w s) = .next t ∧
      step (State.withFetchWord s 64 w.toNat) = .next { t with draws := t.draws + 1 })

/-- R204, R210: every command ends, with an error that writes exactly the error fields, BUSY and ERR, or with success,
which of STATUS changes BUSY and DONE alone. PENDING keeps its value. -/
def Obligations.CommandsEndInOneOfTwoWays : Prop :=
  ∀ (i : Instr) (s : State),
    (∃ kind stage param info, kind ≠ .none ∧ FailsWith i s kind stage param info) ∨ Succeeds i s

/-- R51: what each command may write, and that it writes nothing else: the bytes outside the listed regions, the base,
length, FS and operand registers and CTRL stay; RESULT and FFLAGS change only where the table says, FFLAGS by OR; an error
writes only STATUS and ERR_INFO. -/
def Obligations.CommandsWriteOnlyTheTable : Prop :=
  ∀ (i : Instr) (s t : State), exec i s = .next t →
    (t.params = s.params ∧ t.irqEn = s.irqEn ∧ t.regs = s.regs ∧ t.pending = s.pending ∧ t.draws = s.draws ∧
      t.resp = s.resp ∧ t.host = s.host ∧ t.sched = s.sched) ∧
    SameBytesOutside s t (tableRegions i s) ∧
    (t.result ≠ s.result → i = .fadd ∨ i = .fsub ∨ i = .fmul ∨ i = .fma) ∧
    (t.fflags ≠ s.fflags → i = .fir ∨ i = .fadd ∨ i = .fsub ∨ i = .fmul ∨ i = .fma) ∧
    (∀ f ∈ [Flags.nx, Flags.uf, Flags.of, Flags.nv], f s.fflags = true → f t.fflags = true) ∧
    (t.errInfo ≠ s.errInfo → t.status.err = true) ∧
    (s.status.err = false → t.status.err = true →
      t.dmem = s.dmem ∧ t.result = s.result ∧ t.fflags = s.fflags)

/-- R203: re-issuing a command that failed, with nothing written in between, raises the same error. `d` is any draw counter:
the error does not hang on a draw. Where the error is the finiteness check's, the samples have been written. -/
def Obligations.ReissuedErrorRecurs : Prop :=
  ∀ (i : Instr) (s t : State) (kind : ErrKind) (stage : ErrStage) (param : BitVec 8) (info : Word) (x : Nat → Word)
    (d : Nat),
    s.status.busy = true → StatusConsistent s →
    (kind = .numericalInstability → Holds s s.regs.xBase s.regs.nlen.toNat x) →
    FailsWith i s kind stage param info → exec i s = .next t →
    FailsWith i { acceptCommand (encode i) t with draws := d } kind stage param info

/-! ## The checks, in row order (R206, R207) -/

/-- FIR reports the first failing row of FIR-1 to FIR-7, and succeeds where none fails. -/
def Obligations.FirChecksInOrder : Prop :=
  ∀ s : State,
    let r := s.regs
    let N := r.nlen.toNat
    let T := r.tlen.toNat
    let W := s.params.dmemWords
    if N = 0 then FailsWith .fir s .invalidInput .firFilter 5 0
    else if T = 0 then FailsWith .fir s .invalidParameter .firFilter 7 0
    else if T % 2 = 0 then FailsWith .fir s .invalidParameter .firFilter 7 0
    else if W < r.xBase.toNat + N then FailsWith .fir s .invalidParameter .firFilter 4 0
    else if W < r.tBase.toNat + T then FailsWith .fir s .invalidParameter .firFilter 6 0
    else if W < r.yBase.toNat + N then FailsWith .fir s .invalidParameter .firFilter 8 0
    else if ¬Apart r.yBase.toNat N r.xBase.toNat N ∨ ¬Apart r.yBase.toNat N r.tBase.toNat T then
      FailsWith .fir s .invalidParameter .firFilter 8 0
    else Succeeds .fir s

/-- DFT reports the first failing row of DFT-1 to DFT-7; DFT-7 with the smallest index of a non-finite sample, as the scan
reads it (R145); an unwritten sample reads as the scan's own draw (log entry 4). -/
def Obligations.DftChecksInOrder : Prop :=
  ∀ s : State,
    let r := s.regs
    let N := r.nlen.toNat
    let W := s.params.dmemWords
    let x (n : Nat) : Word := readWord s (.scan n) (r.xBase.toNat + n)
    if N = 0 then FailsWith .dft s .invalidInput .spectrumAnalyzer 5 0
    else if W < r.xBase.toNat + N then FailsWith .dft s .invalidParameter .spectrumAnalyzer 4 0
    else if W < r.reBase.toNat + N then FailsWith .dft s .invalidParameter .spectrumAnalyzer 9 0
    else if W < r.imBase.toNat + N then FailsWith .dft s .invalidParameter .spectrumAnalyzer 10 0
    else if ¬Apart r.reBase.toNat N r.xBase.toNat N then FailsWith .dft s .invalidParameter .spectrumAnalyzer 9 0
    else if ¬Apart r.imBase.toNat N r.xBase.toNat N ∨ ¬Apart r.imBase.toNat N r.reBase.toNat N then
      FailsWith .dft s .invalidParameter .spectrumAnalyzer 10 0
    else
      (∀ n < N, F64.isFinite (x n) = false → (∀ m < n, F64.isFinite (x m) = true) →
        FailsWith .dft s .numericalInstability .spectrumAnalyzer 4 (BitVec.ofNat 64 n)) ∧
      ((∀ n < N, F64.isFinite (x n) = true) → Succeeds .dft s)

/-- FREQMAP, with either axis, reports the first failing row of FRQ-1 to FRQ-3. -/
def Obligations.FreqmapChecksInOrder : Prop :=
  ∀ (s : State) (i : Instr), i = .freqmap ∨ i = .freqmapFold →
    let r := s.regs
    let N := r.nlen.toNat
    if N = 0 then FailsWith i s .invalidInput .spectrumAnalyzer 5 0
    else if ¬FsPositive s then FailsWith i s .invalidParameter .spectrumAnalyzer 13 0
    else if s.params.dmemWords < r.fBase.toNat + N then FailsWith i s .invalidParameter .spectrumAnalyzer 11 0
    else Succeeds i s

/-- MAG reports the first failing row of MAG-1 to MAG-5. -/
def Obligations.MagChecksInOrder : Prop :=
  ∀ s : State,
    let r := s.regs
    let N := r.nlen.toNat
    let W := s.params.dmemWords
    if N = 0 then FailsWith .mag s .invalidInput .spectrumAnalyzer 5 0
    else if W < r.reBase.toNat + N then FailsWith .mag s .invalidParameter .spectrumAnalyzer 9 0
    else if W < r.imBase.toNat + N then FailsWith .mag s .invalidParameter .spectrumAnalyzer 10 0
    else if W < r.mBase.toNat + N then FailsWith .mag s .invalidParameter .spectrumAnalyzer 12 0
    else if ¬Apart r.mBase.toNat N r.reBase.toNat N ∨ ¬Apart r.mBase.toNat N r.imBase.toNat N then
      FailsWith .mag s .invalidParameter .spectrumAnalyzer 12 0
    else Succeeds .mag s

/-- HALFSPEC reports the first failing row of HLF-1 to HLF-8, on regions of H = (N + 1) div 2 words. -/
def Obligations.HalfspecChecksInOrder : Prop :=
  ∀ s : State,
    let r := s.regs
    let N := r.nlen.toNat
    let H := (N + 1) / 2
    let W := s.params.dmemWords
    if N = 0 then FailsWith .halfspec s .invalidInput .spectrumAnalyzer 5 0
    else if ¬FsPositive s then FailsWith .halfspec s .invalidParameter .spectrumAnalyzer 13 0
    else if W < r.reBase.toNat + H then FailsWith .halfspec s .invalidParameter .spectrumAnalyzer 9 0
    else if W < r.imBase.toNat + H then FailsWith .halfspec s .invalidParameter .spectrumAnalyzer 10 0
    else if W < r.fBase.toNat + H then FailsWith .halfspec s .invalidParameter .spectrumAnalyzer 11 0
    else if W < r.mBase.toNat + H then FailsWith .halfspec s .invalidParameter .spectrumAnalyzer 12 0
    else if ¬Apart r.fBase.toNat H r.reBase.toNat H ∨ ¬Apart r.fBase.toNat H r.imBase.toNat H then
      FailsWith .halfspec s .invalidParameter .spectrumAnalyzer 11 0
    else if ¬Apart r.mBase.toNat H r.reBase.toNat H ∨ ¬Apart r.mBase.toNat H r.imBase.toNat H ∨
        ¬Apart r.mBase.toNat H r.fBase.toNat H then
      FailsWith .halfspec s .invalidParameter .spectrumAnalyzer 12 0
    else Succeeds .halfspec s

/-! ## Floating point (40_fp_arith.md) -/

/-- R120 to R123: each scalar command, from every state, completes: RESULT gets its primitive's result, FFLAGS gains the
flags raised, STATUS records success, and nothing else changes. -/
def Obligations.ScalarCommandsComplete : Prop :=
  ∀ s : State,
    let done (r : Word × Flags) : Result := .next { s with
      result := r.1
      fflags := ⟨s.fflags.nx || r.2.nx, s.fflags.uf || r.2.uf, s.fflags.of || r.2.of, s.fflags.nv || r.2.nv⟩
      status := { s.status with busy := false, done := true } }
    exec .fadd s = done (F64.fadd s.regs.opa s.regs.opb) ∧
    exec .fsub s = done (F64.fsub s.regs.opa s.regs.opb) ∧
    exec .fmul s = done (F64.fmul s.regs.opa s.regs.opb) ∧
    exec .fma s = done (F64.ffma s.regs.opa s.regs.opb s.regs.opc)

/-- R112: the adder, every branch; a non-zero exact sum is rounded by R103 with the flags of R107 and R108. -/
def Obligations.FaddRoundsTheExactSum : Prop :=
  ∀ a b : Word,
    (F64.isNaN a = true ∨ F64.isNaN b = true →
      F64.fadd a b = (0x7FF8000000000000#64, { nv := F64.isSNaN a || F64.isSNaN b })) ∧
    (F64.isInf a = true → F64.isInf b = true →
      F64.fadd a b = if F64.sign a = F64.sign b then (a, {}) else (0x7FF8000000000000#64, { nv := true })) ∧
    (F64.isInf a = true → F64.isFinite b = true → F64.fadd a b = (a, {})) ∧
    (F64.isFinite a = true → F64.isInf b = true → F64.fadd a b = (b, {})) ∧
    (F64.isFinite a = true → F64.isFinite b = true →
      (F64.val a + F64.val b = 0 → F64.fadd a b =
        (if a = 0x8000000000000000#64 ∧ b = 0x8000000000000000#64 then 0x8000000000000000#64 else 0#64, {})) ∧
      (F64.val a + F64.val b ≠ 0 →
        F64.RoundsTo ((F64.val a : ℝ) + F64.val b) (F64.fadd a b).1 (F64.fadd a b).2))

/-- R113: the subtractor is the adder with the second sign flipped; a non-zero exact difference is rounded once, and a zero
one is +0 except for (-0) - (+0). -/
def Obligations.FsubRoundsTheExactDifference : Prop :=
  ∀ a b : Word,
    F64.fsub a b = F64.fadd a (b ^^^ 0x8000000000000000#64) ∧
    (F64.isFinite a = true → F64.isFinite b = true →
      (F64.val a - F64.val b = 0 → F64.fsub a b =
        (if a = 0x8000000000000000#64 ∧ b = 0#64 then 0x8000000000000000#64 else 0#64, {})) ∧
      (F64.val a - F64.val b ≠ 0 →
        F64.RoundsTo ((F64.val a : ℝ) - F64.val b) (F64.fsub a b).1 (F64.fsub a b).2))

/-- R114: the multiplier, every branch. -/
def Obligations.FmulRoundsTheExactProduct : Prop :=
  ∀ a b : Word,
    let sgn : Bool := F64.sign a ^^ F64.sign b
    (F64.isNaN a = true ∨ F64.isNaN b = true →
      F64.fmul a b = (0x7FF8000000000000#64, { nv := F64.isSNaN a || F64.isSNaN b })) ∧
    ((F64.isInf a = true ∧ F64.isZero b = true) ∨ (F64.isZero a = true ∧ F64.isInf b = true) →
      F64.fmul a b = (0x7FF8000000000000#64, { nv := true })) ∧
    (F64.isNaN a = false → F64.isNaN b = false → F64.isZero a = false → F64.isZero b = false →
      (F64.isInf a = true ∨ F64.isInf b = true) →
      F64.fmul a b = (if sgn then 0xFFF0000000000000#64 else 0x7FF0000000000000#64, {})) ∧
    (F64.isFinite a = true → F64.isFinite b = true →
      (F64.isZero a = true ∨ F64.isZero b = true →
        F64.fmul a b = (if sgn then 0x8000000000000000#64 else 0#64, {})) ∧
      (F64.isZero a = false → F64.isZero b = false →
        F64.RoundsTo ((F64.val a : ℝ) * F64.val b) (F64.fmul a b).1 (F64.fmul a b).2))

/-- R115: the fused multiply-add, every branch: one rounding of the exact a·b + c. -/
def Obligations.FfmaRoundsOnce : Prop :=
  ∀ a b c : Word,
    let sgn : Bool := F64.sign a ^^ F64.sign b
    let zi : Bool := (F64.isZero a && F64.isInf b) || (F64.isInf a && F64.isZero b)
    (F64.isNaN a = true ∨ F64.isNaN b = true ∨ F64.isNaN c = true → F64.ffma a b c =
      (0x7FF8000000000000#64, { nv := F64.isSNaN a || F64.isSNaN b || F64.isSNaN c || zi })) ∧
    (F64.isNaN a = false → F64.isNaN b = false → F64.isNaN c = false →
      (zi = true → F64.ffma a b c = (0x7FF8000000000000#64, { nv := true })) ∧
      (zi = false → F64.isInf a = true ∨ F64.isInf b = true → F64.ffma a b c =
        if F64.isInf c = true ∧ F64.sign c ≠ sgn then (0x7FF8000000000000#64, { nv := true })
        else (if sgn then 0xFFF0000000000000#64 else 0x7FF0000000000000#64, {})) ∧
      (F64.isFinite a = true → F64.isFinite b = true → F64.isInf c = true → F64.ffma a b c = (c, {}))) ∧
    (F64.isFinite a = true → F64.isFinite b = true → F64.isFinite c = true →
      (F64.val a * F64.val b + F64.val c = 0 → F64.ffma a b c =
        (if (F64.isZero a = true ∨ F64.isZero b = true) ∧ sgn = true ∧ c = 0x8000000000000000#64
          then 0x8000000000000000#64 else 0#64, {})) ∧
      (F64.val a * F64.val b + F64.val c ≠ 0 →
        F64.RoundsTo ((F64.val a : ℝ) * F64.val b + F64.val c) (F64.ffma a b c).1 (F64.ffma a b c).2))

/-- R116: the square root, every branch; a positive finite operand's root is rounded once and is finite, and the one flag
it can raise is NX. -/
def Obligations.FsqrtRoundsTheExactRoot : Prop :=
  ∀ a : Word,
    (F64.isNaN a = true → F64.fsqrt a = (0x7FF8000000000000#64, { nv := F64.isSNaN a })) ∧
    (F64.isZero a = true → F64.fsqrt a = (a, {})) ∧
    (F64.isNaN a = false → F64.isZero a = false → F64.sign a = true →
      F64.fsqrt a = (0x7FF8000000000000#64, { nv := true })) ∧
    (F64.isInf a = true → F64.sign a = false → F64.fsqrt a = (a, {})) ∧
    (F64.isFinite a = true → F64.isZero a = false → F64.sign a = false →
      F64.IsRN (Real.sqrt (F64.val a)) (F64.fsqrt a).1 ∧ F64.isFinite (F64.fsqrt a).1 = true ∧
      ((F64.fsqrt a).2.nx = true ↔ (F64.val (F64.fsqrt a).1 : ℝ) ≠ Real.sqrt (F64.val a)) ∧
      (F64.fsqrt a).2.uf = false ∧ (F64.fsqrt a).2.of = false ∧ (F64.fsqrt a).2.nv = false)

/-- R109: the invalid operations are exactly those listed, and each gives the canonical NaN. -/
def Obligations.InvalidOperationsAreTheListed : Prop :=
  ∀ a b c : Word,
    ((F64.fadd a b).2.nv = true ↔ F64.isSNaN a = true ∨ F64.isSNaN b = true ∨
      (F64.isInf a = true ∧ F64.isInf b = true ∧ F64.sign a ≠ F64.sign b)) ∧
    ((F64.fsub a b).2.nv = true ↔ F64.isSNaN a = true ∨ F64.isSNaN b = true ∨
      (F64.isInf a = true ∧ F64.isInf b = true ∧ F64.sign a = F64.sign b)) ∧
    ((F64.fmul a b).2.nv = true ↔ F64.isSNaN a = true ∨ F64.isSNaN b = true ∨
      (F64.isZero a = true ∧ F64.isInf b = true) ∨ (F64.isInf a = true ∧ F64.isZero b = true)) ∧
    ((F64.ffma a b c).2.nv = true ↔
      F64.isSNaN a = true ∨ F64.isSNaN b = true ∨ F64.isSNaN c = true ∨
      (F64.isZero a = true ∧ F64.isInf b = true) ∨ (F64.isInf a = true ∧ F64.isZero b = true) ∨
      (F64.isNaN a = false ∧ F64.isNaN b = false ∧ (F64.isInf a = true ∨ F64.isInf b = true) ∧
        F64.isInf c = true ∧ F64.sign c ≠ (F64.sign a ^^ F64.sign b))) ∧
    ((F64.fsqrt a).2.nv = true ↔
      F64.isSNaN a = true ∨ (F64.isNaN a = false ∧ F64.isZero a = false ∧ F64.sign a = true)) ∧
    (∀ r ∈ [F64.fadd a b, F64.fsub a b, F64.fmul a b, F64.ffma a b c, F64.fsqrt a],
      r.2.nv = true → r.1 = 0x7FF8000000000000#64)

/-- R106: a NaN result is the canonical one; a signalling operand raises NV; quiet NaN operands alone raise no flag, but for
`ffma` with a zero times an infinity. `fabs` and `fneg` are bit operations. -/
def Obligations.NanResultsAreCanonical : Prop :=
  ∀ a b c : Word,
    (∀ r ∈ [F64.fadd a b, F64.fsub a b, F64.fmul a b, F64.ffma a b c, F64.fsqrt a],
      F64.isNaN r.1 = true → r.1 = 0x7FF8000000000000#64) ∧
    (F64.isSNaN a = true ∨ F64.isSNaN b = true →
      ∀ r ∈ [F64.fadd a b, F64.fsub a b, F64.fmul a b, F64.ffma a b c], r.2.nv = true) ∧
    (F64.isSNaN c = true → (F64.ffma a b c).2.nv = true) ∧ (F64.isSNaN a = true → (F64.fsqrt a).2.nv = true) ∧
    (F64.isSNaN a = false → F64.isSNaN b = false → (F64.isNaN a = true ∨ F64.isNaN b = true) →
      ∀ r ∈ [F64.fadd a b, F64.fsub a b, F64.fmul a b], r.2 = {}) ∧
    (F64.isNaN a = true → F64.isSNaN a = false → (F64.fsqrt a).2 = {}) ∧
    (F64.isSNaN a = false → F64.isSNaN b = false → F64.isSNaN c = false →
      (F64.isNaN a = true ∨ F64.isNaN b = true ∨ F64.isNaN c = true) →
      ¬(F64.isZero a = true ∧ F64.isInf b = true) → ¬(F64.isInf a = true ∧ F64.isZero b = true) →
      (F64.ffma a b c).2 = {}) ∧
    F64.fabs a = a &&& 0x7FFFFFFFFFFFFFFF#64 ∧ F64.fneg a = a ^^^ 0x8000000000000000#64

/-- R110: signs of products and of exact zeros, and that exact zeros raise no flag. -/
def Obligations.ExactResultSigns : Prop :=
  ∀ a b c : Word,
    (F64.isNaN (F64.fmul a b).1 = false → F64.sign (F64.fmul a b).1 = (F64.sign a ^^ F64.sign b)) ∧
    (F64.isFinite a = true → F64.isFinite b = true →
      (F64.val a + F64.val b = 0 → F64.fadd a b =
        (if F64.isZero a = true ∧ F64.isZero b = true ∧ F64.sign a = true ∧ F64.sign b = true
          then 0x8000000000000000#64 else 0#64, {})) ∧
      (F64.val a - F64.val b = 0 → F64.fsub a b =
        (if F64.isZero a = true ∧ F64.isZero b = true ∧ F64.sign a = true ∧ F64.sign b = false
          then 0x8000000000000000#64 else 0#64, {})) ∧
      (F64.isFinite c = true → F64.val a * F64.val b + F64.val c = 0 → F64.ffma a b c =
        (if (F64.isZero a = true ∨ F64.isZero b = true) ∧ F64.isZero c = true ∧
            (F64.sign a ^^ F64.sign b) = true ∧ F64.sign c = true
          then 0x8000000000000000#64 else 0#64, {}))) ∧
    F64.fsqrt 0x8000000000000000#64 = (0x8000000000000000#64, {}) ∧ F64.fsqrt 0#64 = (0#64, {})

/-- R117: `fabs` clears bit 63 and `fneg` inverts it, and every other bit stays, on every pattern. -/
def Obligations.SignOperationsTouchBit63Only : Prop :=
  ∀ (a : Word) (j : Nat), j < 64 →
    (F64.fabs a).getLsbD j = (if j = 63 then false else a.getLsbD j) ∧
    (F64.fneg a).getLsbD j = (if j = 63 then !a.getLsbD j else a.getLsbD j)

/-! ## FIR (42_fir.md) -/

/-- R182, R184, R185, R187, R188: from every ready state FIR completes. `acc n k` is the accumulator of output n after term
k: the first product, then each later term added left to right, fused or not by the instance's mode. y[n] is the
accumulator after term min(n, T - 1); only region(Y_BASE, N) is written; FFLAGS gains the union of every operation's flags.
Each read of an unwritten word is a draw of its own (log entry 4). -/
def Obligations.FirAccumulatesLeftToRight : Prop :=
  ∀ s : State, FirReady s →
    let N := s.regs.nlen.toNat
    let T := s.regs.tlen.toNat
    let tap (n k : Nat) : Word := readWord s (.firTap n k) (s.regs.tBase.toNat + k)
    let x (n k : Nat) : Word := readWord s (.firSample n k) (s.regs.xBase.toNat + (n - k))
    ∃ (t : State) (acc : Nat → Nat → Word) (fl : Nat → Nat → Flags),
      exec .fir s = .next t ∧ CompletedFrame s t ∧ t.result = s.result ∧
      SameBytesOutside s t [(s.regs.yBase.toNat, N)] ∧
      (∀ n < N,
        (acc n 0, fl n 0) = F64.fmul (tap n 0) (x n 0) ∧
        (∀ k, k + 1 ≤ min n (T - 1) →
          if s.params.macFused = true then
            (acc n (k + 1), fl n (k + 1)) = F64.ffma (tap n (k + 1)) (x n (k + 1)) (acc n k)
          else
            acc n (k + 1) = (F64.fadd (acc n k) (F64.fmul (tap n (k + 1)) (x n (k + 1))).1).1 ∧
            fl n (k + 1) = flagsUnion (F64.fmul (tap n (k + 1)) (x n (k + 1))).2
              (F64.fadd (acc n k) (F64.fmul (tap n (k + 1)) (x n (k + 1))).1).2) ∧
        wordAt t.dmem (s.regs.yBase.toNat + n) = some (acc n (min n (T - 1)))) ∧
      (∀ f ∈ [Flags.nx, Flags.uf, Flags.of, Flags.nv],
        f t.fflags = true ↔ f s.fflags = true ∨ ∃ n < N, ∃ k ≤ min n (T - 1), f (fl n k) = true)

/-- R189: given the mode, the words FIR writes and the flags it raises are a function of N, T and the bits of the samples
and taps only: not of the bases, of other state, or of a draw. -/
def Obligations.FirIsDeterministic : Prop :=
  ∀ (s s' t t' : State) (x tap : Nat → Word),
    FirReady s → FirReady s' → s.params.macFused = s'.params.macFused →
    s.regs.nlen = s'.regs.nlen → s.regs.tlen = s'.regs.tlen →
    Holds s s.regs.xBase s.regs.nlen.toNat x → Holds s s.regs.tBase s.regs.tlen.toNat tap →
    Holds s' s'.regs.xBase s.regs.nlen.toNat x → Holds s' s'.regs.tBase s.regs.tlen.toNat tap →
    exec .fir s = .next t → exec .fir s' = .next t' →
    (∀ n < s.regs.nlen.toNat, ∃ w, wordAt t.dmem (s.regs.yBase.toNat + n) = some w ∧
      wordAt t'.dmem (s'.regs.yBase.toNat + n) = some w) ∧
    ∃ raised : Flags, t.fflags = flagsUnion s.fflags raised ∧ t'.fflags = flagsUnion s'.fflags raised

/-- R186: output n does not depend on tap k, nor on sample k, for any k > n, whatever they hold. -/
def Obligations.FirIgnoresMissingHistory : Prop :=
  ∀ (s s' t t' : State) (x x' tap tap' : Nat → Word),
    FirReady s → FirReady s' → s.params.macFused = s'.params.macFused →
    s.regs.nlen = s'.regs.nlen → s.regs.tlen = s'.regs.tlen →
    Holds s s.regs.xBase s.regs.nlen.toNat x → Holds s s.regs.tBase s.regs.tlen.toNat tap →
    Holds s' s'.regs.xBase s.regs.nlen.toNat x' → Holds s' s'.regs.tBase s.regs.tlen.toNat tap' →
    exec .fir s = .next t → exec .fir s' = .next t' →
    ∀ n < s.regs.nlen.toNat, (∀ k ≤ n, x k = x' k) → (∀ k ≤ n, tap k = tap' k) →
      wordAt t.dmem (s.regs.yBase.toNat + n) = wordAt t'.dmem (s'.regs.yBase.toNat + n)

/-- R190: a single unity tap passes each sample through, a NaN as the canonical one, with NV where one signals; the impulse
response has the taps' values, then zero; zero taps give zeros on finite samples. -/
def Obligations.FirSpecialTaps : Prop :=
  ∀ (s t : State) (x tap : Nat → Word),
    FirReady s → Holds s s.regs.xBase s.regs.nlen.toNat x → Holds s s.regs.tBase s.regs.tlen.toNat tap →
    exec .fir s = .next t →
    let N := s.regs.nlen.toNat
    let T := s.regs.tlen.toNat
    let y (n : Nat) (w : Word) : Prop := wordAt t.dmem (s.regs.yBase.toNat + n) = some w
    (T = 1 → tap 0 = 0x3FF0000000000000#64 →
      (∀ n < N, y n (if F64.isNaN (x n) = true then 0x7FF8000000000000#64 else x n)) ∧
      (t.fflags.nv = true ↔ s.fflags.nv = true ∨ ∃ n < N, F64.isSNaN (x n) = true)) ∧
    (x 0 = 0x3FF0000000000000#64 → (∀ n, 0 < n → n < N → x n = 0#64) → (∀ k < T, F64.isFinite (tap k) = true) →
      ∀ n < N, ∃ w, y n w ∧ F64.isFinite w = true ∧ F64.val w = if n < T then F64.val (tap n) else 0) ∧
    ((∀ k < T, tap k = 0#64) → (∀ n < N, F64.isFinite (x n) = true) → ∀ n < N, ∃ w, y n w ∧ F64.isZero w = true)

/-! ## DFT (41_spectrum.md) -/

/-- R149, R150, R151: from every ready state DFT completes, and writes: for N = 1 the sample and +0.0; else for k ≤ N/2 the
bin P_DFT_BIN gives, with the imaginary part of bins 0 and N/2 as +0.0; above N/2 the mirror. Nothing else changes. Where a
sample is unwritten it is read twice, by the scan and after it, as two draws (log entry 4); where the second is not finite,
that the bins are what the open bin function gives outside R147's domain is the model's choice (log entry 6). -/
def Obligations.DftWritesBins : Prop :=
  ∀ s : State, Ready .dft s →
    let N := s.regs.nlen.toNat
    let re := s.regs.reBase.toNat
    let im := s.regs.imBase.toNat
    let xs := (List.range N).map fun n => readWord s (.dftSample n) (s.regs.xBase.toNat + n)
    ∃ t, exec .dft s = .next t ∧ CompletedFrame s t ∧ t.result = s.result ∧ t.fflags = s.fflags ∧
      SameBytesOutside s t [(re, N), (im, N)] ∧
      (N = 1 → wordAt t.dmem re = some (readWord s (.dftSample 0) s.regs.xBase.toNat) ∧ wordAt t.dmem im = some 0#64) ∧
      (2 ≤ N → ∀ k ≤ N / 2,
        wordAt t.dmem (re + k) = some (Config.dft.bin N xs k).1 ∧
        wordAt t.dmem (im + k) = some (if k = 0 ∨ 2 * k = N then 0#64 else (Config.dft.bin N xs k).2)) ∧
      (∀ k, N / 2 < k → k < N →
        wordAt t.dmem (re + k) = wordAt t.dmem (re + (N - k)) ∧
        wordAt t.dmem (im + k) = (wordAt t.dmem (im + (N - k))).map (· ^^^ 0x8000000000000000#64))

/-- R148 on all N bins, the mirrored ones included: on written finite samples out of reach of overflow, every bin DFT writes
is finite and within the instance's tolerance of the exact transform (R142). The tolerance is the open one. -/
def Obligations.DftIsWithinTolerance : Prop :=
  ∀ (s : State) (x : Nat → Word),
    let N := s.regs.nlen.toNat
    let xs := (List.range N).map x
    DftReady s → 2 ≤ N → Holds s s.regs.xBase N x → (∀ n < N, F64.isFinite (x n) = true) →
    BinBounded Config.dft.tol N xs →
    ∃ t, exec .dft s = .next t ∧ ∀ k < N, ∃ re im,
      wordAt t.dmem (s.regs.reBase.toNat + k) = some re ∧ wordAt t.dmem (s.regs.imBase.toNat + k) = some im ∧
      BinWithin Config.dft.tol N xs k (re, im)

/-- R147: two DFT commands with equal N and bit-identical written inputs write bit-identical outputs, whatever the bases,
the draws and the rest of the state. -/
def Obligations.DftIsAFunctionOfItsInput : Prop :=
  ∀ (s s' t t' : State) (x : Nat → Word),
    Ready .dft s → Ready .dft s' → s.regs.nlen = s'.regs.nlen →
    Holds s s.regs.xBase s.regs.nlen.toNat x → Holds s' s'.regs.xBase s.regs.nlen.toNat x →
    exec .dft s = .next t → exec .dft s' = .next t' →
    ∀ k < s.regs.nlen.toNat, ∃ re im,
      wordAt t.dmem (s.regs.reBase.toNat + k) = some re ∧ wordAt t'.dmem (s'.regs.reBase.toNat + k) = some re ∧
      wordAt t.dmem (s.regs.imBase.toNat + k) = some im ∧ wordAt t'.dmem (s'.regs.imBase.toNat + k) = some im

/-! ## FREQMAP -/

/-- R154: from every ready state FREQMAP completes with either axis. F[k] is +0.0 for j = 0, else one rounding of the exact
j · fs / N, where j = k - N on the folded axis for 2k ≥ N, and k otherwise; it is finite, and no flag is recorded. -/
def Obligations.FreqmapWritesRoundedAxis : Prop :=
  ∀ (s : State) (fold : Bool), FreqmapReady s →
    let N := s.regs.nlen.toNat
    ∃ t, exec (if fold then .freqmapFold else .freqmap) s = .next t ∧ CompletedFrame s t ∧
      t.result = s.result ∧ t.fflags = s.fflags ∧ SameBytesOutside s t [(s.regs.fBase.toNat, N)] ∧
      ∀ k < N, ∃ w, wordAt t.dmem (s.regs.fBase.toNat + k) = some w ∧ F64.isFinite w = true ∧
        let j : ℤ := if fold = true ∧ N ≤ 2 * k then (k : ℤ) - N else k
        (j = 0 → w = 0#64) ∧ (j ≠ 0 → F64.IsRN ((j : ℝ) * F64.val s.regs.fs / N) w)

/-- R156: the unfolded axis is non-decreasing; the folded axis is non-decreasing on [0, H) and on [H, N), non-negative on the
first and non-positive, with sign bit 1, on the second, and drops at H from its largest to its smallest value. -/
def Obligations.FrequencyAxisIsOrdered : Prop :=
  ∀ (s t : State) (fold : Bool), FreqmapReady s → exec (if fold then .freqmapFold else .freqmap) s = .next t →
    let N := s.regs.nlen.toNat
    let H := (N + 1) / 2
    ∃ w : Nat → Word, (∀ k < N, wordAt t.dmem (s.regs.fBase.toNat + k) = some (w k)) ∧
      (fold = false → ∀ k, k + 1 < N → F64.val (w k) ≤ F64.val (w (k + 1))) ∧
      (fold = true →
        (∀ k, k + 1 < H → F64.val (w k) ≤ F64.val (w (k + 1))) ∧
        (∀ k, H ≤ k → k + 1 < N → F64.val (w k) ≤ F64.val (w (k + 1))) ∧
        (∀ k < H, F64.sign (w k) = false) ∧ (∀ k, H ≤ k → k < N → F64.sign (w k) = true) ∧
        (H < N → ∀ k < N, F64.val (w H) ≤ F64.val (w k) ∧ F64.val (w k) ≤ F64.val (w (H - 1))))

/-! ## MAG and HALFSPEC -/

/-- R157, R158: from every ready state MAG completes, and M[k] is the magnitude of the pair as R157 evaluates it: canonical
NaN, an exact absolute value, or the literal formula with three roundings. Each read of an unwritten word is a draw
of its own (log entry 4). -/
def Obligations.MagWritesMagnitudes : Prop :=
  ∀ s : State, MagReady s →
    let N := s.regs.nlen.toNat
    ∃ t, exec .mag s = .next t ∧ CompletedFrame s t ∧ t.result = s.result ∧ t.fflags = s.fflags ∧
      SameBytesOutside s t [(s.regs.mBase.toNat, N)] ∧
      ∀ k < N,
        let re := readWord s (.re k) (s.regs.reBase.toNat + k)
        let im := readWord s (.im k) (s.regs.imBase.toNat + k)
        wordAt t.dmem (s.regs.mBase.toNat + k) = some
          (if F64.isNaN re = true ∨ F64.isNaN im = true then 0x7FF8000000000000#64
          else if F64.isZero im = true then F64.fabs re
          else if F64.isZero re = true then F64.fabs im
          else (F64.fsqrt (F64.fadd (F64.fmul re re).1 (F64.fmul im im).1).1).1)

/-- R159: `mag` is the canonical NaN exactly for a NaN part; otherwise its sign bit is 0; with a zero imaginary part it is
`fabs` of the real part; it is symmetric; and after a one-point DFT it is `fabs` of the sample. -/
def Obligations.MagnitudeProperties : Prop :=
  (∀ re im : Word,
    (binMag re im = 0x7FF8000000000000#64 ↔ F64.isNaN re = true ∨ F64.isNaN im = true) ∧
    (F64.isNaN re = false → F64.isNaN im = false → F64.sign (binMag re im) = false) ∧
    (F64.isNaN re = false → F64.isZero im = true → binMag re im = F64.fabs re) ∧
    binMag re im = binMag im re) ∧
  (∀ (s t : State) (x : Word), Ready .dft s → s.regs.nlen = 1 → wordAt s.dmem s.regs.xBase.toNat = some x →
    exec .dft s = .next t →
    ∃ re im, wordAt t.dmem s.regs.reBase.toNat = some re ∧ wordAt t.dmem s.regs.imBase.toNat = some im ∧
      binMag re im = F64.fabs x)

/-- R162: from every ready state HALFSPEC completes, and writes for k < H the unfolded frequency, one rounding of k · fs / N,
and the magnitude of the pair. Each read of an unwritten word is a draw of its own (log entry 4). -/
def Obligations.HalfspecWritesPairs : Prop :=
  ∀ s : State, HalfspecReady s →
    let N := s.regs.nlen.toNat
    let H := (N + 1) / 2
    ∃ t, exec .halfspec s = .next t ∧ CompletedFrame s t ∧ t.result = s.result ∧ t.fflags = s.fflags ∧
      SameBytesOutside s t [(s.regs.fBase.toNat, H), (s.regs.mBase.toNat, H)] ∧
      ∀ k < H,
        (∃ w, wordAt t.dmem (s.regs.fBase.toNat + k) = some w ∧ F64.isFinite w = true ∧
          (k = 0 → w = 0#64) ∧ (k ≠ 0 → F64.IsRN ((k : ℝ) * F64.val s.regs.fs / N) w)) ∧
        wordAt t.dmem (s.regs.mBase.toNat + k) = some
          (binMag (readWord s (.re k) (s.regs.reBase.toNat + k)) (readWord s (.im k) (s.regs.imBase.toNat + k)))

/-- R163: on k < H, HALFSPEC writes the same F[k] as FREQMAP with either axis, and the same M[k] as MAG, given the same
registers and written RE and IM. -/
def Obligations.HalfspecAgreesWithFreqmapAndMag : Prop :=
  ∀ (s t tf tm : State) (fold : Bool) (re im : Nat → Word),
    HalfspecReady s → FreqmapReady s → MagReady s →
    Holds s s.regs.reBase ((s.regs.nlen.toNat + 1) / 2) re → Holds s s.regs.imBase ((s.regs.nlen.toNat + 1) / 2) im →
    exec .halfspec s = .next t → exec (if fold then .freqmapFold else .freqmap) s = .next tf → exec .mag s = .next tm →
    ∀ k < (s.regs.nlen.toNat + 1) / 2, ∃ f m,
      wordAt t.dmem (s.regs.fBase.toNat + k) = some f ∧ wordAt tf.dmem (s.regs.fBase.toNat + k) = some f ∧
      wordAt t.dmem (s.regs.mBase.toNat + k) = some m ∧ wordAt tm.dmem (s.regs.mBase.toNat + k) = some m

/-! ## Reset and abort (70_reset_and_hazards.md) -/

/-- R231 with R50: after RST every register reads its reset value, PENDING is 0, every DMEM word is unwritten, and IRQ is
deasserted, whatever was in progress; and the model's reset state reads so too, with the default P_ID. -/
def Obligations.HardResetLeaves : Prop :=
  (∀ s : State, whoMoves s = .rst → ∃ t, step s = .next t ∧
    (∀ r, readReg r t = if r = .id then s.params.id else 0) ∧ t.pending = 0 ∧ (∀ i, wordAt t.dmem i = none) ∧
    t.dmem = [] ∧ t.status = {} ∧ irq t = false ∧ t.irqEn = false ∧ t.params = s.params) ∧
  (∀ r, readReg r State.reset = if r = .id then 0x0000000144535043#64 else 0) ∧
  State.reset.pending = 0 ∧ (∀ i, wordAt State.reset.dmem i = none) ∧ irq State.reset = false

/-- R232: a write to CTRL with bit 1 set resets every register and PENDING, whatever the engine's state, discards the
write's IRQ_EN bit, succeeds as an access, and leaves DMEM as it was unless it aborts a command. -/
def Obligations.SoftResetLeaves : Prop :=
  ∀ (s : State) (v : Word), HostWrites s 0x008#32 v → v.getLsbD 1 = true → ∃ t, step s = .next t ∧
    (∀ r, readReg r t = if r = .id then s.params.id else 0) ∧ t.pending = 0 ∧ t.status = {} ∧ t.irqEn = false ∧
    t.params = s.params ∧ t.resp = .accepted ∧ (s.status.busy = false → t.dmem = s.dmem)

/-- R233: a soft reset before a pending command's step abandons it. Outside its output regions no byte changes; in them each
word is its old value or the draw that persists; a command that its checks refuse, a scalar command and an illegal word
change no byte. The draw is the model's open `Config.abortWord` (log entry 9). That the checks of a DFT over unwritten
samples, its finiteness scan, are decided with the draws of the step that resets is the model's choice (log entry 10). -/
def Obligations.AbortScramblesOnlyOutputs : Prop :=
  ∀ (s : State) (v : Word), HostWrites s 0x008#32 v → v.getLsbD 1 = true → s.status.busy = true →
    ∃ t, step s = .next t ∧ t.status = {} ∧
      (decode s.pending = none → t.dmem = s.dmem) ∧
      ∀ i, decode s.pending = some i →
        SameBytesOutside s t (tableRegions i s) ∧
        (¬Ready i s → t.dmem = s.dmem) ∧
        (Ready i s → ∀ r ∈ tableRegions i s, ∀ j < r.2,
          wordAt t.dmem (r.1 + j) = wordAt s.dmem (r.1 + j) ∨
          (∃ w, Config.abortWord s.draws (r.1 + j) = some w ∧ wordAt t.dmem (r.1 + j) = some w))

/-! ## The register block over the bus (10_state.md, 20_memory.md) -/

/-- R36: a write to STATUS clears DONE, ERR and OVR by ones, in any engine state, and changes nothing else of the core: the
error fields stay (R30). A read of STATUS, in any engine state, returns the fields where R27 places them, the error kind and
stage by their codes of R32 and R33, and 0 in the reserved bits; and it clears nothing (R67). -/
def Obligations.StatusReadsItsFieldsAndClearsByOnes : Prop :=
  (∀ (s : State) (v : Word), HostWrites s 0x010#32 v →
    step s = .next (afterAccess .accepted s.host.lastRead { s with
      status := { s.status with
        done := if v.getLsbD 1 then false else s.status.done
        err := if v.getLsbD 2 then false else s.status.err
        ovr := if v.getLsbD 3 then false else s.status.ovr } })) ∧
  (∀ s : State, HostReads s 0x010#32 → ∃ w : Word, step s = .next (afterAccess (.data w) w s) ∧
    w.getLsbD 0 = s.status.busy ∧ w.getLsbD 1 = s.status.done ∧ w.getLsbD 2 = s.status.err ∧
    w.getLsbD 3 = s.status.ovr ∧ w.extractLsb' 4 4 = 0 ∧
    (w.extractLsb' 8 4).toNat = (match s.status.errKind with
      | .none => 0 | .invalidParameter => 1 | .invalidInput => 2 | .numericalInstability => 3 | .illegalCommand => 4) ∧
    (w.extractLsb' 12 4).toNat = (match s.status.errStage with
      | .none => 0 | .decode => 1 | .spectrumAnalyzer => 2 | .firFilter => 3) ∧
    w.extractLsb' 16 8 = s.status.errParam ∧ w.extractLsb' 24 8 = s.status.lastOp ∧ w.extractLsb' 32 32 = 0)

/-- R26: a write to CTRL, in any engine state, performs a soft reset and ends with IRQ_EN = 0 where bit 1 is set, and sets
IRQ_EN to bit 0 otherwise. While busy, a write to any other register but STATUS changes at most OVR. A read of CTRL, in any
engine state, returns IRQ_EN in bit 0 and 0 in every other bit (R25). -/
def Obligations.CtrlReadsIrqEnAndTakesEffect : Prop :=
  (∀ (s : State) (v : Word), HostWrites s 0x008#32 v →
    (v.getLsbD 1 = false →
      step s = .next (afterAccess .accepted s.host.lastRead { s with irqEn := v.getLsbD 0 })) ∧
    (v.getLsbD 1 = true → ∃ t, step s = .next t ∧ t.irqEn = false ∧ t.status = {} ∧ t.regs = {} ∧ t.pending = 0)) ∧
  (∀ (s : State) (r : RegName) (v : Word), s.status.busy = true → r ≠ .ctrl → r ≠ .status →
    HostWrites s (BitVec.ofNat 32 (8 * regNum r)) v → ∃ ovr,
      step s = .next (afterAccess .accepted s.host.lastRead { s with status := { s.status with ovr := ovr } })) ∧
  (∀ s : State, HostReads s 0x008#32 → ∃ w : Word, step s = .next (afterAccess (.data w) w s) ∧
    w.getLsbD 0 = s.irqEn ∧ ∀ j, 1 ≤ j → w.getLsbD j = false)

/-- R43: a write of w to FFLAGS while idle sets it to w & 0x17, flag by flag, and nothing else; while busy it is dropped and
sets OVR. A read while idle returns NX in bit 0, UF in bit 1, OF in bit 2, NV in bit 4 and 0 in every other bit (R42). -/
def Obligations.FflagsReadsAndKeepsFourBits : Prop :=
  (∀ (s : State) (v : Word), HostWrites s 0x090#32 v →
    (s.status.busy = false → ∃ t, t = afterAccess .accepted s.host.lastRead { s with
        fflags := { nx := v.getLsbD 0, uf := v.getLsbD 1, of := v.getLsbD 2, nv := v.getLsbD 4 } } ∧
      step s = .next t ∧ readReg .fflags t = v &&& 0x17#64) ∧
    (s.status.busy = true →
      step s = .next (afterAccess .accepted s.host.lastRead { s with status := { s.status with ovr := true } }))) ∧
  (∀ s : State, s.status.busy = false → HostReads s 0x090#32 → ∃ w : Word,
    step s = .next (afterAccess (.data w) w s) ∧
    w.getLsbD 0 = s.fflags.nx ∧ w.getLsbD 1 = s.fflags.uf ∧ w.getLsbD 2 = s.fflags.of ∧ w.getLsbD 4 = s.fflags.nv ∧
    ∀ j, j = 3 ∨ 5 ≤ j → w.getLsbD j = false)

/-- R38 to R40: registers 4 to 16 take all 64 bits of a write while idle and read back as written; no other register, no
DMEM word and no hidden state changes. -/
def Obligations.OperandRegistersReadBack : Prop :=
  ∀ (s : State) (r : RegName) (v : Word), 4 ≤ regNum r → regNum r ≤ 16 → s.status.busy = false →
    HostWrites s (BitVec.ofNat 32 (8 * regNum r)) v →
    ∃ t, step s = .next t ∧ readReg r t = v ∧ (∀ q, q ≠ r → readReg q t = readReg q s) ∧
      t.dmem = s.dmem ∧ t.pending = s.pending ∧ t.params = s.params

/-- R70: while busy, a write to CMD, to registers 4 to 16, to FFLAGS or to a DMEM word is dropped, with OVR set and nothing
else of the core changed. -/
def Obligations.BusyWritesAreDropped : Prop :=
  ∀ (s : State) (offset : Offset) (v : Word), s.status.busy = true → HostWrites s offset v →
    Droppable s.params.dmemWords offset →
    step s = .next (afterAccess .accepted s.host.lastRead { s with status := { s.status with ovr := true } })

/-- R45, R46: in any engine state, a write to ID, RESULT, ERR_INFO or a reserved register number succeeds and changes nothing
of the core, OVR included; a reserved register reads 0. -/
def Obligations.ReservedAndReadOnlyRegisters : Prop :=
  ∀ (s : State) (n : Nat), n ≤ 511 →
    (n = 0 ∨ n = 17 ∨ n = 19 ∨ 20 ≤ n → ∀ v, HostWrites s (BitVec.ofNat 32 (8 * n)) v →
      step s = .next (afterAccess .accepted s.host.lastRead s)) ∧
    (20 ≤ n → HostReads s (BitVec.ofNat 32 (8 * n)) → step s = .next (afterAccess (.data 0) 0 s))

/-- R209: an access that is not 64 bits wide, not aligned to 8, or unmapped ends with a bus error: it changes no state of the
core, and so neither ERR, OVR nor IRQ; a read returns 0. Every other access succeeds. -/
def Obligations.BusErrorsChangeNothing : Prop :=
  ∀ (s : State) (a : BusAccess), HostMakes s a →
    let o := a.offset.toNat
    let bad : Prop := a.width ≠ 64 ∨ o % 8 ≠ 0 ∨ (0x1000 ≤ o ∧ o < 0x10000) ∨ 0x10000 + 8 * s.params.dmemWords ≤ o
    (bad → ∃ t, step s = .next t ∧
      t = afterAccess .busError (if a.op = .read then 0 else s.host.lastRead) s ∧ irq t = irq s) ∧
    (¬bad → ∃ t, step s = .next t ∧ t.resp ≠ .busError)

/-- R65, R73, R64: while idle, a write to a DMEM word changes that word alone, its bytes in little-endian order; a read
returns the word last written, and changes nothing; an unwritten word reads as a draw (log entry 4). -/
def Obligations.DmemHoldsWhatIsWritten : Prop :=
  ∀ (s : State) (i : Nat), s.params.wf → i < s.params.dmemWords → s.status.busy = false →
    (∀ v, HostWrites s (BitVec.ofNat 32 (0x10000 + 8 * i)) v → ∃ t, step s = .next t ∧
      wordAt t.dmem i = some v ∧ (∀ k, k ≠ i → wordAt t.dmem k = wordAt s.dmem k) ∧
      (∀ j < 8, byteAt t.dmem (0x10000 + 8 * i + j) = some (v.extractLsb' (8 * j) 8)) ∧
      SameBytesOutside s t [(i, 1)] ∧
      t = afterAccess .accepted s.host.lastRead { s with dmem := t.dmem }) ∧
    (HostReads s (BitVec.ofNat 32 (0x10000 + 8 * i)) →
      (∀ w, wordAt s.dmem i = some w → step s = .next (afterAccess (.data w) w s)) ∧
      (wordAt s.dmem i = none →
        step s = .next (afterAccess (.data (Config.freeWord s.draws .bus)) (Config.freeWord s.draws .bus) s)))

/-- R63, R67, R71: a host read of a register returns the whole register and changes nothing of the core, in any engine state,
RESULT and FFLAGS while idle included: ID reads P_ID (R24), CMD reads 0 (R37), RESULT, ERR_INFO and registers 4 to 16 their
64 bits. (The bits of CTRL, STATUS and FFLAGS are stated with their writes.) While busy, what any read returns does not
depend on DMEM, RESULT or FFLAGS. That it is then the same in both states is the model's choice: the arbitrary pattern of
R71 is a fixed open function of the draw counter, which does not look at the state (log entry 2). -/
def Obligations.HostReadsReturnCurrentValues : Prop :=
  (∀ (s : State) (a : BusAccess), s.status.busy = true → HostMakes s a → a.op = .read →
    ∀ (d : Memory) (r : Word) (f : Flags) (t t' : State), step s = .next t →
      step { s with dmem := d, result := r, fflags := f } = .next t' → t'.resp = t.resp ∧ t'.host = t.host) ∧
  (∀ (s : State) (r : RegName), s.status.busy = false ∨ (r ≠ .result ∧ r ≠ .fflags) →
    HostReads s (BitVec.ofNat 32 (8 * regNum r)) → ∃ w : Word,
      step s = .next (afterAccess (.data w) w s) ∧ w = readReg r s ∧
      (r = .id → w = s.params.id) ∧ (r = .cmd → w = 0) ∧
      (r = .xBase → w = s.regs.xBase) ∧ (r = .nlen → w = s.regs.nlen) ∧
      (r = .tBase → w = s.regs.tBase) ∧ (r = .tlen → w = s.regs.tlen) ∧ (r = .yBase → w = s.regs.yBase) ∧
      (r = .reBase → w = s.regs.reBase) ∧ (r = .imBase → w = s.regs.imBase) ∧
      (r = .fBase → w = s.regs.fBase) ∧ (r = .mBase → w = s.regs.mBase) ∧ (r = .fs → w = s.regs.fs) ∧
      (r = .opa → w = s.regs.opa) ∧ (r = .opb → w = s.regs.opb) ∧ (r = .opc → w = s.regs.opc) ∧
      (r = .result → w = s.result) ∧ (r = .errInfo → w = s.errInfo))

/-! ## IRQ (60_exceptions.md R214, R215) -/

/-- R214: IRQ is IRQ_EN and (DONE or ERR), at every moment; it asserts when a command completes with IRQ_EN = 1, and when
IRQ_EN is set while DONE or ERR is already 1. -/
def Obligations.IrqAsserts : Prop :=
  ∀ s : State,
    (irq s = true ↔ s.irqEn = true ∧ (s.status.done = true ∨ s.status.err = true)) ∧
    (EnginePerforms s → s.irqEn = true → ∃ t, step s = .next t ∧ t.status.busy = false ∧ irq t = true) ∧
    (∀ v, HostWrites s 0x008#32 v → v.getLsbD 0 = true → v.getLsbD 1 = false →
      s.status.done = true ∨ s.status.err = true → ∃ t, step s = .next t ∧ irq t = true)

/-- R215: over every step, IRQ falls only by a STATUS write with bit 1 or 2 set, a CTRL write that clears IRQ_EN or resets, a
command acceptance, or RST. -/
def Obligations.IrqFallsOnlyBy : Prop :=
  ∀ s t : State, step s = .next t → irq s = true → irq t = false →
    (∃ v, HostWrites s 0x010#32 v ∧ (v.getLsbD 1 = true ∨ v.getLsbD 2 = true)) ∨
    (∃ v, HostWrites s 0x008#32 v ∧ (v.getLsbD 0 = false ∨ v.getLsbD 1 = true)) ∨
    (∃ v, HostWrites s 0x018#32 v ∧ s.status.busy = false) ∨ whoMoves s = .rst

/-! ## The whole machine, over every step -/

/-- Every step keeps the invariant: the parameters in range (R7), DMEM's listing canonical and inside the window (R60), DONE
and ERR never both 1 (R29), BUSY = 1 with neither and with LAST_OP from PENDING, and the error fields consistent (R32 to
R34, R44, R205). -/
def Obligations.StepKeepsInvariant : Prop := ∀ s t : State, State.Inv s → step s = .next t → State.Inv t

/-- The reset state meets the invariant. -/
def Obligations.ResetMeetsInvariant : Prop := State.Inv State.reset

/-- R28: BUSY rises only by the acceptance of a CMD write, and falls only by a completion or a reset. While it is 1, PENDING
is the word accepted. -/
def Obligations.BusyChangesOnlyBy : Prop :=
  ∀ s t : State, step s = .next t →
    (s.status.busy = false → t.status.busy = true → ∃ w, HostWrites s 0x018#32 w ∧ t.pending = w) ∧
    (s.status.busy = true → t.status.busy = false →
      (whoMoves s = .engine ∧ (t.status.done = true ∨ t.status.err = true)) ∨ Resets s) ∧
    (s.status.busy = true → t.status.busy = true → t.pending = s.pending)

/-- R41: RESULT changes only by FADD, FSUB, FMUL or FMA, or by a reset, which clears it. -/
def Obligations.ResultChangesOnlyBy : Prop :=
  ∀ s t : State, step s = .next t →
    (t.result ≠ s.result →
      (EnginePerforms s ∧ ∃ i, decode s.pending = some i ∧ (i = .fadd ∨ i = .fsub ∨ i = .fmul ∨ i = .fma)) ∨
      Resets s) ∧
    (Resets s → t.result = 0)

/-- R31: OVR rises only when a host write is dropped while busy, and falls only by a STATUS write with bit 3 set or by a
reset; acceptance does not clear it. -/
def Obligations.OvrChangesOnlyBy : Prop :=
  ∀ s t : State, step s = .next t →
    (s.status.ovr = false → t.status.ovr = true →
      s.status.busy = true ∧ ∃ offset v, HostWrites s offset v ∧ Droppable s.params.dmemWords offset) ∧
    (s.status.ovr = true → t.status.ovr = false →
      (∃ v, HostWrites s 0x010#32 v ∧ v.getLsbD 3 = true) ∨ Resets s) ∧
    (∀ w, HostWrites s 0x018#32 w → s.status.ovr = true → t.status.ovr = true)

/-- R245: FFLAGS is sticky: over every step, a flag falls only by a host write to FFLAGS while idle, or by a reset. -/
def Obligations.FlagsAreSticky : Prop :=
  ∀ (s t : State), step s = .next t → ∀ f ∈ [Flags.nx, Flags.uf, Flags.of, Flags.nv],
    f s.fflags = true → f t.fflags = false → (s.status.busy = false ∧ ∃ v, HostWrites s 0x090#32 v) ∨ Resets s

/-- R35: LAST_OP is written only by acceptance, with bits 7:0 of the word, legal or not, and by reset, which clears it. -/
def Obligations.LastOpChangesOnlyBy : Prop :=
  ∀ s t : State, step s = .next t →
    (t.status.lastOp ≠ s.status.lastOp → (s.status.busy = false ∧ ∃ w, HostWrites s 0x018#32 w) ∨ Resets s) ∧
    (∀ w, s.status.busy = false → HostWrites s 0x018#32 w → t.status.lastOp = w.extractLsb' 0 8) ∧
    (Resets s → t.status.lastOp = 0)

/-- R70 over runs: from a state with a command pending, as long as every step leaves it pending, however many steps and
whatever the host does, PENDING, registers 4 to 16, DMEM, RESULT and FFLAGS are those held at the start: the command will
compute from the values of its acceptance. -/
def Obligations.InputsFrozenWhileBusy : Prop :=
  ∀ (k : Nat) (s t : State), s.status.busy = true → Host.Core.run core k s = .next t →
    (∀ j ≤ k, ∀ u : State, Host.Core.run core j s = .next u → u.status.busy = true) →
    t.pending = s.pending ∧ t.regs = s.regs ∧ t.dmem = s.dmem ∧ t.result = s.result ∧ t.fflags = s.fflags ∧
      t.params = s.params

/-- R225: a pending command ends, by completion or reset, within one step more than the turns scheduled. (That the engine
moves once the schedule is empty is the model's form of weak fairness, log entry 8.) -/
def Obligations.PendingCommandEnds : Prop :=
  ∀ s : State, s.status.busy = true →
    ∃ k t, k ≤ s.sched.length + 1 ∧ Host.Core.run core k s = .next t ∧ t.status.busy = false

end
end

