-- ==== Sys2Proof/Laws/Memory.lean ====
section
/-! SUPPORT. What every memory operation does: one read-after-write law per access size, and the canonical form kept. -/

namespace Sys2Proof.Machine

/-! ## Bytes -/

@[simp] theorem byteAt_nil (k : Nat) : byteAt [] k = none := rfl

theorem byteAt_cons (a : Nat) (x : Byte) (m : Memory) (k : Nat) :
    byteAt ((a, x) :: m) k = if a = k then some x else byteAt m k := rfl

/-- A set byte reads back, and every other byte reads as before, whatever the listing. -/
theorem byteAt_setByte (m : Memory) (k j : Nat) (v : Byte) :
    byteAt (setByte m k v) j = if j = k then some v else byteAt m j := by
  induction m with
  | nil => simp [setByte, byteAt_cons, eq_comm]
  | cons c m ih =>
    obtain ⟨a, x⟩ := c
    simp only [setByte]
    split_ifs <;> simp_all [byteAt_cons] <;> grind

@[simp] theorem byteAt_setByte_same (m : Memory) (k : Nat) (v : Byte) : byteAt (setByte m k v) k = some v := by
  simp [byteAt_setByte]

theorem byteAt_setByte_ne (m : Memory) {k j : Nat} (v : Byte) (h : j ≠ k) :
    byteAt (setByte m k v) j = byteAt m j := by simp [byteAt_setByte, h]

/-- The offsets listed after a byte is set. -/
theorem mem_setByte {m : Memory} {k : Nat} {v : Byte} {c : Host.Cell} (h : c ∈ setByte m k v) :
    c = (k, v) ∨ c ∈ m := by
  induction m with
  | nil => simpa [setByte] using h
  | cons d m ih =>
    obtain ⟨a, x⟩ := d
    simp only [setByte] at h
    split_ifs at h <;> simp_all <;> tauto

theorem sorted_setByte {m : Memory} (h : Memory.sorted m) (k : Nat) (v : Byte) : Memory.sorted (setByte m k v) := by
  induction m with
  | nil => simp [setByte, Memory.sorted]
  | cons c m ih =>
    obtain ⟨a, x⟩ := c
    simp only [Memory.sorted, List.pairwise_cons] at h
    simp only [setByte]
    split_ifs with h1 h2
    · simp only [Memory.sorted, List.pairwise_cons, List.mem_cons, forall_eq_or_imp]
      exact ⟨⟨h1, fun c hc => h1.trans (h.1 c hc)⟩, h⟩
    · subst h2
      simpa only [Memory.sorted, List.pairwise_cons] using h
    · simp only [Memory.sorted, List.pairwise_cons]
      refine ⟨fun c hc => ?_, ih h.2⟩
      rcases mem_setByte hc with rfl | hc
      · simp only; omega
      · exact h.1 c hc

/-- In a listing in canonical form, reading an offset finds exactly the cell listed for it. -/
theorem byteAt_eq_some_iff {m : Memory} (h : Memory.sorted m) (k : Nat) (v : Byte) :
    byteAt m k = some v ↔ (k, v) ∈ m := by
  induction m with
  | nil => simp
  | cons c m ih =>
    obtain ⟨a, x⟩ := c
    simp only [Memory.sorted, List.pairwise_cons] at h
    rw [byteAt_cons, List.mem_cons]
    split_ifs with hk
    · subst hk
      constructor
      · rintro ⟨⟩; exact .inl rfl
      · rintro (h' | h')
        · simpa [eq_comm] using h'
        · exact absurd (h.1 _ h') (lt_irrefl _)
    · rw [ih h.2]
      constructor
      · exact .inr
      · rintro (h' | h')
        · exact absurd (congrArg Prod.fst h').symm hk
        · exact h'

/-- Memories in canonical form that read alike are equal. -/
theorem memory_ext {m m' : Memory} (h : Memory.sorted m) (h' : Memory.sorted m')
    (he : ∀ k, byteAt m k = byteAt m' k) : m = m' := by
  have hmem : ∀ c, c ∈ m ↔ c ∈ m' := fun c => by
    rw [← byteAt_eq_some_iff h c.1 c.2, ← byteAt_eq_some_iff h' c.1 c.2, he]
  have hp : m.Perm m' := by
    rw [List.perm_ext_iff_of_nodup]
    · exact hmem
    · exact h.imp fun hlt => by rintro rfl; exact lt_irrefl _ hlt
    · exact h'.imp fun hlt => by rintro rfl; exact lt_irrefl _ hlt
  exact hp.eq_of_pairwise (fun a b _ _ hab hba => absurd hab (lt_asymm hba)) h h'

/-! ## Words -/

/-- The lane of a word that holds the byte at offset `k`, if the word is `i` (R65). -/
theorem byteAt_writeWord (m : Memory) (i k : Nat) (v : Word) :
    byteAt (writeWord m i v) k =
      if wordOffset i ≤ k ∧ k < wordOffset i + 8 then some (v.extractLsb' (8 * (k - wordOffset i)) 8)
      else byteAt m k := by
  simp only [writeWord, byteAt_setByte]
  split_ifs <;> first | omega | simp_all

/-- A written word reads back (R65, R73). -/
@[simp] theorem wordAt_writeWord_same (m : Memory) (i : Nat) (v : Word) : wordAt (writeWord m i v) i = some v := by
  have hb : ∀ j, j < 8 → byteAt (writeWord m i v) (wordOffset i + j) = some (v.extractLsb' (8 * j) 8) := by
    intro j hj
    rw [byteAt_writeWord, if_pos ⟨by omega, by omega⟩]
    simp
  have h0 := hb 0 (by omega)
  simp only [Nat.add_zero] at h0
  simp only [wordAt, h0, hb 1 (by omega), hb 2 (by omega), hb 3 (by omega), hb 4 (by omega), hb 5 (by omega),
    hb 6 (by omega), hb 7 (by omega), Option.some.injEq]
  ext j hj
  simp only [BitVec.getElem_append, BitVec.getElem_extractLsb']
  split_ifs <;> (rw [← BitVec.getLsbD_eq_getElem]; congr 1; omega)

theorem wordAt_congr {m m' : Memory} {i : Nat}
    (h : ∀ j, j < 8 → byteAt m (wordOffset i + j) = byteAt m' (wordOffset i + j)) : wordAt m i = wordAt m' i := by
  have h0 := h 0 (by omega)
  simp only [Nat.add_zero] at h0
  simp only [wordAt, h0, h 1 (by omega), h 2 (by omega), h 3 (by omega), h 4 (by omega), h 5 (by omega),
    h 6 (by omega), h 7 (by omega)]

/-- A write leaves every other word alone. -/
theorem wordAt_writeWord_ne (m : Memory) {i k : Nat} (v : Word) (h : k ≠ i) :
    wordAt (writeWord m i v) k = wordAt m k := by
  apply wordAt_congr
  intro j hj
  rw [byteAt_writeWord, if_neg]
  simp only [wordOffset]
  omega

theorem wordAt_writeWord (m : Memory) (i k : Nat) (v : Word) :
    wordAt (writeWord m i v) k = if k = i then some v else wordAt m k := by
  split_ifs with h
  · subst h; simp
  · exact wordAt_writeWord_ne m v h

/-- A word reads as written exactly when its eight bytes are all listed. -/
theorem wordAt_isSome_iff (m : Memory) (i : Nat) :
    (wordAt m i).isSome = true ↔ ∀ j, j < 8 → (byteAt m (wordOffset i + j)).isSome = true := by
  constructor
  · intro h j hj
    unfold wordAt at h
    split at h
    · interval_cases j <;> simp_all
    · simp at h
  · intro h
    have hs : ∀ j, j < 8 → ∃ b, byteAt m (wordOffset i + j) = some b := fun j hj => Option.isSome_iff_exists.mp (h j hj)
    obtain ⟨b0, h0⟩ := hs 0 (by omega)
    obtain ⟨b1, h1⟩ := hs 1 (by omega)
    obtain ⟨b2, h2⟩ := hs 2 (by omega)
    obtain ⟨b3, h3⟩ := hs 3 (by omega)
    obtain ⟨b4, h4⟩ := hs 4 (by omega)
    obtain ⟨b5, h5⟩ := hs 5 (by omega)
    obtain ⟨b6, h6⟩ := hs 6 (by omega)
    obtain ⟨b7, h7⟩ := hs 7 (by omega)
    simp only [Nat.add_zero] at h0
    simp [wordAt, h0, h1, h2, h3, h4, h5, h6, h7]

theorem sorted_writeWord {m : Memory} (h : Memory.sorted m) (i : Nat) (v : Word) : Memory.sorted (writeWord m i v) := by
  simp only [writeWord]
  exact sorted_setByte (sorted_setByte (sorted_setByte (sorted_setByte (sorted_setByte (sorted_setByte (sorted_setByte
    (sorted_setByte h _ _) _ _) _ _) _ _) _ _) _ _) _ _) _ _

/-- A word write inside DMEM keeps the canonical form. -/
theorem wf_writeWord {words : Nat} {m : Memory} (h : Memory.wf words m) {i : Nat} (hi : i < words) (v : Word) :
    Memory.wf words (writeWord m i v) := by
  obtain ⟨hs, hr, hw⟩ := h
  have hs' := sorted_writeWord hs i v
  have hcell : ∀ c ∈ writeWord m i v, (wordOffset i ≤ c.1 ∧ c.1 < wordOffset i + 8) ∨ c ∈ m := by
    intro c hc
    have := (byteAt_eq_some_iff hs' c.1 c.2).mpr hc
    rw [byteAt_writeWord] at this
    split_ifs at this with hin
    · exact .inl hin
    · exact .inr ((byteAt_eq_some_iff hs c.1 c.2).mp this)
  refine ⟨hs', fun c hc => ?_, fun c hc => ?_⟩
  · rcases hcell c hc with h | h
    · simp only [wordOffset] at h; omega
    · exact hr c h
  · rw [wordAt_writeWord]
    split_ifs with he
    · rfl
    · rcases hcell c hc with h | h
      · exfalso; apply he; simp only [wordOffset] at h; omega
      · exact hw c h

/-! ## Buffers -/

/-- Reading a word after a buffer write: the buffer's element inside, the old word outside. -/
theorem wordAt_writeBuffer (m : Memory) (b : Nat) (f : Nat → Word) (n k : Nat) :
    wordAt (writeBuffer m b f n) k = if b ≤ k ∧ k < b + n then some (f (k - b)) else wordAt m k := by
  induction n with
  | zero => rw [if_neg (by omega)]; rfl
  | succ n ih =>
    simp only [writeBuffer, wordAt_writeWord, ih]
    split_ifs with h1 h2 h3 h4 h5 <;> first | omega | rfl | skip
    all_goals (subst h1; simp)

theorem wordAt_writeBuffer_inside (m : Memory) (b : Nat) (f : Nat → Word) {n j : Nat} (h : j < n) :
    wordAt (writeBuffer m b f n) (b + j) = some (f j) := by
  rw [wordAt_writeBuffer, if_pos ⟨by omega, by omega⟩]; simp

theorem wordAt_writeBuffer_outside (m : Memory) (b : Nat) (f : Nat → Word) {n k : Nat} (h : k < b ∨ b + n ≤ k) :
    wordAt (writeBuffer m b f n) k = wordAt m k := by
  rw [wordAt_writeBuffer, if_neg (by omega)]

/-- A buffer write leaves every byte outside its words as it was. -/
theorem byteAt_writeBuffer_outside (m : Memory) (b : Nat) (f : Nat → Word) {n a : Nat}
    (h : a < wordOffset b ∨ wordOffset (b + n) ≤ a) : byteAt (writeBuffer m b f n) a = byteAt m a := by
  induction n with
  | zero => rfl
  | succ n ih =>
    simp only [wordOffset] at h ih
    simp only [writeBuffer]
    rw [byteAt_writeWord, if_neg (by simp only [wordOffset]; omega)]
    exact ih (by omega)

theorem wf_writeBuffer {words : Nat} {m : Memory} (h : Memory.wf words m) {b n : Nat} (hb : b + n ≤ words)
    (f : Nat → Word) : Memory.wf words (writeBuffer m b f n) := by
  induction n with
  | zero => exact h
  | succ n ih => exact wf_writeWord (ih (by omega)) (by omega) _

theorem wf_nil (words : Nat) : Memory.wf words [] := by simp [Memory.wf, Memory.sorted]

/-! ## Aborted regions (R233) -/

/-- A word outside an aborted region is unchanged. -/
theorem byteAt_scrambleRegion_outside (draw : Nat) (m : Memory) (b : Nat) {n a : Nat}
    (h : a < wordOffset b ∨ wordOffset (b + n) ≤ a) : byteAt (scrambleRegion draw m b n) a = byteAt m a := by
  induction n with
  | zero => rfl
  | succ n ih =>
    simp only [wordOffset] at h ih
    simp only [scrambleRegion]
    split
    · exact ih (by omega)
    · rw [byteAt_writeWord, if_neg (by simp only [wordOffset]; omega)]
      exact ih (by omega)

/-- A word of an aborted region keeps its old value or holds the draw. -/
theorem wordAt_scrambleRegion (draw : Nat) (m : Memory) (b n k : Nat) :
    wordAt (scrambleRegion draw m b n) k =
      if b ≤ k ∧ k < b + n then (Config.abortWord draw k).or (wordAt m k) else wordAt m k := by
  induction n with
  | zero => rw [if_neg (by omega)]; rfl
  | succ n ih =>
    simp only [scrambleRegion]
    split
    · rename_i hd
      rw [ih]
      by_cases hk : k = b + n
      · subst hk; simp [hd]
      · split_ifs <;> first | rfl | omega
    · rename_i v hd
      rw [wordAt_writeWord, ih]
      by_cases hk : k = b + n
      · subst hk; simp [hd]
      · rw [if_neg hk]; split_ifs <;> first | rfl | omega

theorem wf_scrambleRegion {words : Nat} (draw : Nat) {m : Memory} (h : Memory.wf words m) {b n : Nat}
    (hb : b + n ≤ words) : Memory.wf words (scrambleRegion draw m b n) := by
  induction n with
  | zero => exact h
  | succ n ih =>
    simp only [scrambleRegion]
    split
    · exact ih (by omega)
    · exact wf_writeWord (ih (by omega)) (by omega) _

theorem wf_scrambleRegions {words : Nat} (draw : Nat) {m : Memory} (h : Memory.wf words m)
    {rs : List (Nat × Nat)} (hr : ∀ r ∈ rs, r.1 + r.2 ≤ words) :
    Memory.wf words (scrambleRegions draw m rs) := by
  unfold scrambleRegions
  induction rs generalizing m with
  | nil => exact h
  | cons r rs ih =>
    exact ih (wf_scrambleRegion draw h (hr r (by simp))) fun q hq => hr q (by simp [hq])

end Sys2Proof.Machine
end

