-- ==== Sys2Proof/Laws/State.lean ====
section
/-! SUPPORT. What each shared state update does to each field of State, true by rfl, so that no proof unfolds a record update. -/

namespace Sys2Proof.Machine

/-! ## complete -/

@[simp] theorem complete_params (s : State) : (complete s).params = s.params := rfl
@[simp] theorem complete_irqEn (s : State) : (complete s).irqEn = s.irqEn := rfl
@[simp] theorem complete_status (s : State) : (complete s).status = { s.status with busy := false, done := true } := rfl
@[simp] theorem complete_regs (s : State) : (complete s).regs = s.regs := rfl
@[simp] theorem complete_result (s : State) : (complete s).result = s.result := rfl
@[simp] theorem complete_fflags (s : State) : (complete s).fflags = s.fflags := rfl
@[simp] theorem complete_errInfo (s : State) : (complete s).errInfo = s.errInfo := rfl
@[simp] theorem complete_pending (s : State) : (complete s).pending = s.pending := rfl
@[simp] theorem complete_dmem (s : State) : (complete s).dmem = s.dmem := rfl
@[simp] theorem complete_draws (s : State) : (complete s).draws = s.draws := rfl
@[simp] theorem complete_resp (s : State) : (complete s).resp = s.resp := rfl
@[simp] theorem complete_host (s : State) : (complete s).host = s.host := rfl
@[simp] theorem complete_sched (s : State) : (complete s).sched = s.sched := rfl

/-! ## raiseError -/

@[simp] theorem raiseError_params (e : CmdError) (s : State) : (raiseError e s).params = s.params := rfl
@[simp] theorem raiseError_irqEn (e : CmdError) (s : State) : (raiseError e s).irqEn = s.irqEn := rfl
@[simp] theorem raiseError_status (e : CmdError) (s : State) : (raiseError e s).status = { s.status with
      busy := false, err := true, errKind := e.kind, errStage := e.stage,
      errParam := BitVec.ofNat 8 (regNum e.param) } := rfl
@[simp] theorem raiseError_regs (e : CmdError) (s : State) : (raiseError e s).regs = s.regs := rfl
@[simp] theorem raiseError_result (e : CmdError) (s : State) : (raiseError e s).result = s.result := rfl
@[simp] theorem raiseError_fflags (e : CmdError) (s : State) : (raiseError e s).fflags = s.fflags := rfl
@[simp] theorem raiseError_errInfo (e : CmdError) (s : State) : (raiseError e s).errInfo = e.info := rfl
@[simp] theorem raiseError_pending (e : CmdError) (s : State) : (raiseError e s).pending = s.pending := rfl
@[simp] theorem raiseError_dmem (e : CmdError) (s : State) : (raiseError e s).dmem = s.dmem := rfl
@[simp] theorem raiseError_draws (e : CmdError) (s : State) : (raiseError e s).draws = s.draws := rfl
@[simp] theorem raiseError_resp (e : CmdError) (s : State) : (raiseError e s).resp = s.resp := rfl
@[simp] theorem raiseError_host (e : CmdError) (s : State) : (raiseError e s).host = s.host := rfl
@[simp] theorem raiseError_sched (e : CmdError) (s : State) : (raiseError e s).sched = s.sched := rfl

/-! ## acceptCommand -/

@[simp] theorem acceptCommand_params (w : Word) (s : State) : (acceptCommand w s).params = s.params := rfl
@[simp] theorem acceptCommand_irqEn (w : Word) (s : State) : (acceptCommand w s).irqEn = s.irqEn := rfl
@[simp] theorem acceptCommand_status (w : Word) (s : State) : (acceptCommand w s).status = { s.status with
      busy := true, done := false, err := false, errKind := .none, errStage := .none, errParam := 0,
      lastOp := opField w } := rfl
@[simp] theorem acceptCommand_regs (w : Word) (s : State) : (acceptCommand w s).regs = s.regs := rfl
@[simp] theorem acceptCommand_result (w : Word) (s : State) : (acceptCommand w s).result = s.result := rfl
@[simp] theorem acceptCommand_fflags (w : Word) (s : State) : (acceptCommand w s).fflags = s.fflags := rfl
@[simp] theorem acceptCommand_errInfo (w : Word) (s : State) : (acceptCommand w s).errInfo = 0 := rfl
@[simp] theorem acceptCommand_pending (w : Word) (s : State) : (acceptCommand w s).pending = w := rfl
@[simp] theorem acceptCommand_dmem (w : Word) (s : State) : (acceptCommand w s).dmem = s.dmem := rfl
@[simp] theorem acceptCommand_draws (w : Word) (s : State) : (acceptCommand w s).draws = s.draws := rfl
@[simp] theorem acceptCommand_resp (w : Word) (s : State) : (acceptCommand w s).resp = s.resp := rfl
@[simp] theorem acceptCommand_host (w : Word) (s : State) : (acceptCommand w s).host = s.host := rfl
@[simp] theorem acceptCommand_sched (w : Word) (s : State) : (acceptCommand w s).sched = s.sched := rfl

/-! ## setOvr -/

@[simp] theorem setOvr_params (s : State) : (setOvr s).params = s.params := rfl
@[simp] theorem setOvr_irqEn (s : State) : (setOvr s).irqEn = s.irqEn := rfl
@[simp] theorem setOvr_status (s : State) : (setOvr s).status = { s.status with ovr := true } := rfl
@[simp] theorem setOvr_regs (s : State) : (setOvr s).regs = s.regs := rfl
@[simp] theorem setOvr_result (s : State) : (setOvr s).result = s.result := rfl
@[simp] theorem setOvr_fflags (s : State) : (setOvr s).fflags = s.fflags := rfl
@[simp] theorem setOvr_errInfo (s : State) : (setOvr s).errInfo = s.errInfo := rfl
@[simp] theorem setOvr_pending (s : State) : (setOvr s).pending = s.pending := rfl
@[simp] theorem setOvr_dmem (s : State) : (setOvr s).dmem = s.dmem := rfl
@[simp] theorem setOvr_draws (s : State) : (setOvr s).draws = s.draws := rfl
@[simp] theorem setOvr_resp (s : State) : (setOvr s).resp = s.resp := rfl
@[simp] theorem setOvr_host (s : State) : (setOvr s).host = s.host := rfl
@[simp] theorem setOvr_sched (s : State) : (setOvr s).sched = s.sched := rfl

/-! ## writeStatus -/

@[simp] theorem writeStatus_params (w : Word) (s : State) : (writeStatus w s).params = s.params := rfl
@[simp] theorem writeStatus_irqEn (w : Word) (s : State) : (writeStatus w s).irqEn = s.irqEn := rfl
@[simp] theorem writeStatus_status (w : Word) (s : State) : (writeStatus w s).status = { s.status with
      done := s.status.done && !w.getLsbD 1, err := s.status.err && !w.getLsbD 2,
      ovr := s.status.ovr && !w.getLsbD 3 } := rfl
@[simp] theorem writeStatus_regs (w : Word) (s : State) : (writeStatus w s).regs = s.regs := rfl
@[simp] theorem writeStatus_result (w : Word) (s : State) : (writeStatus w s).result = s.result := rfl
@[simp] theorem writeStatus_fflags (w : Word) (s : State) : (writeStatus w s).fflags = s.fflags := rfl
@[simp] theorem writeStatus_errInfo (w : Word) (s : State) : (writeStatus w s).errInfo = s.errInfo := rfl
@[simp] theorem writeStatus_pending (w : Word) (s : State) : (writeStatus w s).pending = s.pending := rfl
@[simp] theorem writeStatus_dmem (w : Word) (s : State) : (writeStatus w s).dmem = s.dmem := rfl
@[simp] theorem writeStatus_draws (w : Word) (s : State) : (writeStatus w s).draws = s.draws := rfl
@[simp] theorem writeStatus_resp (w : Word) (s : State) : (writeStatus w s).resp = s.resp := rfl
@[simp] theorem writeStatus_host (w : Word) (s : State) : (writeStatus w s).host = s.host := rfl
@[simp] theorem writeStatus_sched (w : Word) (s : State) : (writeStatus w s).sched = s.sched := rfl

/-! ## resetRegisters -/

@[simp] theorem resetRegisters_params (s : State) : (resetRegisters s).params = s.params := rfl
@[simp] theorem resetRegisters_irqEn (s : State) : (resetRegisters s).irqEn = false := rfl
@[simp] theorem resetRegisters_status (s : State) : (resetRegisters s).status = {} := rfl
@[simp] theorem resetRegisters_regs (s : State) : (resetRegisters s).regs = {} := rfl
@[simp] theorem resetRegisters_result (s : State) : (resetRegisters s).result = 0 := rfl
@[simp] theorem resetRegisters_fflags (s : State) : (resetRegisters s).fflags = {} := rfl
@[simp] theorem resetRegisters_errInfo (s : State) : (resetRegisters s).errInfo = 0 := rfl
@[simp] theorem resetRegisters_pending (s : State) : (resetRegisters s).pending = 0 := rfl
@[simp] theorem resetRegisters_dmem (s : State) : (resetRegisters s).dmem = s.dmem := rfl
@[simp] theorem resetRegisters_draws (s : State) : (resetRegisters s).draws = s.draws := rfl
@[simp] theorem resetRegisters_resp (s : State) : (resetRegisters s).resp = s.resp := rfl
@[simp] theorem resetRegisters_host (s : State) : (resetRegisters s).host = s.host := rfl
@[simp] theorem resetRegisters_sched (s : State) : (resetRegisters s).sched = s.sched := rfl

/-! ## hardReset -/

@[simp] theorem hardReset_params (s : State) : (hardReset s).params = s.params := rfl
@[simp] theorem hardReset_irqEn (s : State) : (hardReset s).irqEn = false := rfl
@[simp] theorem hardReset_status (s : State) : (hardReset s).status = {} := rfl
@[simp] theorem hardReset_regs (s : State) : (hardReset s).regs = {} := rfl
@[simp] theorem hardReset_result (s : State) : (hardReset s).result = 0 := rfl
@[simp] theorem hardReset_fflags (s : State) : (hardReset s).fflags = {} := rfl
@[simp] theorem hardReset_errInfo (s : State) : (hardReset s).errInfo = 0 := rfl
@[simp] theorem hardReset_pending (s : State) : (hardReset s).pending = 0 := rfl
@[simp] theorem hardReset_dmem (s : State) : (hardReset s).dmem = [] := rfl
@[simp] theorem hardReset_draws (s : State) : (hardReset s).draws = s.draws := rfl
@[simp] theorem hardReset_resp (s : State) : (hardReset s).resp = s.resp := rfl
@[simp] theorem hardReset_host (s : State) : (hardReset s).host = s.host := rfl
@[simp] theorem hardReset_sched (s : State) : (hardReset s).sched = s.sched := rfl

/-! ## softReset -/

@[simp] theorem softReset_params (s : State) : (softReset s).params = s.params := rfl
@[simp] theorem softReset_irqEn (s : State) : (softReset s).irqEn = false := rfl
@[simp] theorem softReset_status (s : State) : (softReset s).status = {} := rfl
@[simp] theorem softReset_regs (s : State) : (softReset s).regs = {} := rfl
@[simp] theorem softReset_result (s : State) : (softReset s).result = 0 := rfl
@[simp] theorem softReset_fflags (s : State) : (softReset s).fflags = {} := rfl
@[simp] theorem softReset_errInfo (s : State) : (softReset s).errInfo = 0 := rfl
@[simp] theorem softReset_pending (s : State) : (softReset s).pending = 0 := rfl
@[simp] theorem softReset_dmem (s : State) : (softReset s).dmem = if s.status.busy then abortMemory s else s.dmem := rfl
@[simp] theorem softReset_draws (s : State) : (softReset s).draws = s.draws := rfl
@[simp] theorem softReset_resp (s : State) : (softReset s).resp = s.resp := rfl
@[simp] theorem softReset_host (s : State) : (softReset s).host = s.host := rfl
@[simp] theorem softReset_sched (s : State) : (softReset s).sched = s.sched := rfl

/-! ## nextDraws -/

@[simp] theorem nextDraws_params (s : State) : (nextDraws s).params = s.params := rfl
@[simp] theorem nextDraws_irqEn (s : State) : (nextDraws s).irqEn = s.irqEn := rfl
@[simp] theorem nextDraws_status (s : State) : (nextDraws s).status = s.status := rfl
@[simp] theorem nextDraws_regs (s : State) : (nextDraws s).regs = s.regs := rfl
@[simp] theorem nextDraws_result (s : State) : (nextDraws s).result = s.result := rfl
@[simp] theorem nextDraws_fflags (s : State) : (nextDraws s).fflags = s.fflags := rfl
@[simp] theorem nextDraws_errInfo (s : State) : (nextDraws s).errInfo = s.errInfo := rfl
@[simp] theorem nextDraws_pending (s : State) : (nextDraws s).pending = s.pending := rfl
@[simp] theorem nextDraws_dmem (s : State) : (nextDraws s).dmem = s.dmem := rfl
@[simp] theorem nextDraws_draws (s : State) : (nextDraws s).draws = s.draws + 1 := rfl
@[simp] theorem nextDraws_resp (s : State) : (nextDraws s).resp = s.resp := rfl
@[simp] theorem nextDraws_host (s : State) : (nextDraws s).host = s.host := rfl
@[simp] theorem nextDraws_sched (s : State) : (nextDraws s).sched = s.sched := rfl

/-! ## takeTurn -/

@[simp] theorem takeTurn_params (s : State) : (takeTurn s).params = s.params := rfl
@[simp] theorem takeTurn_irqEn (s : State) : (takeTurn s).irqEn = s.irqEn := rfl
@[simp] theorem takeTurn_status (s : State) : (takeTurn s).status = s.status := rfl
@[simp] theorem takeTurn_regs (s : State) : (takeTurn s).regs = s.regs := rfl
@[simp] theorem takeTurn_result (s : State) : (takeTurn s).result = s.result := rfl
@[simp] theorem takeTurn_fflags (s : State) : (takeTurn s).fflags = s.fflags := rfl
@[simp] theorem takeTurn_errInfo (s : State) : (takeTurn s).errInfo = s.errInfo := rfl
@[simp] theorem takeTurn_pending (s : State) : (takeTurn s).pending = s.pending := rfl
@[simp] theorem takeTurn_dmem (s : State) : (takeTurn s).dmem = s.dmem := rfl
@[simp] theorem takeTurn_draws (s : State) : (takeTurn s).draws = s.draws := rfl
@[simp] theorem takeTurn_resp (s : State) : (takeTurn s).resp = s.resp := rfl
@[simp] theorem takeTurn_host (s : State) : (takeTurn s).host = s.host := rfl
@[simp] theorem takeTurn_sched (s : State) : (takeTurn s).sched = s.sched.tail := rfl

/-! ## firEffect -/

@[simp] theorem firEffect_params (s : State) : (firEffect s).params = s.params := rfl
@[simp] theorem firEffect_irqEn (s : State) : (firEffect s).irqEn = s.irqEn := rfl
@[simp] theorem firEffect_status (s : State) : (firEffect s).status = s.status := rfl
@[simp] theorem firEffect_regs (s : State) : (firEffect s).regs = s.regs := rfl
@[simp] theorem firEffect_result (s : State) : (firEffect s).result = s.result := rfl
@[simp] theorem firEffect_fflags (s : State) : (firEffect s).fflags = flagsUnion s.fflags (firFlags s (len s)) := rfl
@[simp] theorem firEffect_errInfo (s : State) : (firEffect s).errInfo = s.errInfo := rfl
@[simp] theorem firEffect_pending (s : State) : (firEffect s).pending = s.pending := rfl
@[simp] theorem firEffect_dmem (s : State) : (firEffect s).dmem = writeBuffer s.dmem s.regs.yBase.toNat (fun n => (firOutput s n).1) (len s) := rfl
@[simp] theorem firEffect_draws (s : State) : (firEffect s).draws = s.draws := rfl
@[simp] theorem firEffect_resp (s : State) : (firEffect s).resp = s.resp := rfl
@[simp] theorem firEffect_host (s : State) : (firEffect s).host = s.host := rfl
@[simp] theorem firEffect_sched (s : State) : (firEffect s).sched = s.sched := rfl

/-! ## dftEffect -/

@[simp] theorem dftEffect_params (s : State) : (dftEffect s).params = s.params := rfl
@[simp] theorem dftEffect_irqEn (s : State) : (dftEffect s).irqEn = s.irqEn := rfl
@[simp] theorem dftEffect_status (s : State) : (dftEffect s).status = s.status := rfl
@[simp] theorem dftEffect_regs (s : State) : (dftEffect s).regs = s.regs := rfl
@[simp] theorem dftEffect_result (s : State) : (dftEffect s).result = s.result := rfl
@[simp] theorem dftEffect_fflags (s : State) : (dftEffect s).fflags = s.fflags := rfl
@[simp] theorem dftEffect_errInfo (s : State) : (dftEffect s).errInfo = s.errInfo := rfl
@[simp] theorem dftEffect_pending (s : State) : (dftEffect s).pending = s.pending := rfl
@[simp] theorem dftEffect_dmem (s : State) : (dftEffect s).dmem = 
    writeBuffer (writeBuffer s.dmem s.regs.reBase.toNat (fun k => (dftBin (len s) (dftSamples s) k).1) (len s))
      s.regs.imBase.toNat (fun k => (dftBin (len s) (dftSamples s) k).2) (len s) := rfl
@[simp] theorem dftEffect_draws (s : State) : (dftEffect s).draws = s.draws := rfl
@[simp] theorem dftEffect_resp (s : State) : (dftEffect s).resp = s.resp := rfl
@[simp] theorem dftEffect_host (s : State) : (dftEffect s).host = s.host := rfl
@[simp] theorem dftEffect_sched (s : State) : (dftEffect s).sched = s.sched := rfl

/-! ## freqmapEffect -/

@[simp] theorem freqmapEffect_params (fold : Bool) (s : State) : (freqmapEffect fold s).params = s.params := rfl
@[simp] theorem freqmapEffect_irqEn (fold : Bool) (s : State) : (freqmapEffect fold s).irqEn = s.irqEn := rfl
@[simp] theorem freqmapEffect_status (fold : Bool) (s : State) : (freqmapEffect fold s).status = s.status := rfl
@[simp] theorem freqmapEffect_regs (fold : Bool) (s : State) : (freqmapEffect fold s).regs = s.regs := rfl
@[simp] theorem freqmapEffect_result (fold : Bool) (s : State) : (freqmapEffect fold s).result = s.result := rfl
@[simp] theorem freqmapEffect_fflags (fold : Bool) (s : State) : (freqmapEffect fold s).fflags = s.fflags := rfl
@[simp] theorem freqmapEffect_errInfo (fold : Bool) (s : State) : (freqmapEffect fold s).errInfo = s.errInfo := rfl
@[simp] theorem freqmapEffect_pending (fold : Bool) (s : State) : (freqmapEffect fold s).pending = s.pending := rfl
@[simp] theorem freqmapEffect_dmem (fold : Bool) (s : State) : (freqmapEffect fold s).dmem = 
    writeBuffer s.dmem s.regs.fBase.toNat (fun k => binFreq s.regs.fs (len s) k fold) (len s) := rfl
@[simp] theorem freqmapEffect_draws (fold : Bool) (s : State) : (freqmapEffect fold s).draws = s.draws := rfl
@[simp] theorem freqmapEffect_resp (fold : Bool) (s : State) : (freqmapEffect fold s).resp = s.resp := rfl
@[simp] theorem freqmapEffect_host (fold : Bool) (s : State) : (freqmapEffect fold s).host = s.host := rfl
@[simp] theorem freqmapEffect_sched (fold : Bool) (s : State) : (freqmapEffect fold s).sched = s.sched := rfl

/-! ## magEffect -/

@[simp] theorem magEffect_params (s : State) : (magEffect s).params = s.params := rfl
@[simp] theorem magEffect_irqEn (s : State) : (magEffect s).irqEn = s.irqEn := rfl
@[simp] theorem magEffect_status (s : State) : (magEffect s).status = s.status := rfl
@[simp] theorem magEffect_regs (s : State) : (magEffect s).regs = s.regs := rfl
@[simp] theorem magEffect_result (s : State) : (magEffect s).result = s.result := rfl
@[simp] theorem magEffect_fflags (s : State) : (magEffect s).fflags = s.fflags := rfl
@[simp] theorem magEffect_errInfo (s : State) : (magEffect s).errInfo = s.errInfo := rfl
@[simp] theorem magEffect_pending (s : State) : (magEffect s).pending = s.pending := rfl
@[simp] theorem magEffect_dmem (s : State) : (magEffect s).dmem = writeBuffer s.dmem s.regs.mBase.toNat (magOutput s) (len s) := rfl
@[simp] theorem magEffect_draws (s : State) : (magEffect s).draws = s.draws := rfl
@[simp] theorem magEffect_resp (s : State) : (magEffect s).resp = s.resp := rfl
@[simp] theorem magEffect_host (s : State) : (magEffect s).host = s.host := rfl
@[simp] theorem magEffect_sched (s : State) : (magEffect s).sched = s.sched := rfl

/-! ## halfspecEffect -/

@[simp] theorem halfspecEffect_params (s : State) : (halfspecEffect s).params = s.params := rfl
@[simp] theorem halfspecEffect_irqEn (s : State) : (halfspecEffect s).irqEn = s.irqEn := rfl
@[simp] theorem halfspecEffect_status (s : State) : (halfspecEffect s).status = s.status := rfl
@[simp] theorem halfspecEffect_regs (s : State) : (halfspecEffect s).regs = s.regs := rfl
@[simp] theorem halfspecEffect_result (s : State) : (halfspecEffect s).result = s.result := rfl
@[simp] theorem halfspecEffect_fflags (s : State) : (halfspecEffect s).fflags = s.fflags := rfl
@[simp] theorem halfspecEffect_errInfo (s : State) : (halfspecEffect s).errInfo = s.errInfo := rfl
@[simp] theorem halfspecEffect_pending (s : State) : (halfspecEffect s).pending = s.pending := rfl
@[simp] theorem halfspecEffect_dmem (s : State) : (halfspecEffect s).dmem = 
    writeBuffer (writeBuffer s.dmem s.regs.fBase.toNat (fun k => binFreq s.regs.fs (len s) k false) (halfLen s))
      s.regs.mBase.toNat (magOutput s) (halfLen s) := rfl
@[simp] theorem halfspecEffect_draws (s : State) : (halfspecEffect s).draws = s.draws := rfl
@[simp] theorem halfspecEffect_resp (s : State) : (halfspecEffect s).resp = s.resp := rfl
@[simp] theorem halfspecEffect_host (s : State) : (halfspecEffect s).host = s.host := rfl
@[simp] theorem halfspecEffect_sched (s : State) : (halfspecEffect s).sched = s.sched := rfl

/-! ## scalarResult -/

@[simp] theorem scalarResult_params (r : Word × Flags) (s : State) : (scalarResult r s).params = s.params := rfl
@[simp] theorem scalarResult_irqEn (r : Word × Flags) (s : State) : (scalarResult r s).irqEn = s.irqEn := rfl
@[simp] theorem scalarResult_status (r : Word × Flags) (s : State) : (scalarResult r s).status = { s.status with busy := false, done := true } := rfl
@[simp] theorem scalarResult_regs (r : Word × Flags) (s : State) : (scalarResult r s).regs = s.regs := rfl
@[simp] theorem scalarResult_result (r : Word × Flags) (s : State) : (scalarResult r s).result = r.1 := rfl
@[simp] theorem scalarResult_fflags (r : Word × Flags) (s : State) : (scalarResult r s).fflags = flagsUnion s.fflags r.2 := rfl
@[simp] theorem scalarResult_errInfo (r : Word × Flags) (s : State) : (scalarResult r s).errInfo = s.errInfo := rfl
@[simp] theorem scalarResult_pending (r : Word × Flags) (s : State) : (scalarResult r s).pending = s.pending := rfl
@[simp] theorem scalarResult_dmem (r : Word × Flags) (s : State) : (scalarResult r s).dmem = s.dmem := rfl
@[simp] theorem scalarResult_draws (r : Word × Flags) (s : State) : (scalarResult r s).draws = s.draws := rfl
@[simp] theorem scalarResult_resp (r : Word × Flags) (s : State) : (scalarResult r s).resp = s.resp := rfl
@[simp] theorem scalarResult_host (r : Word × Flags) (s : State) : (scalarResult r s).host = s.host := rfl
@[simp] theorem scalarResult_sched (r : Word × Flags) (s : State) : (scalarResult r s).sched = s.sched := rfl

end Sys2Proof.Machine
end

