-- ==== Sys2Proof/Laws/Ops.lean ====
section
/-! SUPPORT. What the shared operations do, once each: the checks, a command's completion, exec, register access, one bus
access, the turns and the step. -/

namespace Sys2Proof.Machine

/-! ## Checks (R206, R207) -/

@[simp] theorem firstError_nil : firstError [] = none := rfl

theorem firstError_cons (r : CheckRow) (rs : List CheckRow) :
    firstError (r :: rs) = if r.cond then some r.error else firstError rs := rfl

/-- No error exactly when no row's condition holds. -/
theorem firstError_eq_none_iff (rows : List CheckRow) : firstError rows = none ↔ ∀ r ∈ rows, r.cond = false := by
  induction rows with
  | nil => simp
  | cons r rs ih => rw [firstError_cons]; split <;> simp_all

/-- The reported error is that of a row whose condition holds, with every earlier row's condition false. -/
theorem firstError_eq_some {rows : List CheckRow} {e : CmdError} (h : firstError rows = some e) :
    ∃ before r after, rows = before ++ r :: after ∧ (∀ q ∈ before, q.cond = false) ∧ r.cond = true ∧ r.error = e := by
  induction rows with
  | nil => simp at h
  | cons r rs ih =>
    rw [firstError_cons] at h
    split at h
    · rename_i hr
      exact ⟨[], r, rs, rfl, by simp, hr, by simpa using h⟩
    · rename_i hr
      obtain ⟨before, q, after, rfl, hb, hq, he⟩ := ih h
      exact ⟨r :: before, q, after, rfl, by simpa [hr] using hb, hq, he⟩

@[simp] theorem inRange_iff (s : State) (b : Word) (n : Nat) :
    inRange s b n = true ↔ b.toNat + n ≤ s.params.dmemWords := by simp [inRange]

/-- Two regions overlap exactly when they share an index (R10). -/
theorem overlap_iff (b : Word) (n : Nat) (c : Word) (k : Nat) :
    overlap b n c k = true ↔ ∃ i, (b.toNat ≤ i ∧ i < b.toNat + n) ∧ (c.toNat ≤ i ∧ i < c.toNat + k) := by
  simp only [overlap, decide_eq_true_eq]
  constructor
  · intro h; exact ⟨max b.toNat c.toNat, by omega⟩
  · rintro ⟨i, h⟩; omega

theorem overlap_eq_false_iff (b : Word) (n : Nat) (c : Word) (k : Nat) :
    overlap b n c k = false ↔ ∀ i, b.toNat ≤ i → i < b.toNat + n → ¬(c.toNat ≤ i ∧ i < c.toNat + k) := by
  rw [← Bool.not_eq_true, overlap_iff]
  constructor
  · intro h i h1 h2 h3; exact h ⟨i, ⟨h1, h2⟩, h3⟩
  · rintro h ⟨i, h1, h2⟩; exact h i h1.1 h1.2 h2

/-! ### When each command passes its checks -/

theorem firPasses_iff (s : State) :
    commandError .fir s = none ↔
      len s ≠ 0 ∧ taps s % 2 = 1 ∧ s.regs.xBase.toNat + len s ≤ s.params.dmemWords ∧
      s.regs.tBase.toNat + taps s ≤ s.params.dmemWords ∧ s.regs.yBase.toNat + len s ≤ s.params.dmemWords ∧
      overlap s.regs.yBase (len s) s.regs.xBase (len s) = false ∧
      overlap s.regs.yBase (len s) s.regs.tBase (taps s) = false := by
  simp only [commandError, firstError_eq_none_iff, firChecks, List.forall_mem_cons, List.not_mem_nil, IsEmpty.forall_iff,
    implies_true, and_true, beq_eq_false_iff_ne, Bool.not_eq_false', inRange_iff, Bool.or_eq_false_iff]
  constructor
  · rintro ⟨h1, _, h3, h4, h5, h6, h7⟩; exact ⟨h1, by omega, h4, h5, h6, h7⟩
  · rintro ⟨h1, h3, h4, h5, h6, h7⟩; exact ⟨h1, by omega, by omega, h4, h5, h6, h7⟩

theorem dftRegionsPass_iff (s : State) :
    firstError (dftChecks s) = none ↔
      len s ≠ 0 ∧ s.regs.xBase.toNat + len s ≤ s.params.dmemWords ∧
      s.regs.reBase.toNat + len s ≤ s.params.dmemWords ∧ s.regs.imBase.toNat + len s ≤ s.params.dmemWords ∧
      overlap s.regs.reBase (len s) s.regs.xBase (len s) = false ∧
      overlap s.regs.imBase (len s) s.regs.xBase (len s) = false ∧
      overlap s.regs.imBase (len s) s.regs.reBase (len s) = false := by
  simp only [firstError_eq_none_iff, dftChecks, List.forall_mem_cons, List.not_mem_nil, IsEmpty.forall_iff,
    implies_true, and_true, beq_eq_false_iff_ne, Bool.not_eq_false', inRange_iff, Bool.or_eq_false_iff]

theorem dftPasses_iff (s : State) :
    commandError .dft s = none ↔ firstError (dftChecks s) = none ∧ firstNonFinite s = none := by
  simp [commandError, finitenessError]

theorem firstNonFinite_eq_none_iff (s : State) :
    firstNonFinite s = none ↔
      ∀ n < len s, F64.isFinite (readWord s (.scan n) (s.regs.xBase.toNat + n)) = true := by
  simp [firstNonFinite]

theorem firstNonFinite_eq_some_iff (s : State) (n : Nat) :
    firstNonFinite s = some n ↔
      n < len s ∧ F64.isFinite (readWord s (.scan n) (s.regs.xBase.toNat + n)) = false ∧
      ∀ k < n, F64.isFinite (readWord s (.scan k) (s.regs.xBase.toNat + k)) = true := by
  rw [firstNonFinite, List.find?_range_eq_some]
  simp only [Bool.not_eq_true', List.mem_range, Bool.not_not]
  tauto

theorem freqmapPasses_iff (s : State) :
    firstError (freqmapChecks s) = none ↔
      len s ≠ 0 ∧ fsOk s.regs.fs = true ∧ s.regs.fBase.toNat + len s ≤ s.params.dmemWords := by
  simp only [firstError_eq_none_iff, freqmapChecks, List.forall_mem_cons, List.not_mem_nil, IsEmpty.forall_iff,
    implies_true, and_true, beq_eq_false_iff_ne, Bool.not_eq_false', inRange_iff]

theorem magPasses_iff (s : State) :
    commandError .mag s = none ↔
      len s ≠ 0 ∧ s.regs.reBase.toNat + len s ≤ s.params.dmemWords ∧
      s.regs.imBase.toNat + len s ≤ s.params.dmemWords ∧ s.regs.mBase.toNat + len s ≤ s.params.dmemWords ∧
      overlap s.regs.mBase (len s) s.regs.reBase (len s) = false ∧
      overlap s.regs.mBase (len s) s.regs.imBase (len s) = false := by
  simp only [commandError, firstError_eq_none_iff, magChecks, List.forall_mem_cons, List.not_mem_nil, IsEmpty.forall_iff,
    implies_true, and_true, beq_eq_false_iff_ne, Bool.not_eq_false', inRange_iff, Bool.or_eq_false_iff]

theorem halfspecPasses_iff (s : State) :
    commandError .halfspec s = none ↔
      len s ≠ 0 ∧ fsOk s.regs.fs = true ∧ s.regs.reBase.toNat + halfLen s ≤ s.params.dmemWords ∧
      s.regs.imBase.toNat + halfLen s ≤ s.params.dmemWords ∧ s.regs.fBase.toNat + halfLen s ≤ s.params.dmemWords ∧
      s.regs.mBase.toNat + halfLen s ≤ s.params.dmemWords ∧
      (overlap s.regs.fBase (halfLen s) s.regs.reBase (halfLen s) = false ∧
        overlap s.regs.fBase (halfLen s) s.regs.imBase (halfLen s) = false) ∧
      (overlap s.regs.mBase (halfLen s) s.regs.reBase (halfLen s) = false ∧
        overlap s.regs.mBase (halfLen s) s.regs.imBase (halfLen s) = false) ∧
      overlap s.regs.mBase (halfLen s) s.regs.fBase (halfLen s) = false := by
  simp only [commandError, firstError_eq_none_iff, halfspecChecks, List.forall_mem_cons, List.not_mem_nil, IsEmpty.forall_iff,
    implies_true, and_true, beq_eq_false_iff_ne, Bool.not_eq_false', inRange_iff, Bool.or_eq_false_iff]

/-- Every output region of a command that passes its checks lies in DMEM (R62). -/
theorem outputRegions_inRange {i : Instr} {s : State} (h : commandError i s = none) :
    ∀ r ∈ outputRegions i s, r.1 + r.2 ≤ s.params.dmemWords := by
  cases i <;> simp only [outputRegions, List.forall_mem_cons, List.not_mem_nil, IsEmpty.forall_iff, implies_true, and_true]
  case fir => exact ((firPasses_iff s).mp h).2.2.2.2.1
  case dft =>
    have := (dftRegionsPass_iff s).mp ((dftPasses_iff s).mp h).1
    exact ⟨this.2.2.1, this.2.2.2.1⟩
  case freqmap => exact ((freqmapPasses_iff s).mp h).2.2
  case freqmapFold => exact ((freqmapPasses_iff s).mp h).2.2
  case mag => exact ((magPasses_iff s).mp h).2.2.2.1
  case halfspec =>
    have := (halfspecPasses_iff s).mp h
    exact ⟨this.2.2.2.2.1, this.2.2.2.2.2.1⟩

/-- A reported row is one of the group's rows, and its condition holds. -/
theorem firstError_mem {rows : List CheckRow} {e : CmdError} (h : firstError rows = some e) :
    ∃ r ∈ rows, r.cond = true ∧ r.error = e := by
  obtain ⟨_, r, _, rfl, _, hc, he⟩ := firstError_eq_some h
  exact ⟨r, by simp, hc, he⟩

/-- The parameters an error names are those of R206, with the stage of its command (R205). -/
theorem commandError_cases {i : Instr} {s : State} {e : CmdError} (h : commandError i s = some e) :
    (e.kind = .invalidInput ∧ e.param = .nlen ∧ e.info = 0 ∧ len s = 0) ∨
    (e.kind = .invalidParameter ∧ e.info = 0) ∨
    (e.kind = .numericalInstability ∧ e.param = .xBase ∧ i = .dft ∧
      ∃ n, firstNonFinite s = some n ∧ e.info = BitVec.ofNat 64 n ∧ firstError (dftChecks s) = none) := by
  cases i <;> simp only [commandError, reduceCtorEq] at h
  case dft =>
    rcases he : firstError (dftChecks s) with _ | e'
    · rw [he, Option.none_or] at h
      obtain ⟨n, hn, rfl⟩ := Option.map_eq_some_iff.mp h
      exact .inr (.inr ⟨rfl, rfl, rfl, n, hn, rfl, rfl⟩)
    · rw [he, Option.some_or, Option.some.injEq] at h
      subst h
      obtain ⟨r, hm, hc, rfl⟩ := firstError_mem he
      simp only [dftChecks, List.mem_cons, List.not_mem_nil, or_false] at hm
      rcases hm with rfl | rfl | rfl | rfl | rfl | rfl <;> simp_all
  all_goals
    obtain ⟨r, hm, hc, rfl⟩ := firstError_mem h
    simp only [firChecks, freqmapChecks, magChecks, halfspecChecks, List.mem_cons, List.not_mem_nil, or_false] at hm
    rcases hm with rfl | rfl | rfl | rfl | rfl | rfl | rfl | rfl <;> simp_all

/-! ## exec -/

/-- What each command's success leaves, before completion. -/
def commandEffect (i : Instr) (s : State) : State :=
  match i with
  | .fir => firEffect s
  | .dft => dftEffect s
  | .freqmap => freqmapEffect false s
  | .freqmapFold => freqmapEffect true s
  | .mag => magEffect s
  | .halfspec => halfspecEffect s
  | .fadd => { s with
      result := (F64.fadd s.regs.opa s.regs.opb).1
      fflags := flagsUnion s.fflags (F64.fadd s.regs.opa s.regs.opb).2 }
  | .fsub => { s with
      result := (F64.fsub s.regs.opa s.regs.opb).1
      fflags := flagsUnion s.fflags (F64.fsub s.regs.opa s.regs.opb).2 }
  | .fmul => { s with
      result := (F64.fmul s.regs.opa s.regs.opb).1
      fflags := flagsUnion s.fflags (F64.fmul s.regs.opa s.regs.opb).2 }
  | .fma => { s with
      result := (F64.ffma s.regs.opa s.regs.opb s.regs.opc).1
      fflags := flagsUnion s.fflags (F64.ffma s.regs.opa s.regs.opb s.regs.opc).2 }

/-- Every command either raises the error of its first failing row or takes its effect and completes: exec in one line. -/
theorem exec_eq (i : Instr) (s : State) :
    exec i s = .next (finish (commandError i s) (commandEffect i s) s) := by
  cases i <;> rfl

/-- The two ways a command ends. -/
theorem exec_cases (i : Instr) (s : State) :
    (∃ e, commandError i s = some e ∧ exec i s = .next (raiseError e s)) ∨
    (commandError i s = none ∧ exec i s = .next (complete (commandEffect i s))) := by
  rw [exec_eq]
  cases h : commandError i s with
  | some e => exact .inl ⟨e, rfl, rfl⟩
  | none => exact .inr ⟨rfl, rfl⟩

/-- No command's effect touches these fields (R51). -/
theorem commandEffect_frame (i : Instr) (s : State) :
    (commandEffect i s).params = s.params ∧ (commandEffect i s).irqEn = s.irqEn ∧
    (commandEffect i s).status = s.status ∧ (commandEffect i s).regs = s.regs ∧
    (commandEffect i s).errInfo = s.errInfo ∧ (commandEffect i s).pending = s.pending ∧
    (commandEffect i s).draws = s.draws ∧ (commandEffect i s).resp = s.resp ∧
    (commandEffect i s).host = s.host ∧ (commandEffect i s).sched = s.sched := by
  cases i <;> exact ⟨rfl, rfl, rfl, rfl, rfl, rfl, rfl, rfl, rfl, rfl⟩

/-- A command's writes stay in its output regions (R51). -/
theorem byteAt_commandEffect_outside (i : Instr) (s : State) {a : Nat}
    (h : ∀ r ∈ outputRegions i s, a < wordOffset r.1 ∨ wordOffset (r.1 + r.2) ≤ a) :
    byteAt (commandEffect i s).dmem a = byteAt s.dmem a := by
  cases i <;> simp only [outputRegions, List.mem_cons, List.not_mem_nil, or_false, forall_eq_or_imp, forall_eq] at h
  case fir => exact byteAt_writeBuffer_outside _ _ _ h
  case dft =>
    exact (byteAt_writeBuffer_outside _ _ _ h.2).trans (byteAt_writeBuffer_outside _ _ _ h.1)
  case freqmap => exact byteAt_writeBuffer_outside _ _ _ h
  case freqmapFold => exact byteAt_writeBuffer_outside _ _ _ h
  case mag => exact byteAt_writeBuffer_outside _ _ _ h
  case halfspec =>
    exact (byteAt_writeBuffer_outside _ _ _ h.2).trans (byteAt_writeBuffer_outside _ _ _ h.1)
  all_goals rfl

/-- A command that passes its checks keeps DMEM in canonical form. -/
theorem wf_commandEffect {i : Instr} {s : State} (hw : Memory.wf s.params.dmemWords s.dmem)
    (h : commandError i s = none) : Memory.wf s.params.dmemWords (commandEffect i s).dmem := by
  have hr := outputRegions_inRange h
  cases i <;> simp only [outputRegions, List.mem_cons, List.not_mem_nil, or_false, forall_eq_or_imp, forall_eq] at hr
  case fir => exact wf_writeBuffer hw hr _
  case dft => exact wf_writeBuffer (wf_writeBuffer hw hr.1 _) hr.2 _
  case freqmap => exact wf_writeBuffer hw hr _
  case freqmapFold => exact wf_writeBuffer hw hr _
  case mag => exact wf_writeBuffer hw hr _
  case halfspec => exact wf_writeBuffer (wf_writeBuffer hw hr.1 _) hr.2 _
  all_goals exact hw

/-! ## Reads -/

/-- A written word is read as it is, whatever the draw (R64). -/
theorem readWord_of_wordAt {s : State} {i : Nat} {v : Word} (h : wordAt s.dmem i = some v) (tag : ReadTag) :
    readWord s tag i = v := by simp [readWord, h]

/-! ## The register block -/

@[simp] theorem regOfNum_regNum (r : RegName) : regOfNum (regNum r) = some r := by cases r <;> rfl

/-- Register numbers from 20 are reserved (R45). -/
theorem regOfNum_reserved {n : Nat} (h : 20 ≤ n) : regOfNum n = none := by
  unfold regOfNum
  split <;> first | omega | rfl

/-- An abort keeps the canonical form. -/
theorem wf_abortMemory {s : State} (h : Memory.wf s.params.dmemWords s.dmem) :
    Memory.wf s.params.dmemWords (abortMemory s) := by
  unfold abortMemory
  split
  · exact h
  · split
    · exact h
    · rename_i hc
      exact wf_scrambleRegions _ h (outputRegions_inRange hc)

/-- What a register write can do: nothing, set IRQ_EN, soft reset, clear status bits, drop with OVR, accept a command,
write one operand register, or write FFLAGS. -/
theorem writeReg_cases (r : RegName) (w : Word) (s : State) :
    writeReg r w s = s ∨ (r = .ctrl ∧ w.getLsbD 1 = false ∧ writeReg r w s = { s with irqEn := w.getLsbD 0 }) ∨
    (r = .ctrl ∧ w.getLsbD 1 = true ∧ writeReg r w s = softReset s) ∨ (r = .status ∧ writeReg r w s = writeStatus w s) ∨
    (s.status.busy = true ∧ writeReg r w s = setOvr s) ∨
    (s.status.busy = false ∧ r = .cmd ∧ writeReg r w s = acceptCommand w s) ∨
    (s.status.busy = false ∧ ∃ o, writeReg r w s = { s with regs := o }) ∨
    (s.status.busy = false ∧ r = .fflags ∧ writeReg r w s = { s with fflags := flagsOfWord w }) := by
  cases r
  case ctrl =>
    cases h1 : w.getLsbD 1
    · exact .inr (.inl ⟨rfl, rfl, by simp only [writeReg, writeCtrl, h1]; rfl⟩)
    · exact .inr (.inr (.inl ⟨rfl, rfl, by simp only [writeReg, writeCtrl, h1]; rfl⟩))
  case status => exact .inr (.inr (.inr (.inl ⟨rfl, rfl⟩)))
  case id => exact .inl rfl
  case result => exact .inl rfl
  case errInfo => exact .inl rfl
  all_goals
    cases hb : s.status.busy
    · simp [writeReg, unlessBusy, hb]
    · exact .inr (.inr (.inr (.inr (.inl ⟨rfl, by simp [writeReg, unlessBusy, hb]⟩))))

/-- What an accepted write can do to the core: what a register write can, or the write of one DMEM word while idle. -/
theorem busWrite_cases (t : BusTarget) (v : Word) (s : State) :
    busWrite t v s = s ∨ (∃ r, t = .reg (regNum r) ∧ busWrite t v s = writeReg r v s) ∨
    (s.status.busy = true ∧ busWrite t v s = setOvr s) ∨
    (s.status.busy = false ∧ ∃ i, t = .word i ∧ busWrite t v s = { s with dmem := writeWord s.dmem i v }) := by
  cases t with
  | reg n =>
    by_cases hn : n < 20
    · refine .inr (.inl ?_)
      have : ∃ r, regNum r = n := by
        interval_cases n
        exacts [⟨.id, rfl⟩, ⟨.ctrl, rfl⟩, ⟨.status, rfl⟩, ⟨.cmd, rfl⟩, ⟨.xBase, rfl⟩, ⟨.nlen, rfl⟩, ⟨.tBase, rfl⟩,
          ⟨.tlen, rfl⟩, ⟨.yBase, rfl⟩, ⟨.reBase, rfl⟩, ⟨.imBase, rfl⟩, ⟨.fBase, rfl⟩, ⟨.mBase, rfl⟩, ⟨.fs, rfl⟩,
          ⟨.opa, rfl⟩, ⟨.opb, rfl⟩, ⟨.opc, rfl⟩, ⟨.result, rfl⟩, ⟨.fflags, rfl⟩, ⟨.errInfo, rfl⟩]
      obtain ⟨r, rfl⟩ := this
      exact ⟨r, rfl, by simp [busWrite]⟩
    · left
      simp [busWrite, regOfNum_reserved (Nat.le_of_not_lt hn)]
  | word i =>
    simp only [busWrite, unlessBusy]
    cases hb : s.status.busy
    · exact .inr (.inr (.inr ⟨rfl, i, rfl, by simp⟩))
    · exact .inr (.inr (.inl ⟨rfl, by simp⟩))

/-- A DMEM target is a word of DMEM (R60). -/
theorem busTarget_word {words : Nat} {a : BusAccess} {i : Nat} (h : busTarget words a = some (.word i)) : i < words := by
  unfold busTarget at h
  dsimp only at h
  split_ifs at h
  · cases h
  · obtain ⟨rfl⟩ := Option.some.inj h
    omega

/-- What an access can do to the core: nothing, or the effect of an accepted write (R63, R67). -/
theorem busAccess_cases (a : BusAccess) (s : State) :
    (busAccess a s).2 = s ∨
    ∃ t v, busTarget s.params.dmemWords a = some t ∧ a.op = .write v ∧ busAccess a s = (.accepted, busWrite t v s) := by
  unfold busAccess
  cases ht : busTarget s.params.dmemWords a with
  | none => exact .inl rfl
  | some t =>
    cases ho : a.op with
    | read => exact .inl rfl
    | write v => exact .inr ⟨t, v, rfl, rfl, rfl⟩

/-! ## Turns and the step -/

/-- A host turn changes the core only as one bus access does; the rest is the model's own (R68). -/
theorem hostTurn_cases (s : State) :
    hostTurn s = s ∨ (∃ h, hostTurn s = { s with host := h }) ∨
    ∃ a pos, hostTurn s = hostAccess a pos s := by
  unfold hostTurn
  split
  · exact .inl rfl
  · split
    · exact .inr (.inr ⟨_, _, rfl⟩)
    · exact .inr (.inl ⟨_, rfl⟩)

/-- An engine turn on a pending command completes it: with the error of an illegal word, with an error of the command, or
with the command's effect (R85). -/
theorem engineTurn_cases (s : State) :
    (s.status.busy = false ∧ engineTurn s = .next s) ∨
    (s.status.busy = true ∧ decode s.pending = none ∧
      engineTurn s = .next (nextDraws (raiseError illegalCommand s))) ∨
    (s.status.busy = true ∧ ∃ i, decode s.pending = some i ∧
      engineTurn s = .next (nextDraws (finish (commandError i s) (commandEffect i s) s))) := by
  unfold engineTurn
  cases hb : s.status.busy
  · exact .inl ⟨rfl, by simp⟩
  · cases hd : decode s.pending with
    | none => exact .inr (.inl ⟨rfl, rfl, by simp [afterCommand]⟩)
    | some i => exact .inr (.inr ⟨rfl, i, rfl, by simp [afterCommand, exec_eq]⟩)

/-- The three kinds of step (R69). -/
theorem step_cases (s : State) :
    (whoMoves s = .engine ∧ step s = engineTurn (takeTurn s)) ∨
    (whoMoves s = .host ∧ step s = .next (hostTurn (takeTurn s))) ∨
    (whoMoves s = .rst ∧ step s = .next (hardReset (takeTurn s))) := by
  unfold step
  cases whoMoves s
  · exact .inl ⟨rfl, rfl⟩
  · exact .inr (.inl ⟨rfl, rfl⟩)
  · exact .inr (.inr ⟨rfl, rfl⟩)

/-- Every step answers a next state: DSPCORE has no traps (R200). -/
theorem step_next (s : State) : ∃ t, step s = .next t := by
  rcases step_cases s with ⟨_, h⟩ | ⟨_, h⟩ | ⟨_, h⟩
  · rcases engineTurn_cases (takeTurn s) with ⟨_, he⟩ | ⟨_, _, he⟩ | ⟨_, i, _, he⟩ <;> exact ⟨_, h.trans he⟩
  · exact ⟨_, h⟩
  · exact ⟨_, h⟩

end Sys2Proof.Machine
end

