-- ==== Sys2Proof/Laws/Commands.lean ====
section
/-! SUPPORT. Commands in the terms of Safety.lean: readiness is passing the checks, and the two ways a command ends. -/

namespace Sys2Proof.Machine

/-- A successful command leaves alone what R204 and R210 say it does. -/
theorem completedFrame_complete (i s) : CompletedFrame s (complete (commandEffect i s)) := by
  cases i <;> exact ⟨rfl, rfl, rfl, rfl, rfl, rfl, rfl, rfl, rfl, rfl⟩

/-- The listed regions are the regions the machine writes (R51). -/
theorem tableRegions_eq (i s) : tableRegions i s = outputRegions i s := by cases i <;> rfl

/-- A command whose checks give an error ends with exactly that error (R204). -/
theorem failsWith_of_commandError {i : Instr} {s : State} {e : CmdError} (h : commandError i s = some e) :
   FailsWith i s e.kind e.stage (BitVec.ofNat 8 (regNum e.param)) e.info := by
  rcases exec_cases i s with ⟨e', he, hx⟩ | ⟨hn, _⟩
  · rw [h] at he; obtain rfl := Option.some.inj he; exact hx
  · rw [h] at hn; cases hn

/-- A command whose checks pass completes (R210). -/
theorem succeeds_of_commandError {i : Instr} {s : State} (h : commandError i s = none) : Succeeds i s := by
  rcases exec_cases i s with ⟨e', he, hx⟩ | ⟨hn, hx⟩
  · rw [h] at he; cases he
  · exact ⟨_, hx, completedFrame_complete i s⟩

/-- Two non-empty regions overlap exactly when they are not apart (R10). -/
theorem overlap_iff_not_apart (b c : Word) {n k : Nat} (hn : 0 < n) (hk : 0 < k) :
   overlap b n c k = true ↔ ¬ Apart b.toNat n c.toNat k := by
  simp only [overlap, decide_eq_true_eq, Apart]; omega

theorem overlap_eq_false_of_apart (b c : Word) {n k : Nat} (h : Apart b.toNat n c.toNat k) : overlap b n c k = false := by
  simp only [overlap, decide_eq_false_iff_not]; simp only [Apart] at h; omega

theorem apart_of_overlap_eq_false {b c : Word} {n k : Nat} (hn : 0 < n) (hk : 0 < k)
    (h : overlap b n c k = false) : Apart b.toNat n c.toNat k := by
  have := overlap_iff_not_apart b c hn hk
  by_contra hc
  simp [h] at this
  exact hc (by simp only [Apart]; omega)

theorem inRange_eq (s : State) (b : Word) (n : Nat) : inRange s b n = !decide (s.params.dmemWords < b.toNat + n) := by
  rw [Bool.eq_iff_iff]; simp [inRange]

/-- The sample rate check, as the states it admits (R141). -/
theorem fsOk_iff (s : State) : fsOk s.regs.fs = true ↔ FsPositive s := by
  simp [fsOk, FsPositive, and_assoc]

/-- A ready command passes its checks (R206). -/
theorem commandError_of_ready (i s) (h : Ready i s) : commandError i s = none := by
  cases i <;> simp only [Ready] at h
  case fir =>
    obtain ⟨h1,h2,h3,h4,h5,h6,h7⟩ := h
    exact (firPasses_iff s).mpr ⟨by omega, h2, h3, h4, h5, overlap_eq_false_of_apart _ _ h6,
        overlap_eq_false_of_apart _ _ h7⟩
  case dft =>
    obtain ⟨⟨h1,h2,h3,h4,h5,h6,h7⟩,h8⟩ := h
    exact (dftPasses_iff s).mpr ⟨(dftRegionsPass_iff s).mpr ⟨by omega, h2, h3, h4,
        overlap_eq_false_of_apart _ _ h5, overlap_eq_false_of_apart _ _ h6, overlap_eq_false_of_apart _ _ h7⟩,
            (firstNonFinite_eq_none_iff s).mpr h8⟩
  case freqmap =>
    obtain ⟨h1,h2,h3⟩ := h
    exact (freqmapPasses_iff s).mpr ⟨by omega, (fsOk_iff s).mpr h2, h3⟩
  case freqmapFold =>
    obtain ⟨h1,h2,h3⟩ := h
    exact (freqmapPasses_iff s).mpr ⟨by omega, (fsOk_iff s).mpr h2, h3⟩
  case mag =>
    obtain ⟨h1,h2,h3,h4,h5,h6⟩ := h
    exact (magPasses_iff s).mpr ⟨by omega, h2, h3, h4, overlap_eq_false_of_apart _ _ h5, overlap_eq_false_of_apart _ _ h6⟩
  case halfspec =>
    obtain ⟨h1,h2,h3,h4,h5,h6,h7,h8,h9,h10,h11⟩ := h
    exact (halfspecPasses_iff s).mpr ⟨by omega, (fsOk_iff s).mpr h2, h3, h4, h5, h6,
        ⟨overlap_eq_false_of_apart _ _ h7, overlap_eq_false_of_apart _ _ h8⟩, ⟨overlap_eq_false_of_apart _ _ h9,
            overlap_eq_false_of_apart _ _ h10⟩, overlap_eq_false_of_apart _ _ h11⟩
  all_goals rfl

/-- A command that passes its checks is ready (R206). -/
theorem ready_of_commandError (i s) (h : commandError i s = none) : Ready i s := by
  cases i <;> simp only [Ready]
  case fir =>
    obtain ⟨h1,h2,h3,h4,h5,h6,h7⟩ := (firPasses_iff s).mp h
    exact ⟨by omega, h2, h3, h4, h5, apart_of_overlap_eq_false (by omega) (by omega) h6,
        apart_of_overlap_eq_false (by omega) (by omega) h7⟩
  case dft =>
    obtain ⟨h,h8⟩ := (dftPasses_iff s).mp h
    obtain ⟨h1,h2,h3,h4,h5,h6,h7⟩ := (dftRegionsPass_iff s).mp h
    exact ⟨⟨by omega, h2, h3, h4, apart_of_overlap_eq_false (by omega) (by omega) h5,
        apart_of_overlap_eq_false (by omega) (by omega) h6, apart_of_overlap_eq_false (by omega) (by omega) h7⟩,
            (firstNonFinite_eq_none_iff s).mp h8⟩
  case freqmap =>
    obtain ⟨h1,h2,h3⟩ := (freqmapPasses_iff s).mp h
    exact ⟨by omega, (fsOk_iff s).mp h2, h3⟩
  case freqmapFold =>
    obtain ⟨h1,h2,h3⟩ := (freqmapPasses_iff s).mp h
    exact ⟨by omega, (fsOk_iff s).mp h2, h3⟩
  case mag =>
    obtain ⟨h1,h2,h3,h4,h5,h6⟩ := (magPasses_iff s).mp h
    exact ⟨by omega, h2, h3, h4, apart_of_overlap_eq_false (by omega) (by omega) h5,
        apart_of_overlap_eq_false (by omega) (by omega) h6⟩
  case halfspec =>
    obtain ⟨h1,h2,h3,h4,h5,h6,⟨h7,h8⟩,⟨h9,h10⟩,h11⟩ := (halfspecPasses_iff s).mp h
    have : 0 < halfLen s := by simp only [halfLen]; omega
    exact ⟨by omega, (fsOk_iff s).mp h2, h3, h4, h5, h6, apart_of_overlap_eq_false this this h7,
        apart_of_overlap_eq_false this this h8, apart_of_overlap_eq_false this this h9,
            apart_of_overlap_eq_false this this h10, apart_of_overlap_eq_false this this h11⟩

/-- A ready command takes its effect and completes (R85, R210). -/
theorem exec_of_ready {i s} (h : Ready i s) : exec i s = .next (complete (commandEffect i s)) := by
  rw [exec_eq, commandError_of_ready i s h]; rfl

/-- A command writes inside its listed regions only (R51). -/
theorem sameBytesOutside_complete (i s) : SameBytesOutside s (complete (commandEffect i s)) (tableRegions i s) := by
  intro a ha
  rw [tableRegions_eq] at ha
  exact byteAt_commandEffect_outside i s (fun r hr => by have := ha r hr; omega)

/-- The two ways a command ends, on the final state. -/
theorem finish_cases (i : Instr) (s : State) :
   (∃ e, commandError i s = some e ∧ finish (commandError i s) (commandEffect i s) s = raiseError e s) ∨
   (commandError i s = none ∧ finish (commandError i s) (commandEffect i s) s = complete (commandEffect i s)) := by
  cases h : commandError i s with
  | some e => exact .inl ⟨e, rfl, rfl⟩
  | none => exact .inr ⟨rfl, rfl⟩

/-- A command ends with BUSY = 0 and DONE or ERR (R210). -/
theorem finish_completes (i : Instr) (s : State) : (finish (commandError i s) (commandEffect i s) s).status.busy = false ∧
   ((finish (commandError i s) (commandEffect i s) s).status.done = true ∨ (finish (commandError i s)
       (commandEffect i s) s).status.err = true) := by
  cases commandError i s with
  | none => exact ⟨rfl, .inl rfl⟩
  | some e => exact ⟨rfl, .inr rfl⟩

theorem commandEffect_status (i s) : (commandEffect i s).status = s.status := (commandEffect_frame i s).2.2.1

end Sys2Proof.Machine
end

