-- ==== Sys2Proof/Laws/Float.lean ====
section
/-! SUPPORT. Binary64 patterns and rounding: the order of the patterns, signs and classes, the nearest pattern and its
uniqueness, overflow, tininess, and the square root. -/

namespace Sys2Proof.F64

open Sys2Proof.Machine

/-! ## The order of the magnitudes -/

/-- The magnitude of significand `m` at exponent `E` (R100), a full significand included. -/
theorem magUnits_compose {E m : Nat} (h : (2 ^ 52 ≤ m ∧ m ≤ 2 ^ 53) ∨ (E = 0 ∧ m < 2 ^ 52)) :
    magUnits (E * 2 ^ 52 + m) = m * 2 ^ E := by
  unfold magUnits
  rcases h with ⟨h1, h2⟩ | ⟨rfl, h2⟩
  · rw [if_neg (by omega)]
    rcases Nat.lt_or_ge m (2 ^ 53) with h3 | h3
    · rw [show (E * 2 ^ 52 + m) % 2 ^ 52 = m - 2 ^ 52 by omega,
        show (E * 2 ^ 52 + m) / 2 ^ 52 - 1 = E by omega, show 2 ^ 52 + (m - 2 ^ 52) = m by omega]
    · have : m = 2 ^ 53 := by omega
      subst this
      rw [show (E * 2 ^ 52 + 2 ^ 53) % 2 ^ 52 = 0 by omega,
        show (E * 2 ^ 52 + 2 ^ 53) / 2 ^ 52 - 1 = E + 1 by omega, pow_succ 2 E]
      ring
  · rw [if_pos (by omega)]; simp

theorem magUnits_lt_succ (n : Nat) : magUnits n < magUnits (n + 1) := by
  rcases Nat.lt_or_ge n (2 ^ 52) with h | h
  · have h1 : magUnits n = n := by unfold magUnits; rw [if_pos h]
    have h2 := magUnits_compose (E := 0) (m := n + 1) (by omega)
    simp only [zero_mul, zero_add, pow_zero, mul_one] at h2
    omega
  · obtain ⟨E, m, hm, h1, h2⟩ : ∃ E m, n = E * 2 ^ 52 + m ∧ 2 ^ 52 ≤ m ∧ m < 2 ^ 53 :=
      ⟨n / 2 ^ 52 - 1, n % 2 ^ 52 + 2 ^ 52, by omega, by omega, by omega⟩
    subst hm
    rw [add_assoc, magUnits_compose (.inl ⟨h1, by omega⟩), magUnits_compose (.inl ⟨by omega, by omega⟩)]
    exact Nat.mul_lt_mul_of_pos_right (by omega) (by positivity)

theorem magUnits_strictMono : StrictMono magUnits := strictMono_nat_of_lt_succ magUnits_lt_succ

@[simp] theorem magUnits_zero : magUnits 0 = 0 := by simp [magUnits]

theorem magUnits_pos {m : Nat} (h : 0 < m) : 0 < magUnits m := by simpa using magUnits_strictMono h

theorem magVal_strictMono : StrictMono fun m => (magVal m : ℝ) := by
  intro a b h
  simp only [magVal]
  push_cast
  have : (magUnits a : ℝ) < magUnits b := by exact_mod_cast magUnits_strictMono h
  gcongr

/-! ## Signs and classes of patterns -/

theorem toNat_withSign {s : Bool} {m : Nat} (h : m < 2 ^ 63) :
    (withSign s m).toNat = (if s then 2 ^ 63 else 0) + m := by
  unfold withSign
  rw [BitVec.toNat_ofNat, Nat.mod_eq_of_lt]
  split <;> omega

@[simp] theorem sign_withSign {s : Bool} {m : Nat} (h : m < 2 ^ 63) : sign (withSign s m) = s := by
  have ht := toNat_withSign (s := s) h
  unfold sign
  rw [← BitVec.testBit_toNat, ht, Nat.testBit_eq_decide_div_mod_eq]
  cases s
  · simp only [Bool.false_eq_true, if_false, zero_add, decide_eq_false_iff_not]; omega
  · simp only [if_true, decide_eq_true_eq]; omega

/-- The magnitude pattern of a pattern. -/
theorem mag_withSign {s : Bool} {m : Nat} (h : m < 2 ^ 63) : (withSign s m).toNat % 2 ^ 63 = m := by
  rw [toNat_withSign h]; split <;> omega

/-- Every pattern is a sign and a magnitude pattern. -/
theorem withSign_sign (b : Word) : withSign (sign b) (b.toNat % 2 ^ 63) = b := by
  apply BitVec.eq_of_toNat_eq
  rw [toNat_withSign (Nat.mod_lt _ (by positivity))]
  have hs : sign b = decide (b.toNat / 2 ^ 63 % 2 = 1) := by
    unfold sign; rw [← BitVec.testBit_toNat, Nat.testBit_eq_decide_div_mod_eq]
  have := b.isLt
  rw [hs]
  split <;> rename_i h <;> simp only [decide_eq_true_eq] at h <;> omega

theorem expField_eq (b : Word) : expField b = b.toNat % 2 ^ 63 / 2 ^ 52 := by
  simp only [expField, BitVec.extractLsb'_toNat, Nat.shiftRight_eq_div_pow]
  omega

theorem fracField_eq (b : Word) : fracField b = b.toNat % 2 ^ 63 % 2 ^ 52 := by
  simp only [fracField, BitVec.extractLsb'_toNat, Nat.shiftRight_eq_div_pow]
  omega

theorem isFinite_iff (b : Word) : isFinite b = true ↔ b.toNat % 2 ^ 63 < infMag := by
  simp only [isFinite, bne_iff_ne, ne_eq, expField_eq, infMag]
  omega

theorem isInf_iff (b : Word) : isInf b = true ↔ b.toNat % 2 ^ 63 = infMag := by
  simp only [isInf, Bool.and_eq_true, beq_iff_eq, expField_eq, fracField_eq, infMag]
  omega

theorem isNaN_iff (b : Word) : isNaN b = true ↔ infMag < b.toNat % 2 ^ 63 := by
  simp only [isNaN, Bool.and_eq_true, beq_iff_eq, bne_iff_ne, ne_eq, expField_eq, fracField_eq, infMag]
  omega

theorem isZero_iff (b : Word) : isZero b = true ↔ b.toNat % 2 ^ 63 = 0 := by
  simp only [isZero, Bool.and_eq_true, beq_iff_eq, expField_eq, fracField_eq]
  omega

theorem isFinite_withSign {s : Bool} {m : Nat} (h : m < 2 ^ 63) : isFinite (withSign s m) = true ↔ m < infMag := by
  rw [isFinite_iff, mag_withSign h]

theorem isInf_withSign {s : Bool} {m : Nat} (h : m < 2 ^ 63) : isInf (withSign s m) = true ↔ m = infMag := by
  rw [isInf_iff, mag_withSign h]

theorem isNaN_withSign {s : Bool} {m : Nat} (h : m ≤ infMag) : isNaN (withSign s m) = false := by
  rw [← Bool.not_eq_true, isNaN_iff, mag_withSign (by simp only [infMag] at h; omega)]
  omega

/-- Every pattern is finite, an infinity or a NaN (R100). -/
theorem class_cases (b : Word) :
    (isFinite b = true ∧ isInf b = false ∧ isNaN b = false) ∨ (isFinite b = false ∧ isInf b = true ∧ isNaN b = false) ∨
    (isFinite b = false ∧ isInf b = false ∧ isNaN b = true) := by
  simp only [← Bool.not_eq_true, isFinite_iff, isInf_iff, isNaN_iff]
  omega

theorem units_withSign {s : Bool} {m : Nat} (h : m < 2 ^ 63) : units (withSign s m) = magUnits m := by
  rw [units, mag_withSign h]

theorem val_withSign {s : Bool} {m : Nat} (h : m < 2 ^ 63) :
    val (withSign s m) = if s then -magVal m else magVal m := by
  rw [val, signedUnits, sign_withSign h, units_withSign h, magVal]
  cases s
  · simp
  · simp [neg_div]

theorem units_eq_zero_iff (b : Word) : units b = 0 ↔ isZero b = true := by
  rw [isZero_iff, units]
  constructor
  · intro h
    by_contra hne
    exact absurd h (magUnits_pos (Nat.pos_of_ne_zero hne)).ne'
  · intro h; rw [h]; exact magUnits_zero

theorem signedUnits_eq_zero_iff (b : Word) : signedUnits b = 0 ↔ isZero b = true := by
  rw [← units_eq_zero_iff, signedUnits]
  split <;> omega

/-! ## The nearest pattern (R103) -/

/-- The nearest magnitude is the end of its bracket that is nearer, or on a tie the even one. -/
theorem nearestMag_of_bracket {v : ℝ} {lo r : Nat} (hlo : lo + 1 ≤ infMag) (h1 : (magVal lo : ℝ) ≤ v)
    (h2 : v ≤ magVal (lo + 1))
    (hr : (r = lo ∧ (v - magVal lo < magVal (lo + 1) - v ∨ v - magVal lo = magVal (lo + 1) - v ∧ lo % 2 = 0)) ∨
      (r = lo + 1 ∧ (magVal (lo + 1) - v < v - magVal lo ∨ v - magVal lo = magVal (lo + 1) - v ∧ (lo + 1) % 2 = 0))) :
    NearestMag v r := by
  have hmono := magVal_strictMono
  have hd : |v - (magVal lo : ℝ)| = v - magVal lo := abs_of_nonneg (by linarith)
  have hd' : |v - (magVal (lo + 1) : ℝ)| = magVal (lo + 1) - v := by rw [abs_sub_comm]; exact abs_of_nonneg (by linarith)
  have hfar : ∀ b, (b < lo → v - magVal lo < |v - (magVal b : ℝ)|) ∧
      (lo + 1 < b → magVal (lo + 1) - v < |v - (magVal b : ℝ)|) := by
    intro b
    constructor
    · intro hb
      have := hmono hb
      simp only at this
      rw [abs_of_nonneg (by linarith)]; linarith
    · intro hb
      have := hmono hb
      simp only at this
      rw [abs_sub_comm, abs_of_nonneg (by linarith)]; linarith
  refine ⟨by omega, fun b _ => ?_⟩
  rcases lt_trichotomy b lo with hb | rfl | hb
  · have := (hfar b).1 hb
    rcases hr with ⟨rfl, hr⟩ | ⟨rfl, hr⟩
    · rw [hd]; exact ⟨this.le, fun _ he => absurd he (by linarith)⟩
    · rw [hd']
      have : magVal (lo + 1) - v < |v - (magVal b : ℝ)| := by rcases hr with hr | ⟨hr, _⟩ <;> linarith
      exact ⟨this.le, fun _ he => absurd he (by linarith)⟩
  · rcases hr with ⟨rfl, hr⟩ | ⟨rfl, hr⟩
    · exact ⟨le_rfl, fun h => absurd rfl h⟩
    · rw [hd, hd']
      rcases hr with hr | ⟨hr, hp⟩
      · exact ⟨hr.le, fun _ he => absurd he (by linarith)⟩
      · exact ⟨by linarith, fun _ _ => hp⟩
  · rcases Nat.lt_or_ge (lo + 1) b with hb' | hb'
    · have := (hfar b).2 hb'
      rcases hr with ⟨rfl, hr⟩ | ⟨rfl, hr⟩
      · rw [hd]
        have : v - magVal r < |v - (magVal b : ℝ)| := by rcases hr with hr | ⟨hr, _⟩ <;> linarith
        exact ⟨this.le, fun _ he => absurd he (by linarith)⟩
      · rw [hd']; exact ⟨this.le, fun _ he => absurd he (by linarith)⟩
    · obtain rfl : b = lo + 1 := by omega
      rcases hr with ⟨rfl, hr⟩ | ⟨rfl, hr⟩
      · rw [hd, hd']
        rcases hr with hr | ⟨hr, hp⟩
        · exact ⟨hr.le, fun _ he => absurd he (by linarith)⟩
        · exact ⟨by linarith, fun _ _ => hp⟩
      · exact ⟨le_rfl, fun h => absurd rfl h⟩

/-- From 2^1024 on, the nearest magnitude is the virtual one. -/
theorem nearestMag_top {v : ℝ} (h : (magVal infMag : ℝ) ≤ v) : NearestMag v infMag := by
  refine ⟨le_rfl, fun b hb => ?_⟩
  have hm : (magVal b : ℝ) ≤ magVal infMag := magVal_strictMono.monotone hb
  rw [abs_of_nonneg (by linarith), abs_of_nonneg (by linarith)]
  refine ⟨by linarith, fun hne he => absurd ?_ hne⟩
  exact magVal_strictMono.injective (by linarith)

/-- At most one pattern is nearest. -/
theorem NearestMag.unique {v : ℝ} {m m' : Nat} (h : NearestMag v m) (h' : NearestMag v m') : m = m' := by
  by_contra hne
  wlog hlt : m < m' generalizing m m'
  · exact this h' h (Ne.symm hne) (by omega)
  have he : |v - (magVal m' : ℝ)| = |v - (magVal m : ℝ)| := le_antisymm (h'.2 m h.1).1 (h.2 m' h'.1).1
  have p1 := (h.2 m' h'.1).2 (Ne.symm hne) he
  have p2 := (h'.2 m h.1).2 hne he.symm
  have hmid := (h.2 (m + 1) (by have := h'.1; omega)).1
  have hmid' := (h'.2 (m + 1) (by have := h'.1; omega)).1
  have l1 : (magVal m : ℝ) < magVal (m + 1) := magVal_strictMono (by omega)
  have l2 : (magVal (m + 1) : ℝ) < magVal m' := magVal_strictMono (by omega)
  rcases abs_cases (v - (magVal m : ℝ)) with ⟨e1, _⟩ | ⟨e1, _⟩ <;>
  rcases abs_cases (v - (magVal m' : ℝ)) with ⟨e2, _⟩ | ⟨e2, _⟩ <;>
  rcases abs_cases (v - (magVal (m + 1) : ℝ)) with ⟨e3, _⟩ | ⟨e3, _⟩ <;>
  rw [e1] at he hmid <;> rw [e2] at he hmid' <;> rw [e3] at hmid hmid' <;> linarith

/-! ## The machine's rounding is the nearest pattern -/

/-- `nearestEven` is the quotient or its successor, the nearer one, on a tie the even one. -/
theorem nearestEven_cases (p d : Nat) :
    (nearestEven p d = p / d ∧ (2 * (p % d) < d ∨ 2 * (p % d) = d ∧ p / d % 2 = 0)) ∨
    (nearestEven p d = p / d + 1 ∧ (d < 2 * (p % d) ∨ 2 * (p % d) = d ∧ (p / d + 1) % 2 = 0)) := by
  unfold nearestEven
  split <;> rename_i h <;> simp only [Bool.or_eq_true, Bool.and_eq_true, decide_eq_true_eq, beq_iff_eq] at h
  · exact .inr ⟨rfl, by omega⟩
  · exact .inl ⟨rfl, by omega⟩

/-- The quotient by the spacing has 53 bits, or the spacing is the finest. -/
theorem quotient_range (n : Nat) :
    (2 ^ 52 ≤ n / 2 ^ (Nat.log2 n - 52) ∧ n / 2 ^ (Nat.log2 n - 52) < 2 ^ 53) ∨
    (Nat.log2 n - 52 = 0 ∧ n / 2 ^ (Nat.log2 n - 52) < 2 ^ 52) := by
  rcases Nat.eq_zero_or_pos n with rfl | hn
  · right; simp
  · have h1 := Nat.log2_self_le hn.ne'
    have h2 := Nat.lt_log2_self (n := n)
    rcases Nat.lt_or_ge (Nat.log2 n) 52 with h | h
    · right
      refine ⟨by omega, ?_⟩
      rw [show Nat.log2 n - 52 = 0 by omega, pow_zero, Nat.div_one]
      exact h2.trans_le (Nat.pow_le_pow_right (by omega) (by omega))
    · left
      constructor
      · rw [Nat.le_div_iff_mul_le (by positivity), ← pow_add, show 52 + (Nat.log2 n - 52) = Nat.log2 n by omega]
        exact h1
      · rw [Nat.div_lt_iff_lt_mul (by positivity), ← pow_add, show 53 + (Nat.log2 n - 52) = Nat.log2 n + 1 by omega]
        exact h2

/-- `roundMag` gives the pattern nearest to p/q units (R103). -/
theorem roundMag_nearest (p : Nat) {q : Nat} (hq : 0 < q) :
    NearestMag ((p : ℝ) / q / 2 ^ 1074) (roundMag p q) := by
  have hE : 0 < q * 2 ^ ulpExp p q := by positivity
  have hdiv : p / (q * 2 ^ ulpExp p q) = p / q / 2 ^ ulpExp p q := (Nat.div_div_eq_div_mul _ _ _).symm
  have hrange : (2 ^ 52 ≤ p / (q * 2 ^ ulpExp p q) ∧ p / (q * 2 ^ ulpExp p q) < 2 ^ 53) ∨
      (ulpExp p q = 0 ∧ p / (q * 2 ^ ulpExp p q) < 2 ^ 52) := by
    rw [hdiv]; exact quotient_range (p / q)
  set d := q * 2 ^ ulpExp p q with hd
  set c := p / d with hc
  have hcomp : magUnits (ulpExp p q * 2 ^ 52 + c) = c * 2 ^ ulpExp p q := magUnits_compose (by
    rcases hrange with h | h
    · exact .inl ⟨h.1, h.2.le⟩
    · exact .inr h)
  have hcomp' : magUnits (ulpExp p q * 2 ^ 52 + c + 1) = (c + 1) * 2 ^ ulpExp p q := by
    rw [add_assoc]
    apply magUnits_compose
    rcases hrange with h | h
    · exact .inl ⟨by omega, by omega⟩
    · rcases Nat.lt_or_ge (c + 1) (2 ^ 52) with h' | h'
      · exact .inr ⟨h.1, h'⟩
      · exact .inl ⟨h', by omega⟩
  set lo := ulpExp p q * 2 ^ 52 + c with hlo
  have hqR : (0 : ℝ) < q := by exact_mod_cast hq
  have hdR : (0 : ℝ) < d := by exact_mod_cast hE
  have hdq : (d : ℝ) = q * 2 ^ ulpExp p q := by rw [hd]; push_cast; ring
  -- the fractional part
  set r := p % d with hr
  have hp : (p : ℝ) = d * c + r := by exact_mod_cast (Nat.div_add_mod p d).symm
  have hrd : (r : ℝ) < d := by exact_mod_cast Nat.mod_lt p hE
  have hr0 : (0 : ℝ) ≤ r := by positivity
  have hlov : (magVal lo : ℝ) = (c * 2 ^ ulpExp p q : ℝ) / 2 ^ 1074 := by
    simp only [magVal]; push_cast [hcomp]; rfl
  have hhiv : (magVal (lo + 1) : ℝ) = ((c + 1) * 2 ^ ulpExp p q : ℝ) / 2 ^ 1074 := by
    simp only [magVal]; push_cast [hcomp']; rfl
  have hv : (p : ℝ) / q / 2 ^ 1074 = (c * 2 ^ ulpExp p q : ℝ) / 2 ^ 1074 + (r / q) / 2 ^ 1074 := by
    rw [hp, hdq]; field_simp
  have hgap : (2 : ℝ) ^ ulpExp p q = d / q := by rw [hdq]; field_simp
  have hlow : (p : ℝ) / q / 2 ^ 1074 - magVal lo = (r / q) / 2 ^ 1074 := by rw [hv, hlov]; exact add_sub_cancel_left _ _
  have hhigh : magVal (lo + 1) - (p : ℝ) / q / 2 ^ 1074 = ((d - r) / q) / 2 ^ 1074 := by
    rw [hv, hhiv, sub_div, ← hgap]; ring
  unfold roundMag
  rw [← hd]
  have hne := nearestEven_cases p d
  rw [← hc, ← hr] at hne
  rcases Nat.lt_or_ge lo infMag with hlt | hge
  · rw [Nat.min_eq_left (by rcases hne with ⟨h, _⟩ | ⟨h, _⟩ <;> rw [h] <;> omega)]
    have hcmp : ∀ {a b : ℝ}, a < b → a / q / 2 ^ 1074 < b / q / 2 ^ 1074 := fun h => by gcongr
    refine nearestMag_of_bracket (lo := lo) (by omega) ?_ ?_ ?_
    · have : (0 : ℝ) ≤ r / q / 2 ^ 1074 := by positivity
      linarith
    · have : (0 : ℝ) ≤ (d - r) / q / 2 ^ 1074 := by
        have : (0 : ℝ) ≤ d - r := by linarith
        positivity
      linarith
    · rw [hlow, hhigh]
      rcases hne with ⟨h, h'⟩ | ⟨h, h'⟩
      · refine .inl ⟨by omega, ?_⟩
        rcases h' with h' | ⟨h', hpar⟩
        · have : (2 * r : ℝ) < d := by exact_mod_cast h'
          exact .inl (hcmp (by linarith))
        · have : (2 * r : ℝ) = d := by exact_mod_cast h'
          exact .inr ⟨by rw [show (d - r : ℝ) = r by linarith], by omega⟩
      · refine .inr ⟨by omega, ?_⟩
        rcases h' with h' | ⟨h', hpar⟩
        · have : (d : ℝ) < 2 * r := by exact_mod_cast h'
          exact .inl (hcmp (by linarith))
        · have : (2 * r : ℝ) = d := by exact_mod_cast h'
          exact .inr ⟨by rw [show (d - r : ℝ) = r by linarith], by omega⟩
  · rw [Nat.min_eq_right (by rcases hne with ⟨h, _⟩ | ⟨h, _⟩ <;> rw [h] <;> omega)]
    apply nearestMag_top
    have h1 : (magVal infMag : ℝ) ≤ magVal lo := magVal_strictMono.monotone hge
    have : (0 : ℝ) ≤ r / q / 2 ^ 1074 := by positivity
    linarith

theorem roundMag_le (p q : Nat) : roundMag p q ≤ infMag := Nat.min_le_right _ _

/-! ## Overflow (R107) -/

theorem magVal_real {m c : Nat} (h : magUnits m = c) : (magVal m : ℝ) = (c : ℝ) / 2 ^ 1074 := by
  simp only [magVal]; push_cast [h]; rfl

theorem magVal_infMag : (magVal infMag : ℝ) = (2 : ℝ) ^ (1024 : ℤ) := by
  have h := magUnits_compose (E := 2045) (m := 2 ^ 53) (by omega)
  rw [show 2045 * 2 ^ 52 + 2 ^ 53 = infMag by rfl] at h
  rw [magVal_real h, div_eq_iff (by positivity), Nat.cast_mul, Nat.cast_pow, Nat.cast_pow, Nat.cast_ofNat,
    show (1024 : ℤ) = ((1024 : ℕ) : ℤ) by rfl, zpow_natCast, ← pow_add, ← pow_add]

/-- The magnitude below 2^1024 is MAX (R101). -/
theorem magVal_maxFinite : (magVal (infMag - 1) : ℝ) = (2 : ℝ) ^ (1024 : ℤ) - (2 : ℝ) ^ (971 : ℤ) := by
  have h := magUnits_compose (E := 2045) (m := 2 ^ 53 - 1) (by omega)
  rw [show 2045 * 2 ^ 52 + (2 ^ 53 - 1) = infMag - 1 by rfl] at h
  rw [magVal_real h, div_eq_iff (by positivity), Nat.cast_mul, Nat.cast_pow, Nat.cast_sub (by omega), Nat.cast_pow,
    Nat.cast_ofNat, Nat.cast_one, show (1024 : ℤ) = ((1024 : ℕ) : ℤ) by rfl, show (971 : ℤ) = ((971 : ℕ) : ℤ) by rfl,
    zpow_natCast, zpow_natCast, sub_mul, sub_mul, one_mul, ← pow_add, ← pow_add, ← pow_add]

theorem overflow_threshold :
    (2 - (2 : ℝ) ^ (-53 : ℤ)) * (2 : ℝ) ^ (1023 : ℤ) = ((magVal infMag : ℝ) + magVal (infMag - 1)) / 2 := by
  have h1 : (2 : ℝ) * (2 : ℝ) ^ (1023 : ℤ) = (2 : ℝ) ^ (1024 : ℤ) := by
    rw [show (1024 : ℤ) = 1 + 1023 by rfl, zpow_add₀ (by norm_num), zpow_one]
  have h2 : (2 : ℝ) ^ (-53 : ℤ) * (2 : ℝ) ^ (1023 : ℤ) = (2 : ℝ) ^ (970 : ℤ) := by
    rw [← zpow_add₀ (by norm_num)]; norm_num only
  have h3 : (2 : ℝ) ^ (971 : ℤ) = 2 * (2 : ℝ) ^ (970 : ℤ) := by
    rw [show (971 : ℤ) = 1 + 970 by rfl, zpow_add₀ (by norm_num), zpow_one]
  rw [magVal_infMag, magVal_maxFinite, sub_mul, h1, h2, h3]
  ring

/-- The nearest magnitude is the virtual one exactly where the value overflows (R107). -/
theorem NearestMag.eq_infMag_iff {v : ℝ} {m : Nat} (h : NearestMag v m) : m = infMag ↔ Overflows v := by
  have hpos : 0 < infMag := by decide
  have hlt : (magVal (infMag - 1) : ℝ) < magVal infMag := magVal_strictMono (by omega)
  rw [Overflows, overflow_threshold]
  constructor
  · rintro rfl
    by_contra hv
    have h1 := (h.2 (infMag - 1) (by omega)).1
    rcases abs_cases (v - (magVal infMag : ℝ)) with ⟨e1, _⟩ | ⟨e1, _⟩ <;>
    rcases abs_cases (v - (magVal (infMag - 1) : ℝ)) with ⟨e2, _⟩ | ⟨e2, _⟩ <;>
    rw [e1, e2] at h1 <;> linarith
  · intro hv
    by_contra hne
    have hm : m ≤ infMag - 1 := by have := h.1; omega
    have hle : (magVal m : ℝ) ≤ magVal (infMag - 1) := magVal_strictMono.monotone hm
    have h1 := h.2 infMag le_rfl
    have e2 : |v - (magVal m : ℝ)| = v - magVal m := abs_of_nonneg (by linarith)
    rw [e2] at h1
    rcases abs_cases (v - (magVal infMag : ℝ)) with ⟨e1, _⟩ | ⟨e1, _⟩
    · rw [e1] at h1; linarith
    · rw [e1] at h1
      have heq : (magVal m : ℝ) = magVal (infMag - 1) := by linarith
      have hmm : m = infMag - 1 := magVal_strictMono.injective heq
      have := h1.2 (Ne.symm hne) (by linarith)
      have hodd : (infMag - 1) % 2 = 1 := by decide
      omega

/-- A pattern's own magnitude is nearest to itself only. -/
theorem NearestMag.of_magVal {m m' : Nat} (h : NearestMag (magVal m : ℝ) m') (hm : m ≤ infMag) : m' = m := by
  have h1 := (h.2 m hm).1
  rw [sub_self, abs_zero] at h1
  have := abs_eq_zero.mp (le_antisymm h1 (abs_nonneg _))
  exact (magVal_strictMono.injective (by linarith)).symm

/-! ## Tininess (R108) -/

/-- Every real has a nearest natural number from `N` on, ties to even. -/
theorem exists_nearest_nat {y : ℝ} (hy : 0 ≤ y) :
    ∃ c : ℕ, (c = ⌊y⌋₊ ∨ c = ⌊y⌋₊ + 1) ∧
      ∀ z : ℕ, |y - c| ≤ |y - z| ∧ (z ≠ c → |y - z| = |y - c| → c % 2 = 0) := by
  have h1 := Nat.floor_le hy
  have h2 := Nat.lt_floor_add_one y
  set d := ⌊y⌋₊ with hd
  have key : ∀ z : ℕ, (z < d → y - d + 1 ≤ |y - z|) ∧ (d + 1 < z → d + 1 - y + 1 ≤ |y - z|) := by
    intro z
    constructor
    · intro hz
      have : (z : ℝ) + 1 ≤ d := by exact_mod_cast hz
      rw [abs_of_nonneg (by linarith)]; linarith
    · intro hz
      have : (d : ℝ) + 1 + 1 ≤ z := by exact_mod_cast hz
      rw [abs_sub_comm, abs_of_nonneg (by linarith)]; linarith
  have ed : |y - (d : ℝ)| = y - d := abs_of_nonneg (by linarith)
  have ed' : |y - ((d + 1 : ℕ) : ℝ)| = d + 1 - y := by
    rw [abs_sub_comm, abs_of_nonneg (by push_cast; linarith)]; push_cast; ring
  by_cases hlow : y - d < 1 / 2 ∨ (y - d = 1 / 2 ∧ d % 2 = 0)
  · refine ⟨d, .inl rfl, fun z => ?_⟩
    rw [ed]
    have hh : y - d ≤ 1 / 2 := by rcases hlow with h | h <;> linarith [h]
    rcases lt_trichotomy z d with hz | rfl | hz
    · have := (key z).1 hz
      exact ⟨by linarith, fun _ he => absurd he (by linarith)⟩
    · exact ⟨by rw [ed], fun h => absurd rfl h⟩
    · rcases Nat.lt_or_ge (d + 1) z with hz' | hz'
      · have := (key z).2 hz'
        exact ⟨by linarith, fun _ he => absurd he (by linarith)⟩
      · obtain rfl : z = d + 1 := by omega
        rw [ed']
        rcases hlow with h | h
        · exact ⟨by linarith, fun _ he => absurd he (by linarith)⟩
        · exact ⟨by linarith, fun _ _ => h.2⟩
  · refine ⟨d + 1, .inr rfl, fun z => ?_⟩
    rw [ed']
    have hh : 1 / 2 ≤ y - d := by
      by_contra hc
      exact hlow (.inl (by linarith))
    rcases lt_trichotomy z (d + 1) with hz | rfl | hz
    · rcases Nat.lt_or_ge z d with hz' | hz'
      · have := (key z).1 hz'
        exact ⟨by linarith, fun _ he => absurd he (by linarith)⟩
      · obtain rfl : z = d := by omega
        rw [ed]
        refine ⟨by linarith, fun _ he => ?_⟩
        have : ¬ d % 2 = 0 := fun hp => hlow (.inr ⟨by linarith, hp⟩)
        omega
    · exact ⟨by rw [ed'], fun h => absurd rfl h⟩
    · have := (key z).2 hz
      exact ⟨by linarith, fun _ he => absurd he (by linarith)⟩

/-- A number with 53 significant bits is a natural number of spacings 2^e, or lies below 2^52 of them. -/
theorem significand_scaled (d : ℕ) (f e : ℤ) (h1 : 2 ^ 52 ≤ d) (h2 : d < 2 ^ 53) :
    (f < e ∧ (d : ℝ) * (2 : ℝ) ^ f < 2 ^ 52 * (2 : ℝ) ^ e) ∨
    (∃ j : ℕ, f = e + j ∧ (d : ℝ) * (2 : ℝ) ^ f = ((d * 2 ^ j : ℕ) : ℝ) * (2 : ℝ) ^ e) := by
  have h2' : (d : ℝ) < 2 ^ 53 := by exact_mod_cast h2
  rcases lt_or_ge f e with hf | hf
  · refine .inl ⟨hf, ?_⟩
    have hle : (2 : ℝ) ^ f ≤ (2 : ℝ) ^ (e - 1) := zpow_le_zpow_right₀ (by norm_num) (by omega)
    have he : (2 : ℝ) ^ e = 2 * (2 : ℝ) ^ (e - 1) := by
      rw [← zpow_one_add₀ (by norm_num)]; congr 1; ring
    have hp : (0 : ℝ) < (2 : ℝ) ^ (e - 1) := by positivity
    calc (d : ℝ) * (2 : ℝ) ^ f ≤ d * (2 : ℝ) ^ (e - 1) := by gcongr
      _ < 2 ^ 53 * (2 : ℝ) ^ (e - 1) := by gcongr
      _ = 2 ^ 52 * (2 : ℝ) ^ e := by rw [he]; ring
  · obtain ⟨j, rfl⟩ := Int.le.dest hf
    refine .inr ⟨j, rfl, ?_⟩
    rw [zpow_add₀ (by norm_num), zpow_natCast]
    push_cast
    ring

/-- Every positive magnitude has a nearest number with 53 significant bits and an unbounded exponent (R107, R108). -/
theorem exists_nearestUnbounded {v : ℝ} (hv : 0 < v) : ∃ c e, NearestUnbounded v c e := by
  obtain ⟨n, hn1, hn2⟩ := exists_mem_Ico_zpow hv (one_lt_two (α := ℝ))
  set e : ℤ := n - 52 with he
  have hpe : (0 : ℝ) < (2 : ℝ) ^ e := by positivity
  have hn1' : 2 ^ 52 * (2 : ℝ) ^ e ≤ v := by
    have : (2 : ℝ) ^ n = 2 ^ 52 * (2 : ℝ) ^ e := by
      rw [he, show n = 52 + (n - 52) by ring, zpow_add₀ (by norm_num)]; norm_num
    linarith
  have hn2' : v < 2 ^ 53 * (2 : ℝ) ^ e := by
    have : (2 : ℝ) ^ (n + 1) = 2 ^ 53 * (2 : ℝ) ^ e := by
      rw [he, show n + 1 = 53 + (n - 52) by ring, zpow_add₀ (by norm_num)]; norm_num
    linarith
  set y := v / (2 : ℝ) ^ e with hy
  have hvy : v = y * (2 : ℝ) ^ e := by rw [hy]; field_simp
  have hy1 : (2 : ℝ) ^ 52 ≤ y := by rw [hy, le_div_iff₀ hpe]; exact hn1'
  have hy2 : y < (2 : ℝ) ^ 53 := by rw [hy, div_lt_iff₀ hpe]; exact hn2'
  obtain ⟨c, hc, hnear⟩ := exists_nearest_nat (y := y) (by linarith)
  have hf1 : 2 ^ 52 ≤ ⌊y⌋₊ := Nat.le_floor (by rw [Nat.cast_pow, Nat.cast_ofNat]; exact hy1)
  have hf2 : ⌊y⌋₊ < 2 ^ 53 := by rw [Nat.floor_lt (by linarith), Nat.cast_pow, Nat.cast_ofNat]; exact hy2
  have hc1 : 2 ^ 52 ≤ c := by omega
  have hc2 : c ≤ 2 ^ 53 := by omega
  have habs : ∀ z : ℝ, |v - z * (2 : ℝ) ^ e| = |y - z| * (2 : ℝ) ^ e := by
    intro z
    rw [hvy, ← sub_mul, abs_mul, abs_of_pos hpe]
  -- every competitor is at least as far as c, and a tie needs c even or the same number
  have main : ∀ (d : ℕ) (f : ℤ), 2 ^ 52 ≤ d → d < 2 ^ 53 →
      |v - (c : ℝ) * (2 : ℝ) ^ e| ≤ |v - (d : ℝ) * (2 : ℝ) ^ f| ∧
      (|v - (d : ℝ) * (2 : ℝ) ^ f| = |v - (c : ℝ) * (2 : ℝ) ^ e| → c % 2 = 0 ∨
        ∃ j : ℕ, f = e + j ∧ d * 2 ^ j = c) := by
    intro d f hd1 hd2
    rcases significand_scaled d f e hd1 hd2 with ⟨_, hlt⟩ | ⟨j, hj, heq⟩
    · have h52 := (hnear (2 ^ 52)).1
      have hfar : |v - ((2 ^ 52 : ℕ) : ℝ) * (2 : ℝ) ^ e| < |v - (d : ℝ) * (2 : ℝ) ^ f| := by
        push_cast
        rw [abs_of_nonneg (by linarith), abs_of_nonneg (by linarith)]
        linarith
      have hle : |v - (c : ℝ) * (2 : ℝ) ^ e| ≤ |v - ((2 ^ 52 : ℕ) : ℝ) * (2 : ℝ) ^ e| := by
        rw [habs, habs]; gcongr
      exact ⟨by linarith, fun h => absurd h (by linarith)⟩
    · rw [heq, habs, habs]
      have hz := hnear (d * 2 ^ j)
      refine ⟨mul_le_mul_of_nonneg_right hz.1 hpe.le, fun h => ?_⟩
      have h' : |y - ((d * 2 ^ j : ℕ) : ℝ)| = |y - (c : ℝ)| := mul_right_cancel₀ hpe.ne' h
      by_cases hne : d * 2 ^ j = c
      · exact .inr ⟨j, hj, hne⟩
      · exact .inl (hz.2 hne h')
  rcases Nat.lt_or_ge c (2 ^ 53) with hlt | hge
  · refine ⟨c, e, ⟨hc1, hlt⟩, fun d f hd1 hd2 => ?_⟩
    obtain ⟨m1, m2⟩ := main d f hd1 hd2
    refine ⟨m1, fun hne h => ?_⟩
    rcases m2 h with h | ⟨j, hj, hjc⟩
    · exact h
    · exfalso
      rcases Nat.eq_zero_or_pos j with rfl | hj0
      · simp at hjc hj; rcases hne with h | h <;> omega
      · have : 2 ≤ 2 ^ j := by calc 2 = 2 ^ 1 := rfl
                _ ≤ 2 ^ j := Nat.pow_le_pow_right (by omega) hj0
        have : 2 ^ 52 * 2 ≤ d * 2 ^ j := Nat.mul_le_mul hd1 this
        omega
  · obtain rfl : c = 2 ^ 53 := by omega
    refine ⟨2 ^ 52, e + 1, ⟨le_rfl, by omega⟩, fun d f hd1 hd2 => ?_⟩
    have hsame : ((2 ^ 52 : ℕ) : ℝ) * (2 : ℝ) ^ (e + 1) = ((2 ^ 53 : ℕ) : ℝ) * (2 : ℝ) ^ e := by
      rw [zpow_add_one₀ (by norm_num)]; push_cast; ring
    rw [hsame]
    exact ⟨(main d f hd1 hd2).1, fun _ _ => by omega⟩

/-- A positive magnitude is tiny exactly below 2^-1022 - 2^-1076 (R108). -/
theorem isTiny_iff {v : ℝ} (hv : 0 < v) : IsTiny v ↔ v < (2 : ℝ) ^ (-1022 : ℤ) - (2 : ℝ) ^ (-1076 : ℤ) := by
  set P : ℝ := ((2 ^ 53 - 1 : ℕ) : ℝ) * (2 : ℝ) ^ (-1075 : ℤ) with hP
  have e1 : (2 : ℝ) ^ (-1022 : ℤ) = 2 ^ 54 * (2 : ℝ) ^ (-1076 : ℤ) := by
    rw [show (-1022 : ℤ) = 54 + -1076 by rfl, zpow_add₀ (by norm_num)]; norm_num
  have e2 : (2 : ℝ) ^ (-1075 : ℤ) = 2 * (2 : ℝ) ^ (-1076 : ℤ) := by
    rw [show (-1075 : ℤ) = 1 + -1076 by rfl, zpow_add₀ (by norm_num)]; norm_num
  have e3 : (2 : ℝ) ^ (-1074 : ℤ) = 4 * (2 : ℝ) ^ (-1076 : ℤ) := by
    rw [show (-1074 : ℤ) = 2 + -1076 by rfl, zpow_add₀ (by norm_num)]; norm_num
  have hu : (0 : ℝ) < (2 : ℝ) ^ (-1076 : ℤ) := by positivity
  have hPu : P = (2 ^ 54 - 2) * (2 : ℝ) ^ (-1076 : ℤ) := by
    rw [hP, e2]; push_cast [show 1 ≤ 2 ^ 53 by omega]; ring
  set u := (2 : ℝ) ^ (-1076 : ℤ) with hudef
  rw [e1]
  constructor
  · rintro ⟨c, e, ⟨⟨hc1, hc2⟩, hn⟩, hlt⟩
    rw [e1] at hlt
    have hcomp := hn (2 ^ 52) (-1074) le_rfl (by omega)
    have hval : ((2 ^ 52 : ℕ) : ℝ) * (2 : ℝ) ^ (-1074 : ℤ) = 2 ^ 54 * u := by rw [e3]; push_cast; ring
    rw [hval] at hcomp
    have hce : e ≤ -1075 := by
      by_contra hcon
      have : (2 : ℝ) ^ (-1074 : ℤ) ≤ (2 : ℝ) ^ e := zpow_le_zpow_right₀ (by norm_num) (by omega)
      have h3 : ((2 ^ 52 : ℕ) : ℝ) ≤ c := by exact_mod_cast hc1
      have : ((2 ^ 52 : ℕ) : ℝ) * (2 : ℝ) ^ (-1074 : ℤ) ≤ c * (2 : ℝ) ^ e := by gcongr
      linarith
    have hcP : (c : ℝ) * (2 : ℝ) ^ e ≤ P ∧ ((c : ℝ) * (2 : ℝ) ^ e = P → c % 2 = 1) := by
      rcases eq_or_lt_of_le hce with rfl | hce
      · have : (c : ℝ) ≤ ((2 ^ 53 - 1 : ℕ) : ℝ) := by exact_mod_cast (by omega : c ≤ 2 ^ 53 - 1)
        refine ⟨by rw [hP]; gcongr, fun h => ?_⟩
        have hp : (0 : ℝ) < (2 : ℝ) ^ (-1075 : ℤ) := by positivity
        have : (c : ℝ) = ((2 ^ 53 - 1 : ℕ) : ℝ) := mul_right_cancel₀ hp.ne' (h.trans hP)
        have : c = 2 ^ 53 - 1 := by exact_mod_cast this
        omega
      · have h1 : (2 : ℝ) ^ e ≤ u := zpow_le_zpow_right₀ (by norm_num) (by omega)
        have h2 : (c : ℝ) ≤ 2 ^ 53 := by exact_mod_cast hc2.le
        have : (c : ℝ) * (2 : ℝ) ^ e ≤ 2 ^ 53 * u := by gcongr
        have hlt : 2 ^ 53 * u < P := by rw [hPu]; nlinarith
        exact ⟨by linarith, fun h => absurd h (by linarith)⟩
    by_contra hge
    have hv1 : 2 ^ 54 * u - u ≤ v := by linarith
    have ea : |v - (c : ℝ) * (2 : ℝ) ^ e| = v - c * (2 : ℝ) ^ e := abs_of_nonneg (by linarith [hcP.1])
    rw [ea] at hcomp
    have hx : (c : ℝ) * (2 : ℝ) ^ e ≤ 2 ^ 54 * u - 2 * u := by have := hcP.1; rw [hPu] at this; linarith
    have hnot : ¬ (2 ^ 52 = c ∧ (-1074 : ℤ) = e) := by rintro ⟨_, h⟩; omega
    rcases abs_cases (v - 2 ^ 54 * u) with ⟨e4, _⟩ | ⟨e4, _⟩
    · rw [e4] at hcomp; linarith [hcomp.1]
    · rw [e4] at hcomp
      have heq : (c : ℝ) * (2 : ℝ) ^ e = P := by rw [hPu]; linarith [hcomp.1]
      have hodd := hcP.2 heq
      rw [hPu] at heq
      have := hcomp.2 (by by_contra hh; push Not at hh; exact hnot hh) (by linarith [hcomp.1])
      omega
  · intro hlt
    obtain ⟨c, e, hce, hn⟩ := exists_nearestUnbounded hv
    refine ⟨c, e, ⟨hce, hn⟩, ?_⟩
    by_contra hge
    rw [e1] at hge
    have hcomp := (hn (2 ^ 53 - 1) (-1075) (by omega) (by omega)).1
    rw [← hP, hPu] at hcomp
    have ea : |v - (c : ℝ) * (2 : ℝ) ^ e| = c * (2 : ℝ) ^ e - v := by
      rw [abs_sub_comm]; exact abs_of_nonneg (by linarith)
    rw [ea] at hcomp
    rcases abs_cases (v - (2 ^ 54 - 2) * u) with ⟨e4, _⟩ | ⟨e4, _⟩ <;> rw [e4] at hcomp <;> linarith

/-- The machine's test is R108's: tiny exactly where the rounding with an unbounded exponent is below 2^-1022. -/
theorem tiny_iff {p q : Nat} (hp : 0 < p) (hq : 0 < q) :
    tiny p q = true ↔ IsTiny ((p : ℝ) / q / 2 ^ 1074) := by
  have hqR : (0 : ℝ) < q := by exact_mod_cast hq
  have hpR : (0 : ℝ) < p := by exact_mod_cast hp
  rw [isTiny_iff (by positivity), tiny, decide_eq_true_eq]
  have e1 : (2 : ℝ) ^ (-1022 : ℤ) - (2 : ℝ) ^ (-1076 : ℤ) = ((2 ^ 54 - 1 : ℕ) : ℝ) / 4 / 2 ^ 1074 := by
    rw [show (-1022 : ℤ) = 52 + -(1074 : ℕ) by rfl, show (-1076 : ℤ) = -2 + -(1074 : ℕ) by rfl,
      zpow_add₀ (by norm_num), zpow_add₀ (by norm_num), zpow_neg, zpow_natCast, ← sub_mul, div_eq_mul_inv _ ((2 : ℝ) ^ 1074)]
    congr 1
    push_cast [show 1 ≤ 2 ^ 54 by omega]
    norm_num
  rw [e1, div_lt_div_iff_of_pos_right (by positivity), div_lt_div_iff₀ hqR (by norm_num)]
  rw [mul_comm 4 p]
  exact_mod_cast Iff.rfl

/-! ## `round`, the square root, and exact values -/

theorem lt_of_le_infMag {m : Nat} (h : m ≤ infMag) : m < 2 ^ 63 := by simp only [infMag] at h; omega

theorem infMag_pos : 0 < infMag := by decide

/-- `RN` and the flags of an exact non-zero value (R103, R107, R108, R112). -/
theorem round_roundsTo (s : Bool) {p q : Nat} (hp : 0 < p) (hq : 0 < q) :
    RoundsTo (if s then -((p : ℝ) / q / 2 ^ 1074) else (p : ℝ) / q / 2 ^ 1074) (round s p q).1 (round s p q).2 := by
  have hqR : (0 : ℝ) < q := by exact_mod_cast hq
  have hpR : (0 : ℝ) < p := by exact_mod_cast hp
  have hv : (0 : ℝ) < (p : ℝ) / q / 2 ^ 1074 := by positivity
  have hn := roundMag_nearest p hq
  have hle := roundMag_le p q
  have hlt := lt_of_le_infMag hle
  have hval : (magVal (roundMag p q) : ℝ) = (p : ℝ) / q / 2 ^ 1074 ↔ magUnits (roundMag p q) * q = p := by
    rw [magVal_real rfl, div_left_inj' (by positivity), eq_div_iff hqR.ne']
    exact_mod_cast Iff.rfl
  have habs : |if s then -((p : ℝ) / q / 2 ^ 1074) else (p : ℝ) / q / 2 ^ 1074| = (p : ℝ) / q / 2 ^ 1074 := by
    split
    · rw [abs_neg, abs_of_pos hv]
    · exact abs_of_pos hv
  refine ⟨⟨?_, roundMag p q, ?_, ?_, ?_⟩, ?_, ?_, ?_, rfl⟩
  · split <;> linarith
  · rw [habs]; exact hn
  · intro h; cases s
    · rfl
    · simp only [if_true] at h; linarith
  · intro h; cases s
    · simp only [Bool.false_eq_true, if_false] at h; linarith
    · rfl
  · simp only [round, Bool.or_eq_true, beq_iff_eq, bne_iff_ne, ne_eq, isInf_withSign hlt, val_withSign hlt]
    rw [or_comm]
    refine or_congr (not_congr ?_) Iff.rfl
    rw [← hval]
    cases s
    · simp only [Bool.false_eq_true, if_false]
    · simp only [if_true, Rat.cast_neg, neg_inj]
  · rw [habs, ← hn.eq_infMag_iff]
    simp only [round, beq_iff_eq]
  · rw [habs, ← tiny_iff hp hq]
    simp only [round, Bool.and_eq_true]

/-- A representable value rounds to itself, without a flag. -/
theorem round_exact (s : Bool) {m q : Nat} (hq : 0 < q) (hm : m < infMag) :
    round s (magUnits m * q) q = (withSign s m, noFlags) := by
  have hqR : (q : ℝ) ≠ 0 := by exact_mod_cast hq.ne'
  have hn := roundMag_nearest (magUnits m * q) hq
  have hr : roundMag (magUnits m * q) q = m := by
    apply NearestMag.of_magVal _ hm.le
    rw [show (magVal m : ℝ) = ((magUnits m * q : ℕ) : ℝ) / q / 2 ^ 1074 by
      rw [magVal_real rfl]; push_cast; field_simp]
    exact hn
  simp only [round, hr, bne_self_eq_false, Bool.or_false, Bool.and_false, noFlags,
    beq_eq_false_iff_ne.mpr hm.ne]

/-- The integer square root, bit by bit. -/
theorem isqrtFrom_spec (n : Nat) : ∀ bits acc, acc * acc ≤ n → n < (acc + 2 ^ bits) * (acc + 2 ^ bits) →
    isqrtFrom n bits acc * isqrtFrom n bits acc ≤ n ∧ n < (isqrtFrom n bits acc + 1) * (isqrtFrom n bits acc + 1)
  | 0, acc, h1, h2 => ⟨h1, by simpa [isqrtFrom] using h2⟩
  | b + 1, acc, h1, h2 => by
    simp only [isqrtFrom]
    have he : acc + 2 ^ (b + 1) = acc + 2 ^ b + 2 ^ b := by rw [pow_succ]; ring
    split
    · rename_i h
      exact isqrtFrom_spec n b _ h (by rw [← he]; exact h2)
    · rename_i h
      exact isqrtFrom_spec n b _ h1 (by omega)

/-- `nearestSqrt` is the floor of √P / 2^E or its successor, the nearer one, on a tie the even one. -/
theorem nearestSqrt_cases {P : Nat} (hlow : 1074 ≤ Nat.log2 P) :
    ∃ m : Nat, 2 ^ 52 ≤ m ∧ m < 2 ^ 53 ∧
      (m : ℝ) * 2 ^ sqrtExp P ≤ Real.sqrt P ∧ Real.sqrt P < ((m : ℝ) + 1) * 2 ^ sqrtExp P ∧
      ((nearestSqrt P (sqrtExp P) = m + 1 ∧ ((2 * m + 1 : ℝ) * 2 ^ sqrtExp P < 2 * Real.sqrt P ∨
          (2 * m + 1 : ℝ) * 2 ^ sqrtExp P = 2 * Real.sqrt P ∧ m % 2 = 1)) ∨
        (nearestSqrt P (sqrtExp P) = m ∧ (2 * Real.sqrt P < (2 * m + 1 : ℝ) * 2 ^ sqrtExp P ∨
          (2 * m + 1 : ℝ) * 2 ^ sqrtExp P = 2 * Real.sqrt P ∧ m % 2 = 0))) := by
  have hP0 : P ≠ 0 := by rintro rfl; simp at hlow
  have hL1 : 2 ^ Nat.log2 P ≤ P := Nat.log2_self_le hP0
  have hL2 : P < 2 ^ (Nat.log2 P + 1) := Nat.lt_log2_self
  have hEl : sqrtExp P = Nat.log2 P / 2 - 52 := rfl
  have hns : nearestSqrt P (sqrtExp P) =
      if (2 * isqrtFrom (P / 4 ^ sqrtExp P) 53 0 + 1) ^ 2 * 4 ^ sqrtExp P < 4 * P ||
        ((2 * isqrtFrom (P / 4 ^ sqrtExp P) 53 0 + 1) ^ 2 * 4 ^ sqrtExp P == 4 * P &&
          isqrtFrom (P / 4 ^ sqrtExp P) 53 0 % 2 == 1) then isqrtFrom (P / 4 ^ sqrtExp P) 53 0 + 1
      else isqrtFrom (P / 4 ^ sqrtExp P) 53 0 := rfl
  generalize sqrtExp P = E at *
  have h4E : 4 ^ E = 2 ^ (2 * E) := by rw [pow_mul]; norm_num
  have hQ2 : P / 4 ^ E < 2 ^ 53 * 2 ^ 53 := by
    rw [Nat.div_lt_iff_lt_mul (by positivity), h4E, ← pow_add, ← pow_add]
    exact hL2.trans_le (Nat.pow_le_pow_right (by omega) (by omega))
  have hQ1 : 2 ^ 52 * 2 ^ 52 ≤ P / 4 ^ E := by
    rw [Nat.le_div_iff_mul_le (by positivity), h4E, ← pow_add, ← pow_add]
    exact le_trans (Nat.pow_le_pow_right (by omega) (by omega)) hL1
  obtain ⟨hm1, hm2⟩ := isqrtFrom_spec (P / 4 ^ E) 53 0 (by omega) (by simpa using hQ2)
  generalize isqrtFrom (P / 4 ^ E) 53 0 = m at *
  have hmlow : 2 ^ 52 ≤ m := by
    by_contra h
    have : (m + 1) * (m + 1) ≤ 2 ^ 52 * 2 ^ 52 := Nat.mul_le_mul (by omega) (by omega)
    omega
  have hmhigh : m < 2 ^ 53 := by
    by_contra h
    have : 2 ^ 53 * 2 ^ 53 ≤ m * m := Nat.mul_le_mul (by omega) (by omega)
    omega
  have hs1 : m * m * 4 ^ E ≤ P := (Nat.le_div_iff_mul_le (by positivity)).mp hm1
  have hs2 : P < (m + 1) * (m + 1) * 4 ^ E := (Nat.div_lt_iff_lt_mul (by positivity)).mp hm2
  have hx0 : 0 ≤ Real.sqrt P := Real.sqrt_nonneg _
  have hxx : Real.sqrt P ^ 2 = P := Real.sq_sqrt (by positivity)
  have hgg : ((2 : ℝ) ^ E) ^ 2 = 4 ^ E := by rw [← pow_mul, mul_comm, pow_mul]; norm_num
  have hsq : ∀ a : ℕ, ((a : ℝ) * 2 ^ E) ^ 2 = ((a * a * 4 ^ E : ℕ) : ℝ) := by
    intro a; rw [mul_pow, hgg]; push_cast; ring
  have hsq2 : (2 * Real.sqrt P) ^ 2 = ((4 * P : ℕ) : ℝ) := by rw [mul_pow, hxx]; push_cast; norm_num
  have hmidc : (2 * (m : ℝ) + 1) * 2 ^ E = ((2 * m + 1 : ℕ) : ℝ) * 2 ^ E := by push_cast; ring
  have hmid1 : (2 * m + 1) ^ 2 * 4 ^ E < 4 * P ↔ (2 * (m : ℝ) + 1) * 2 ^ E < 2 * Real.sqrt P := by
    rw [hmidc, ← sq_lt_sq₀ (a := ((2 * m + 1 : ℕ) : ℝ) * 2 ^ E) (by positivity) (by positivity), hsq, hsq2, Nat.cast_lt, sq]
  have hmid2 : (2 * m + 1) ^ 2 * 4 ^ E = 4 * P ↔ (2 * (m : ℝ) + 1) * 2 ^ E = 2 * Real.sqrt P := by
    rw [hmidc, ← sq_eq_sq₀ (a := ((2 * m + 1 : ℕ) : ℝ) * 2 ^ E) (by positivity) (by positivity), hsq, hsq2, Nat.cast_inj, sq]
  refine ⟨m, hmlow, hmhigh, ?_, ?_, ?_⟩
  · rw [← sq_le_sq₀ (by positivity) hx0, hsq, hxx]
    exact_mod_cast hs1
  · rw [show (m : ℝ) + 1 = ((m + 1 : ℕ) : ℝ) by push_cast; rfl, ← sq_lt_sq₀ hx0 (by positivity), hsq, hxx]
    exact_mod_cast hs2
  · rw [hns]
    split <;> rename_i h <;>
      simp only [Bool.or_eq_true, Bool.and_eq_true, decide_eq_true_eq, beq_iff_eq, hmid1, hmid2] at h
    · exact .inl ⟨rfl, h⟩
    · refine .inr ⟨rfl, ?_⟩
      push Not at h
      rcases h.1.lt_or_eq with h' | h'
      · exact .inl h'
      · exact .inr ⟨h'.symm, by have := h.2 h'.symm; omega⟩

theorem sqrt_units (n : Nat) :
    Real.sqrt ((n : ℝ) / 2 ^ 1074) = Real.sqrt ((n * 2 ^ 1074 : ℕ) : ℝ) / 2 ^ 1074 := by
  have h0 : (0 : ℝ) < 2 ^ 1074 := by positivity
  rw [Nat.cast_mul, Nat.cast_pow, Nat.cast_ofNat]
  generalize (2 : ℝ) ^ 1074 = D at *
  rw [eq_div_iff h0.ne']
  conv_lhs => rw [← Real.sqrt_sq h0.le, ← Real.sqrt_mul' _ (sq_nonneg _), Real.sqrt_sq h0.le]
  congr 1
  field_simp

/-- RN of the square root of a finite positive magnitude (R116). It is finite. -/
theorem sqrtMag_nearest {n : Nat} (hn : 0 < n) (hub : n ≤ 2 ^ 2098) :
    NearestMag (Real.sqrt ((n : ℝ) / 2 ^ 1074)) (sqrtMag n) ∧ sqrtMag n < infMag := by
  rw [sqrt_units]
  have hP0 : n * 2 ^ 1074 ≠ 0 := by positivity
  have hlow : 1074 ≤ Nat.log2 (n * 2 ^ 1074) := by
    rw [Nat.le_log2 hP0]
    exact Nat.le_mul_of_pos_left _ hn
  have hhigh : Nat.log2 (n * 2 ^ 1074) < 3173 := by
    rw [Nat.log2_lt hP0]
    calc n * 2 ^ 1074 ≤ 2 ^ 2098 * 2 ^ 1074 := Nat.mul_le_mul_right _ hub
      _ = 2 ^ 3172 := by rw [← pow_add]
      _ < 2 ^ 3173 := Nat.pow_lt_pow_right (by omega) (by omega)
  have hsm : sqrtMag n = sqrtExp (n * 2 ^ 1074) * 2 ^ 52 + nearestSqrt (n * 2 ^ 1074) (sqrtExp (n * 2 ^ 1074)) := rfl
  have hEl : sqrtExp (n * 2 ^ 1074) = Nat.log2 (n * 2 ^ 1074) / 2 - 52 := rfl
  rw [hsm]
  clear hsm hub hn
  generalize n * 2 ^ 1074 = P at *
  obtain ⟨m, hm1, hm2, hx1, hx2, hcases⟩ := nearestSqrt_cases hlow
  have hE : sqrtExp P ≤ 1534 := by omega
  generalize sqrtExp P = E at *
  have hlt : E * 2 ^ 52 + m + 1 < infMag := by simp only [infMag]; omega
  have hc1 : magUnits (E * 2 ^ 52 + m) = m * 2 ^ E := magUnits_compose (.inl ⟨hm1, hm2.le⟩)
  have hc2 : magUnits (E * 2 ^ 52 + m + 1) = (m + 1) * 2 ^ E := by
    rw [add_assoc]; exact magUnits_compose (.inl ⟨by omega, by omega⟩)
  have hlov := magVal_real hc1
  have hhiv := magVal_real hc2
  have hD : (0 : ℝ) < 2 ^ 1074 := by positivity
  rw [Nat.cast_mul, Nat.cast_pow, Nat.cast_ofNat] at hlov hhiv
  rw [Nat.cast_add, Nat.cast_one] at hhiv
  generalize (2 : ℝ) ^ 1074 = D at *
  generalize Real.sqrt P = x at *
  generalize (2 : ℝ) ^ E = g at *
  refine ⟨?_, ?_⟩
  swap
  · rcases hcases with ⟨h, _⟩ | ⟨h, _⟩ <;> rw [h]
    · rw [← add_assoc]; exact hlt
    · exact Nat.lt_of_succ_lt hlt
  have l1 : x / D - magVal (E * 2 ^ 52 + m) = (x - m * g) / D := by rw [hlov, sub_div]
  have l2 : magVal (E * 2 ^ 52 + m + 1) - x / D = ((m + 1) * g - x) / D := by rw [hhiv, sub_div]
  refine nearestMag_of_bracket (lo := E * 2 ^ 52 + m) hlt.le ?_ ?_ ?_
  · rw [hlov]; exact div_le_div_of_nonneg_right hx1 hD.le
  · rw [hhiv]; exact div_le_div_of_nonneg_right hx2.le hD.le
  · rw [l1, l2]
    rcases hcases with ⟨hr, h | ⟨h, hpar⟩⟩ | ⟨hr, h | ⟨h, hpar⟩⟩
    · exact .inr ⟨by omega, .inl (div_lt_div_of_pos_right (by linarith) hD)⟩
    · exact .inr ⟨by omega, .inr ⟨by rw [show x - m * g = (m + 1) * g - x by linarith], by omega⟩⟩
    · exact .inl ⟨by omega, .inl (div_lt_div_of_pos_right (by linarith) hD)⟩
    · exact .inl ⟨by omega, .inr ⟨by rw [show x - m * g = (m + 1) * g - x by linarith], by omega⟩⟩

end Sys2Proof.F64
end

