-- ==== Sys2Proof/Laws/FloatOps.lean ====
section
/-! SUPPORT. What follows from Laws/Float.lean for whole operations: values over the reals, classes of patterns,
    each arithmetic
primitive on finite operands as one rounding, sign operations, and monotone rounding. -/

namespace Sys2Proof.F64

open Sys2Proof.Machine

/-- The value of a pattern over the reals (R101). -/
theorem val_eq_real (b : Word) : (val b : ℝ) = (signedUnits b : ℝ) / 2 ^ 1074 := by
  simp only [val]; push_cast; rfl

/-- One rounding of the signed quotient z / q in units of 2^-1074, with its flags (R103, R107, R108). -/
theorem round_roundsTo_int (z : ℤ) (hz : z ≠ 0) {q : ℕ} (hq : 0 < q) :
  RoundsTo ((z : ℝ) / q / 2 ^ 1074) (round (decide (z < 0)) z.natAbs q).1 (round (decide (z < 0)) z.natAbs q).2 := by
  have h := round_roundsTo (decide (z < 0)) (Int.natAbs_pos.mpr hz) hq
  convert h using 1
  split <;> rename_i hs <;> simp only [decide_eq_true_eq] at hs
  · rw [← neg_div, ← neg_div]; congr 2
    have : ((z.natAbs : ℤ) : ℝ) = -(z:ℝ) := by rw [Int.natCast_natAbs, abs_of_neg hs]; push_cast; ring
    rw [← Int.cast_natCast, this]; ring
  · congr 2
    rw [← Int.cast_natCast, Int.natCast_natAbs, abs_of_nonneg (by omega)]

/-- A zero pattern is one of the two zeros (R100). -/
theorem eq_of_isZero {a : Word} (h : isZero a = true) : a = if sign a then 0x8000000000000000#64 else 0#64 := by
  rw [isZero_iff] at h
  have := withSign_sign a
  rw [h] at this
  rw [← this]
  cases hs : sign a <;> simp [withSign, sign]

/-- A finite pattern is no NaN and no infinity (R101). -/
theorem classes_of_isFinite {a : Word} (h : isFinite a = true) : isNaN a = false ∧ isInf a = false := by
  rcases class_cases a with ⟨_, h2, h3⟩ | ⟨h1, _, _⟩ | ⟨h1, _, _⟩
  · exact ⟨h3, h2⟩
  · rw [h] at h1; cases h1
  · rw [h] at h1; cases h1

/-- An infinity is no NaN and not finite (R101). -/
theorem classes_of_isInf {a : Word} (h : isInf a = true) : isNaN a = false ∧ isFinite a = false := by
  rcases class_cases a with ⟨_, h1, _⟩ | ⟨h1, _, h3⟩ | ⟨_, h1, _⟩
  · rw [h] at h1; cases h1
  · exact ⟨h3, h1⟩
  · rw [h] at h1; cases h1

/-- A zero is finite (R101). -/
theorem classes_of_isZero {a : Word} (h : isZero a = true) : isNaN a = false ∧ isInf a = false ∧ isFinite a = true := by
  have hf : isFinite a = true := by rw [isZero_iff] at h; rw [isFinite_iff, h]; exact infMag_pos
  exact ⟨(classes_of_isFinite hf).1, (classes_of_isFinite hf).2, hf⟩

theorem isSNaN_of_not_isNaN {a : Word} (h : isNaN a = false) : isSNaN a = false := by simp [isSNaN, h]

theorem nvIf_eq (c : Bool) : nvIf c = { nv := c } := by cases c <;> rfl

theorem two_pow_ne_zero : (2:ℝ)^1074 ≠ 0 := by positivity

theorem val_add_eq_zero_iff {a b : Word} : val a + val b = 0 ↔ signedUnits a + signedUnits b = 0 := by
  rw [val, val, ← add_div, div_eq_zero_iff]
  simp only [pow_eq_zero_iff', OfNat.ofNat_ne_zero, false_and, or_false]
  exact_mod_cast Iff.rfl

/-- The exact a·b + c as a quotient of integers. -/
theorem val_fma_eq (a b c : Word) : (val a : ℝ) * val b + val c =
    ((signedUnits a * signedUnits b + signedUnits c * 2^1074 : ℤ) : ℝ) / ((2^1074 : ℕ) : ℝ) / 2^1074 := by
  rw [val_eq_real, val_eq_real, val_eq_real, Int.cast_add, Int.cast_mul, Int.cast_mul, Int.cast_pow, Nat.cast_pow,
      Int.cast_ofNat, Nat.cast_ofNat]
  have := two_pow_ne_zero
  generalize (2:ℝ)^1074 = D at *
  field_simp

theorem val_fma_eq_zero_iff (a b c : Word) : val a * val b + val c =
    0 ↔ signedUnits a * signedUnits b + signedUnits c * 2^1074 = 0 := by
  have h : val a * val b + val c = 0 ↔ (val a : ℝ) * val b + val c = 0 := by exact_mod_cast Iff.rfl
  rw [h, val_fma_eq, div_eq_zero_iff, div_eq_zero_iff]
  have h1 : ((2^1074 : ℕ) : ℝ) ≠ 0 := by rw [Nat.cast_pow, Nat.cast_ofNat]; exact two_pow_ne_zero
  simp only [h1, two_pow_ne_zero, or_false, Int.cast_eq_zero]

/-- The adder on finite operands: an exact zero, or one rounding (R112). -/
theorem fadd_finite {a b : Word} (ha : isFinite a = true) (hb : isFinite b = true) :
   fadd a b = if signedUnits a + signedUnits b = 0 then (zero (isZero a && isZero b && sign a && sign b), noFlags)
      else round (decide (signedUnits a + signedUnits b < 0)) (signedUnits a + signedUnits b).natAbs 1 := by
  simp [fadd, (classes_of_isFinite ha).1, (classes_of_isFinite ha).2, (classes_of_isFinite hb).1,
      (classes_of_isFinite hb).2]

/-- The multiplier on finite non-zero operands: one rounding (R114). -/
theorem fmul_finite {a b : Word} (ha : isFinite a = true) (hb : isFinite b = true) (ha0 : isZero a = false)
    (hb0 : isZero b = false) :
   fmul a b = round (sign a ^^ sign b) (units a * units b) (2^1074) := by
  simp [fmul, (classes_of_isFinite ha).1, (classes_of_isFinite ha).2, (classes_of_isFinite hb).1,
      (classes_of_isFinite hb).2, ha0, hb0]

/-- The fused multiply-add on finite operands: an exact zero, or one rounding (R115). -/
theorem ffma_finite {a b c : Word} (ha : isFinite a = true) (hb : isFinite b = true) (hc : isFinite c = true) :
   ffma a b c = if signedUnits a * signedUnits b + signedUnits c * 2^1074 =
       0 then (zero ((isZero a || isZero b) && isZero c && (sign a ^^ sign b) && sign c), noFlags)
      else round (decide (signedUnits a * signedUnits b + signedUnits c * 2^1074 < 0))
          (signedUnits a * signedUnits b + signedUnits c * 2^1074).natAbs (2^1074) := by
  simp [ffma, (classes_of_isFinite ha).1, (classes_of_isFinite ha).2, (classes_of_isFinite hb).1,
      (classes_of_isFinite hb).2, (classes_of_isFinite hc).1, (classes_of_isFinite hc).2]

/-- `fneg` keeps the magnitude bits and flips the sign (R117). -/
theorem fneg_sign_and_magnitude (b : Word) : (fneg b).toNat % 2^63 = b.toNat % 2^63 ∧ sign (fneg b) = !sign b := by
  have h1 : fneg b = withSign (!sign b) (b.toNat % 2^63) := by
    apply BitVec.eq_of_getLsbD_eq
    intro i hi
    simp only [fneg, BitVec.getLsbD_xor]
    have hb := congrArg (fun x => BitVec.getLsbD x i) (withSign_sign b)
    have hw : ∀ s, (withSign s (b.toNat % 2^63)).getLsbD i = if i = 63 then s else b.getLsbD i := by
      intro s
      rw [← BitVec.testBit_toNat, toNat_withSign (Nat.mod_lt _ (by positivity)), ← BitVec.testBit_toNat]
      rcases eq_or_ne i 63 with rfl | hne
      · cases s
        · rw [if_neg (by decide), if_pos rfl, zero_add, Nat.testBit_mod_two_pow]; simp
        · rw [if_pos rfl, if_pos rfl, Nat.testBit_two_pow_add_eq, Nat.testBit_mod_two_pow]; simp
      · have hi' : i < 63 := by omega
        cases s
        · rw [if_neg (by decide), if_neg hne, zero_add, Nat.testBit_mod_two_pow]; simp [hi']
        · rw [if_pos rfl, if_neg hne, Nat.testBit_two_pow_add_gt hi', Nat.testBit_mod_two_pow]; simp [hi']
    rw [hw]
    have hc : ∀ i < 64, (0x8000000000000000#64).getLsbD i = decide (i = 63) := by decide
    rw [hc i hi]
    split
    · rename_i h; subst h; simp [sign]
    · simp [*]
  have hlt : b.toNat % 2^63 < 2^63 := Nat.mod_lt _ (by positivity)
  rw [h1]
  exact ⟨mag_withSign hlt, sign_withSign hlt⟩

/-- `fneg` keeps the class and negates the value (R117). -/
theorem fneg_classes (b : Word) : isFinite (fneg b) = isFinite b ∧ isNaN (fneg b) = isNaN b ∧
    isInf (fneg b) = isInf b ∧ isZero (fneg b) = isZero b ∧ signedUnits (fneg b) = - signedUnits b ∧
        val (fneg b) = - val b := by
  have h := fneg_sign_and_magnitude b
  have hs : signedUnits (fneg b) = - signedUnits b := by
    simp only [signedUnits, units, h.1, h.2]; cases sign b <;> simp
  refine ⟨?_, ?_, ?_, ?_, hs, ?_⟩
  · rw [Bool.eq_iff_iff, isFinite_iff, isFinite_iff, h.1]
  · rw [Bool.eq_iff_iff, isNaN_iff, isNaN_iff, h.1]
  · rw [Bool.eq_iff_iff, isInf_iff, isInf_iff, h.1]
  · rw [Bool.eq_iff_iff, isZero_iff, isZero_iff, h.1]
  · simp only [val, hs]; push_cast; ring

theorem magUnits_le (m : ℕ) (h : m ≤ infMag) : magUnits m ≤ 2^2098 := by
  have h1 := magUnits_compose (E := 2045) (m := 2 ^ 53) (by omega)
  rw [show 2045 * 2 ^ 52 + 2 ^ 53 = infMag by rfl, ← pow_add] at h1
  rw [show 2098 = 53 + 2045 by rfl, ← h1]
  exact magUnits_strictMono.monotone h

theorem round_nv (s p q) : (round s p q).2.nv = false := rfl

theorem isNaN_round (s p q) : isNaN (round s p q).1 = false := isNaN_withSign (roundMag_le p q)

theorem isNaN_of_isSNaN {a} : isSNaN a = true → isNaN a = true := by intro h; simp [isSNaN] at h; exact h.1

/-- Rounding to the nearest is monotone (R156). -/
theorem NearestMag.mono {v w : ℝ} {m n : Nat} (h : NearestMag v m) (h' : NearestMag w n) (hvw : v ≤ w) : m ≤ n := by
  by_contra hlt
  replace hlt := Nat.lt_of_not_le hlt
  have hab : (magVal n : ℝ) < magVal m := magVal_strictMono hlt
  have h1 := (h.2 n h'.1).1
  have h2 := (h'.2 m h.1).1
  have e1 : ((magVal n : ℝ) + magVal m) / 2 ≤ v := by
    rcases abs_cases (v - (magVal m : ℝ)) with ⟨a, _⟩ | ⟨a, _⟩ <;> rcases abs_cases (v - (magVal n : ℝ)) with ⟨b,
        _⟩ | ⟨b, _⟩ <;> linarith
  have e2 : w ≤ ((magVal n : ℝ) + magVal m) / 2 := by
    rcases abs_cases (w - (magVal m : ℝ)) with ⟨a, _⟩ | ⟨a, _⟩ <;> rcases abs_cases (w - (magVal n : ℝ)) with ⟨b,
        _⟩ | ⟨b, _⟩ <;> linarith
  have : v = w := by linarith
  subst this
  exact absurd (h.unique h') (by omega)

theorem units_one : units 0x3FF0000000000000#64 = 2^1074 := by
  have := magUnits_compose (E := 1022) (m := 2^52) (by omega)
  rw [← pow_add] at this
  simp only [units]
  rw [show (0x3FF0000000000000#64).toNat % 2^63 = 1022 * 2^52 + 2^52 by decide, this]

/-- A product with 1.0: the other operand, a NaN as the canonical one (R190). -/
theorem fmul_one (x : Word) : fmul 0x3FF0000000000000#64 x = if isNaN x = true then (canonNaN,
    {nv := isSNaN x}) else (x, noFlags) := by
  have hone : isFinite 0x3FF0000000000000#64 = true ∧ isZero 0x3FF0000000000000#64 = false ∧
      sign 0x3FF0000000000000#64 = false ∧ isNaN 0x3FF0000000000000#64 = false ∧
          isInf 0x3FF0000000000000#64 = false ∧ isSNaN 0x3FF0000000000000#64 = false := by decide
  obtain ⟨o1,o2,o3,o4,o5,o6⟩ := hone
  split
  · rename_i h; simp [fmul, h, nvIf_eq, o6]
  · rename_i h
    rcases class_cases x with hx | hx | hx
    · by_cases hz : isZero x = true
      · simp [fmul, h, o4, o5, hx, hz, o3, o2]
        conv_rhs => rw [eq_of_isZero hz]
        cases sign x <;> rfl
      · rw [fmul_finite o1 hx.1 o2 (by simpa using hz), units_one, o3, mul_comm, Bool.false_xor]
        have := round_exact (sign x) (m := x.toNat % 2^63) (q := 2^1074) (by positivity) ((isFinite_iff x).mp hx.1)
        rw [withSign_sign] at this
        exact this
    · have hz : isZero x = false := by
        rw [← Bool.not_eq_true]; intro hz; have := (classes_of_isZero hz).2.1; rw [hx.2.1] at this; cases this
      have hs : x = infinity (sign x) := by
        have h2 := (isInf_iff x).mp hx.2.1
        rw [infinity, ← h2, withSign_sign]
      simp [fmul, h, o4, o5, hx, hz, o2, o3]
      exact hs.symm
    · exact absurd hx.2.2 h

/-- A signed value that is representable rounds to itself, without a flag. -/
theorem round_signedUnits {c : Word} (hc : isFinite c = true) (h0 : signedUnits c ≠ 0) {q : Nat} (hq : 0 < q) :
   round (decide (signedUnits c < 0)) ((signedUnits c).natAbs * q) q = (c, noFlags) := by
  have h1 : decide (signedUnits c < 0) = sign c := by
    rw [signedUnits] at *; cases sign c <;> simp at * <;> omega
  have h2 : (signedUnits c).natAbs = magUnits (c.toNat % 2^63) := by
    rw [signedUnits]; split <;> simp [units]
  rw [h1, h2, round_exact _ hq ((isFinite_iff c).mp hc), withSign_sign]

end Sys2Proof.F64
end

