-- ==== Sys2Proof/Laws/Images.lean ====
section
/-! SUPPORT. What each bit of the images of CTRL, STATUS and FFLAGS is (10_state.md R25, R27, R42), so that no proof unfolds them. -/

namespace Sys2Proof.Machine

/-- A one-bit field has its one bit. -/
theorem getLsbD_bitAt (b : Bool) {i : Nat} (hi : i < 64) (j : Nat) : (bitAt b i).getLsbD j = (b && decide (j = i)) := by
  cases b
  · simp [bitAt]
  · simp only [bitAt, if_true, BitVec.getLsbD_shiftLeft, BitVec.getLsbD_one]
    by_cases e : j = i
    · simp [e, hi]
    · simp [e]; omega

/-- What each bit of CTRL reads. -/
theorem getLsbD_ctrlWord (b : Bool) (j : Nat) : (ctrlWord b).getLsbD j = (b && decide (j = 0)) :=
  getLsbD_bitAt b (by omega) j

/-- What each bit of FFLAGS reads. -/
theorem getLsbD_flagsWord (f : Flags) (j : Nat) : (flagsWord f).getLsbD j =
    (f.nx && decide (j = 0) || f.uf && decide (j = 1) || f.of && decide (j = 2) || f.nv && decide (j = 4)) := by
  simp only [flagsWord, BitVec.getLsbD_or]
  rw [getLsbD_bitAt _ (by omega), getLsbD_bitAt _ (by omega), getLsbD_bitAt _ (by omega), getLsbD_bitAt _ (by omega)]

/-- Each bit of STATUS, by the field that holds it. -/
theorem getLsbD_statusWord (st : Status) (j : Nat) : (statusWord st).getLsbD j =
    if j < 4 then (j = 0 && st.busy || j = 1 && st.done || j = 2 && st.err || j = 3 && st.ovr)
    else if j < 8 then false
    else if j < 12 then (errKindCode st.errKind).getLsbD (j - 8)
    else if j < 16 then (errStageCode st.errStage).getLsbD (j - 12)
    else if j < 24 then st.errParam.getLsbD (j - 16)
    else if j < 32 then st.lastOp.getLsbD (j - 24)
    else false := by
  simp only [statusWord, BitVec.getLsbD_append]
  by_cases h : j < 32
  · interval_cases j <;> simp
  · repeat rw [if_neg (by omega)]
    exact BitVec.getLsbD_zero

end Sys2Proof.Machine
end

