-- ==== Sys2Proof/Laws/PerInstr.lean ====
section
/-! SUPPORT. Statements made per instruction: every instruction is well formed, and its command word decodes to it. -/

namespace Sys2Proof

/-- Every instruction's fields are legal (R82): an instruction has no operands, so none is ill formed. -/
theorem Instr.wellFormed_all (i : Instr) : i.WellFormed := by cases i <;> decide

namespace Laws.RoundTrip

/-- The word of an instruction has legal fields, and the decoder reads the instruction back from it. -/
def Statement (i : Instr) : Prop := i.WellFormed ∧ decode (encode i) = some i

theorem fir : Statement .fir := by unfold Statement; decide
theorem dft : Statement .dft := by unfold Statement; decide
theorem freqmap : Statement .freqmap := by unfold Statement; decide
theorem freqmapFold : Statement .freqmapFold := by unfold Statement; decide
theorem mag : Statement .mag := by unfold Statement; decide
theorem halfspec : Statement .halfspec := by unfold Statement; decide
theorem fadd : Statement .fadd := by unfold Statement; decide
theorem fsub : Statement .fsub := by unfold Statement; decide
theorem fmul : Statement .fmul := by unfold Statement; decide
theorem fma : Statement .fma := by unfold Statement; decide

end Laws.RoundTrip

end Sys2Proof
end

