-- ==== Sys2Proof/Laws/Step.lean ====
section
/-! SUPPORT. The step in the terms of Safety.lean: what each access of the host does,
    and every way a step can change the state. -/

namespace Sys2Proof.Machine

@[simp] theorem afterAccess_status (r l) (s : State) : (afterAccess r l s).status = s.status := rfl
@[simp] theorem afterAccess_pending (r l) (s : State) : (afterAccess r l s).pending = s.pending := rfl
@[simp] theorem afterAccess_regs (r l) (s : State) : (afterAccess r l s).regs = s.regs := rfl
@[simp] theorem afterAccess_result (r l) (s : State) : (afterAccess r l s).result = s.result := rfl
@[simp] theorem afterAccess_fflags (r l) (s : State) : (afterAccess r l s).fflags = s.fflags := rfl
@[simp] theorem afterAccess_irqEn (r l) (s : State) : (afterAccess r l s).irqEn = s.irqEn := rfl
@[simp] theorem afterAccess_dmem (r l) (s : State) : (afterAccess r l s).dmem = s.dmem := rfl
@[simp] theorem afterAccess_params (r l) (s : State) : (afterAccess r l s).params = s.params := rfl
@[simp] theorem afterAccess_errInfo (r l) (s : State) : (afterAccess r l s).errInfo = s.errInfo := rfl

/-- The step of a host about to make an access. -/
theorem step_of_hostMakes {s : State} {a : BusAccess} (h : HostMakes s a) :
   step s = .next (hostAccess a (s.host.pos + 1) (takeTurn s)) := by
  obtain ⟨hw, ha⟩ := h
  rw [step, hw]
  simp only [agentTurn, hostTurn, takeTurn_host]
  cases hst : s.host.script[s.host.pos]? with
  | none => simp [hst] at ha
  | some st =>
    simp only [hst, Option.bind_some] at ha
    simp only [ha]
    cases st <;> simp_all [nextPos, stmtAccess]

theorem writeReg_takeTurn (r v s) : writeReg r v (takeTurn s) = takeTurn (writeReg r v s) := by
  cases r <;> simp only [writeReg, unlessBusy, writeCtrl] <;> (try split_ifs) <;>
      first | rfl | (rename_i h1 h2; first | exact absurd h1 h2 | exact absurd h2 h1)

theorem busWrite_takeTurn (t v s) : busWrite t v (takeTurn s) = takeTurn (busWrite t v s) := by
  cases t with
  | reg n =>
    simp only [busWrite]
    cases regOfNum n with
    | none => rfl
    | some r => exact writeReg_takeTurn r v s
  | word i =>
    simp only [busWrite, unlessBusy]
    split_ifs <;> first | rfl | (rename_i h1 h2; first | exact absurd h1 h2 | exact absurd h2 h1)

/-- A register write leaves the model's own fields. -/
theorem writeReg_frame (r v s) : (writeReg r v s).sched = s.sched ∧ (writeReg r v s).host = s.host ∧
    (writeReg r v s).draws = s.draws ∧ (writeReg r v s).params = s.params ∧ (writeReg r v s).resp = s.resp := by
  rcases writeReg_cases r v s with h | ⟨-, -, h⟩ | ⟨-, -, h⟩ | ⟨-, h⟩ | ⟨-, h⟩ | ⟨-, -, h⟩ | ⟨-, o, h⟩ | ⟨-, -,
      h⟩ <;> rw [h] <;> exact ⟨rfl,rfl,rfl,rfl,rfl⟩

/-- A bus write leaves the model's own fields. -/
theorem busWrite_frame (t v s) : (busWrite t v s).sched = s.sched ∧ (busWrite t v s).host = s.host ∧
    (busWrite t v s).draws = s.draws ∧ (busWrite t v s).params = s.params ∧ (busWrite t v s).resp = s.resp := by
  rcases busWrite_cases t v s with h | ⟨r, -, h⟩ | ⟨-, h⟩ | ⟨-, i, -, h⟩
  · rw [h]; exact ⟨rfl,rfl,rfl,rfl,rfl⟩
  · rw [h]; exact writeReg_frame _ _ _
  · rw [h]; exact ⟨rfl,rfl,rfl,rfl,rfl⟩
  · rw [h]; exact ⟨rfl,rfl,rfl,rfl,rfl⟩

/-- The step of a host about to write a mapped offset (R63, R68). -/
theorem step_of_hostWrites {s : State} {off : Offset} {v : Word} {t : BusTarget} (h : HostWrites s off v)
   (ht : busTarget s.params.dmemWords ⟨64, off, .write v⟩ = some t) :
   step s = .next (afterAccess .accepted s.host.lastRead (busWrite t v s)) := by
  rw [step_of_hostMakes h]
  obtain ⟨f1,f2,f3,f4,f5⟩ := busWrite_frame t v s
  simp only [hostAccess, busAccess, takeTurn_params, ht, busWrite_takeTurn, afterAccess, nextLastRead,
      takeTurn_host, takeTurn_draws, f1, f2, f3]
  simp only [takeTurn, f1, f2, f3]

theorem readReg_takeTurn (r s) : readReg r (takeTurn s) = readReg r s := by cases r <;> rfl

theorem busRead_takeTurn (t s) : busRead t (takeTurn s) = busRead t s := by
  cases t with
  | reg n => simp only [busRead]; cases regOfNum n <;> first | rfl | exact readReg_takeTurn _ _
  | word i => rfl

/-- The step of a host about to read a mapped offset (R63, R67). -/
theorem step_of_hostReads {s : State} {off : Offset} {t : BusTarget} (h : HostReads s off)
   (ht : busTarget s.params.dmemWords ⟨64, off, .read⟩ = some t) :
   step s = .next (afterAccess (.data (busRead t s)) (busRead t s) s) := by
  rw [step_of_hostMakes h]
  simp only [hostAccess, busAccess, takeTurn_params, ht, busRead_takeTurn, afterAccess, nextLastRead, readData]
  rfl

/-- An offset in the register window reaches its register number (R22, R60). -/
theorem busTarget_num {n : Nat} (hn : n ≤ 511) (words : Nat) (op : BusOp) : busTarget words ⟨64,
    BitVec.ofNat 32 (8*n), op⟩ = some (.reg n) := by
  have : (BitVec.ofNat 32 (8*n)).toNat = 8*n := by rw [BitVec.toNat_ofNat, Nat.mod_eq_of_lt]; omega
  simp only [busTarget, this]
  rw [if_neg (by simp), if_neg (by omega), if_pos (by omega)]
  congr 2; omega

theorem busTarget_reg (r) (words : Nat) (op : BusOp) : busTarget words ⟨64, BitVec.ofNat 32 (8*regNum r),
    op⟩ = some (.reg (regNum r)) :=
  busTarget_num (by cases r <;> decide) _ _

/-- The step of a host about to write a register. -/
theorem step_of_hostWrites_reg {s : State} {r : RegName} {v : Word} (h : HostWrites s (BitVec.ofNat 32 (8*regNum r)) v) :
   step s = .next (afterAccess .accepted s.host.lastRead (writeReg r v s)) := by
  rw [step_of_hostWrites h (busTarget_reg _ _ _)]; simp only [busWrite, regOfNum_regNum]

/-- The step of a host about to read a register. -/
theorem step_of_hostReads_reg {s : State} {r : RegName} (h : HostReads s (BitVec.ofNat 32 (8*regNum r))) :
   step s = .next (afterAccess (.data (readReg r s)) (readReg r s) s) := by
  rw [step_of_hostReads h (busTarget_reg _ _ _)]; simp only [busRead, regOfNum_regNum]

/-- The offset of a DMEM word reaches it (R60, R61). -/
theorem busTarget_dmem {words : Nat} {i : Nat} (h : i < words) (hw : words ≤ 2^24)
    (op : BusOp) : busTarget words ⟨64, BitVec.ofNat 32 (0x10000 + 8*i), op⟩ = some (.word i) := by
  have : (BitVec.ofNat 32 (0x10000 + 8*i)).toNat = 0x10000 + 8*i := by rw [BitVec.toNat_ofNat, Nat.mod_eq_of_lt]; omega
  simp only [busTarget, this]
  rw [if_neg (by simp), if_neg (by omega), if_neg (by omega), if_pos (by omega)]
  congr 2; omega

/-- The step of RST (R231). -/
theorem step_of_rst {s : State} (h : whoMoves s = .rst) : step s = .next (hardReset (takeTurn s)) := by rw [step, h]; rfl

theorem ctrl_offset : (0x008#32) = BitVec.ofNat 32 (8 * regNum .ctrl) := rfl

/-- The step of a soft reset (R232). -/
theorem step_of_softReset {s : State} {v : Word} (h : HostWrites s 0x008#32 v) (hv : v.getLsbD 1 = true) :
   step s = .next (afterAccess .accepted s.host.lastRead (softReset s)) := by
  rw [ctrl_offset] at h
  rw [step_of_hostWrites_reg h]; simp only [writeReg, writeCtrl, hv, if_true]

theorem readReg_after (r x l) (s : State) (hb : s.status.busy = false) : readReg r (afterAccess x l s) = readReg r s := by
  cases r <;> first | rfl | (simp only [readReg]; rw [show (afterAccess x l s).status.busy =
      s.status.busy from rfl, hb]; rfl)

/-- An abort changes no byte outside the regions (R233). -/
theorem byteAt_scrambleRegions_outside (d) (m : Memory) (rs : List (Nat × Nat)) (a : Nat) (h : ∀ r ∈ rs,
    ¬(wordOffset r.1 ≤ a ∧ a < wordOffset (r.1+r.2))) :
   byteAt (scrambleRegions d m rs) a = byteAt m a := by
  unfold scrambleRegions
  induction rs generalizing m with
  | nil => rfl
  | cons r rs ih =>
    rw [List.foldl_cons, ih _ (fun r hr => h r (by simp [hr]))]
    have := h r (by simp)
    exact byteAt_scrambleRegion_outside _ _ _ (by omega)

/-- An abort leaves each word as it was or as its draw (R233). -/
theorem wordAt_scrambleRegions (d) (m : Memory) (rs : List (Nat × Nat)) (k : Nat) :
   wordAt (scrambleRegions d m rs) k = wordAt m k ∨ ∃ w, Config.abortWord d k = some w ∧
       wordAt (scrambleRegions d m rs) k = some w := by
  unfold scrambleRegions
  induction rs generalizing m with
  | nil => exact .inl rfl
  | cons r rs ih =>
    rw [List.foldl_cons]
    rcases ih (scrambleRegion d m r.1 r.2) with h | h
    · rw [h, wordAt_scrambleRegion]
      split
      · cases hw : Config.abortWord d k with
        | none => left; rfl
        | some w => right; exact ⟨w, rfl, rfl⟩
      · left; rfl
    · exact .inr h

/-- What BUSY = 1 drops reaches a target whose write sets OVR alone (R70). -/
theorem drop_target {words : Nat} {off : Offset} (v : Word) (h : Droppable words off) : ∃ t, busTarget words ⟨64,
    off, .write v⟩ = some t ∧
    ∀ s : State, s.status.busy = true → busWrite t v s = setOvr s := by
  rcases h with h | ⟨h1, h2, h3⟩ | h | ⟨h1, h2, h3⟩
  · subst h; exact ⟨.reg 3, busTarget_num (n := 3) (by omega) _ _, fun s hb => by simp [busWrite, regOfNum,
      writeReg, unlessBusy, hb]⟩
  · refine ⟨.reg (off.toNat / 8), ?_, ?_⟩
    · simp only [busTarget]; rw [if_neg (by simp), if_neg (by omega), if_pos (by omega)]
    · intro s hb
      have h4 : 4 ≤ off.toNat / 8 := by omega
      have h5 : off.toNat / 8 ≤ 16 := by omega
      generalize off.toNat / 8 = n at *
      interval_cases n <;> simp [busWrite, regOfNum, writeReg, unlessBusy, hb]
  · subst h; exact ⟨.reg 18, busTarget_num (n := 18) (by omega) _ _, fun s hb => by simp [busWrite, regOfNum,
      writeReg, unlessBusy, hb]⟩
  · refine ⟨.word ((off.toNat - 0x10000)/8), ?_, fun s hb => by simp [busWrite, unlessBusy, hb]⟩
    simp only [busTarget]; rw [if_neg (by simp), if_neg (by omega), if_neg (by omega), if_pos (by omega)]

/-- The step of an engine about to perform a command (R85). -/
theorem step_of_engine {s : State} (h : EnginePerforms s) : (decode s.pending = none ∧
    step s = .next (nextDraws (raiseError illegalCommand (takeTurn s)))) ∨
    ∃ i, decode s.pending = some i ∧ step s = .next (nextDraws (finish (commandError i (takeTurn s))
        (commandEffect i (takeTurn s)) (takeTurn s))) := by
  obtain ⟨hw, hb⟩ := h
  have e : step s = engineTurn (takeTurn s) := by rw [step, hw]; rfl
  rcases engineTurn_cases (takeTurn s) with ⟨h1, h2⟩ | ⟨h1, h2, h3⟩ | ⟨h1, i, h2, h3⟩
  · simp [hb] at h1
  · exact .inl ⟨h2, e.trans h3⟩
  · exact .inr ⟨i, h2, e.trans h3⟩

/-- The ways a step can change the state: this says everything a step can do. -/
inductive StepMove (s t : State) : Prop
  | idle (hm : whoMoves s = .engine) (hb : s.status.busy = false) (e : t = takeTurn s)
  | illegal (h : EnginePerforms s) (hd : decode s.pending = none)
      (e : t = nextDraws (raiseError illegalCommand (takeTurn s)))
  | command (h : EnginePerforms s) (i : Instr) (hd : decode s.pending = some i)
      (e : t = nextDraws (finish (commandError i (takeTurn s)) (commandEffect i (takeTurn s)) (takeTurn s)))
  | rst (hm : whoMoves s = .rst) (e : t = hardReset (takeTurn s))
  | quiet (hm : whoMoves s = .host) (h : HostAgent) (r : BusResponse) (d : Nat)
      (hn : ∀ off v tg, HostWrites s off v → busTarget s.params.dmemWords ⟨64, off, .write v⟩ = some tg → False)
      (e : t = { takeTurn s with host := h, resp := r, draws := d })
  | write (off : Offset) (v : Word) (tg : BusTarget) (h : HostWrites s off v)
      (ht : busTarget s.params.dmemWords ⟨64, off, .write v⟩ = some tg)
     (e : t = afterAccess .accepted s.host.lastRead (busWrite tg v s))

/-- Every step is one of them. -/
theorem step_moves {s t : State} (h : step s = .next t) : StepMove s t := by
  rcases step_cases s with ⟨hm, e⟩ | ⟨hm, e⟩ | ⟨hm, e⟩
  · rw [e] at h
    rcases engineTurn_cases (takeTurn s) with ⟨h1, h2⟩ | ⟨h1, h2, h3⟩ | ⟨h1, i, h2, h3⟩
    · rw [h2, Host.Outcome.next.injEq] at h; exact .idle hm h1 h.symm
    · rw [h3, Host.Outcome.next.injEq] at h; exact .illegal ⟨hm, h1⟩ h2 h.symm
    · rw [h3, Host.Outcome.next.injEq] at h; exact .command ⟨hm, h1⟩ i h2 h.symm
  · rw [e, Host.Outcome.next.injEq] at h
    cases hst : s.host.script[s.host.pos]? with
    | none =>
      refine .quiet hm s.host s.resp s.draws ?_ ?_
      · intro off v tg hw _; simp [HostWrites, HostMakes, hst] at hw
      · rw [← h]; simp only [hostTurn, takeTurn_host, hst]; rfl
    | some st =>
      cases ha : stmtAccess st with
      | none =>
        refine .quiet hm { s.host with pos := nextPos s.host st } s.resp s.draws ?_ ?_
        · intro off v tg hw _; have := hw.2; rw [hst] at this; simp [ha] at this
        · rw [← h]; simp only [hostTurn, takeTurn_host, hst, ha]; rfl
      | some a =>
        have hmk : HostMakes s a := ⟨hm, by rw [hst]; simpa using ha⟩
        have hstep := step_of_hostMakes hmk
        rw [e, Host.Outcome.next.injEq, h] at hstep
        by_cases hw : ∃ off v tg, a = ⟨64, off, .write v⟩ ∧ busTarget s.params.dmemWords ⟨64, off, .write v⟩ = some tg
        · obtain ⟨off, v, tg, rfl, ht⟩ := hw
          have := step_of_hostWrites hmk ht
          rw [e, Host.Outcome.next.injEq, h] at this
          exact .write off v tg hmk ht this
        · have hb : (busAccess a (takeTurn s)).2 = takeTurn s := by
            rcases busAccess_cases a (takeTurn s) with hh | ⟨tg, v, ht, ho, hh⟩
            · exact hh
            · exfalso
              have hwid : a.width = 64 := by
                by_contra hne; simp [busTarget, hne] at ht
              apply hw
              refine ⟨a.offset, v, tg, ?_, ?_⟩
              · cases a; simp_all
              · have : a = ⟨64, a.offset, .write v⟩ := by cases a; simp_all
                rw [← this]; exact ht
          refine .quiet hm _ (busAccess a (takeTurn s)).1 (s.draws+1) ?_ (by
            rw [hstep]; simp only [hostAccess, hb]; rfl)
          intro off v tg hw2 ht2
          have := hmk.2.symm.trans hw2.2
          rw [Option.some.injEq] at this
          exact hw ⟨off, v, tg, this, ht2⟩
  · rw [e, Host.Outcome.next.injEq] at h; exact .rst hm h.symm

theorem offset_of_reg_target {words : Nat} {off : Offset} {v : Word} {r : RegName} (ht : busTarget words ⟨64, off,
    .write v⟩ = some (.reg (regNum r))) :
   off = BitVec.ofNat 32 (8 * regNum r) := by
  simp only [busTarget] at ht
  split_ifs at ht with h1 h2 h3 h4
  · simp only [Option.some.injEq, BusTarget.reg.injEq] at ht
    apply BitVec.eq_of_toNat_eq
    rw [BitVec.toNat_ofNat, ← ht, Nat.mod_eq_of_lt] <;> omega
  · cases ht

/-- The ways an accepted write can change the core, each with its offset (R26, R36, R43, R70, R84). -/
theorem busWrite_moves {s : State} {off v tg} (ht : busTarget s.params.dmemWords ⟨64, off, .write v⟩ = some tg) :
   busWrite tg v s = s ∨ 
   (off = 0x008#32 ∧ v.getLsbD 1 = false ∧ busWrite tg v s = { s with irqEn := v.getLsbD 0 }) ∨
   (off = 0x008#32 ∧ v.getLsbD 1 = true ∧ busWrite tg v s = softReset s) ∨
   (off = 0x010#32 ∧ busWrite tg v s = writeStatus v s) ∨
   (s.status.busy = true ∧ Droppable s.params.dmemWords off ∧ busWrite tg v s = setOvr s) ∨
   (s.status.busy = false ∧ off = 0x018#32 ∧ busWrite tg v s = acceptCommand v s) ∨
   (s.status.busy = false ∧ off ≠ 0x018#32 ∧ ∃ o, busWrite tg v s = { s with regs := o }) ∨
   (s.status.busy = false ∧ off = 0x090#32 ∧ busWrite tg v s = { s with fflags := flagsOfWord v }) ∨
   (s.status.busy = false ∧ off ≠ 0x018#32 ∧ ∃ i, tg = .word i ∧
       busWrite tg v s = { s with dmem := writeWord s.dmem i v }) := by
  cases tg with
  | word i =>
    have hoff : off.toNat % 8 = 0 ∧ 0x10000 ≤ off.toNat ∧ off.toNat < 0x10000 + 8 * s.params.dmemWords := by
      simp only [busTarget] at ht; split_ifs at ht <;> first | omega | cases ht
    cases hb : s.status.busy
    · refine .inr (.inr (.inr (.inr (.inr (.inr (.inr (.inr ⟨rfl, ?_, i, rfl, by simp [busWrite, unlessBusy, hb]⟩)))))))
      rintro rfl; simp at hoff
    · exact .inr (.inr (.inr (.inr (.inl ⟨rfl, .inr (.inr (.inr hoff)), by simp [busWrite, unlessBusy, hb]⟩))))
  | reg n =>
    by_cases hn : 20 ≤ n
    · left; simp only [busWrite, regOfNum_reserved hn]
    · have : ∃ r, regNum r = n := by
        have : n < 20 := by omega
        interval_cases n
        exacts [⟨.id, rfl⟩, ⟨.ctrl, rfl⟩, ⟨.status, rfl⟩, ⟨.cmd, rfl⟩, ⟨.xBase, rfl⟩, ⟨.nlen, rfl⟩, ⟨.tBase, rfl⟩,
          ⟨.tlen, rfl⟩, ⟨.yBase, rfl⟩, ⟨.reBase, rfl⟩, ⟨.imBase, rfl⟩, ⟨.fBase, rfl⟩, ⟨.mBase, rfl⟩, ⟨.fs, rfl⟩,
          ⟨.opa, rfl⟩, ⟨.opb, rfl⟩, ⟨.opc, rfl⟩, ⟨.result, rfl⟩, ⟨.fflags, rfl⟩, ⟨.errInfo, rfl⟩]
      obtain ⟨r, rfl⟩ := this
      have hoff := offset_of_reg_target ht
      subst hoff
      simp only [busWrite, regOfNum_regNum]
      cases hb : s.status.busy
      · cases r
        case ctrl => 
          cases h1 : v.getLsbD 1
          · exact .inr (.inl ⟨rfl, rfl, by simp only [writeReg, writeCtrl, h1]; rfl⟩)
          · exact .inr (.inr (.inl ⟨rfl, rfl, by simp only [writeReg, writeCtrl, h1]; rfl⟩))
        case status => exact .inr (.inr (.inr (.inl ⟨rfl, rfl⟩)))
        case id => exact .inl rfl
        case result => exact .inl rfl
        case errInfo => exact .inl rfl
        case cmd => exact .inr (.inr (.inr (.inr (.inr (.inl ⟨rfl, rfl, by simp [writeReg, unlessBusy, hb]⟩)))))
        case fflags =>
          exact .inr (.inr (.inr (.inr (.inr (.inr (.inr (.inl ⟨rfl, rfl, by simp [writeReg, unlessBusy, hb]⟩)))))))
        all_goals
          exact .inr (.inr (.inr (.inr (.inr (.inr (.inl
            ⟨rfl, by decide, _, by simp [writeReg, unlessBusy, hb]; rfl⟩))))))
      · cases r
        case ctrl => 
          cases h1 : v.getLsbD 1
          · exact .inr (.inl ⟨rfl, rfl, by simp only [writeReg, writeCtrl, h1]; rfl⟩)
          · exact .inr (.inr (.inl ⟨rfl, rfl, by simp only [writeReg, writeCtrl, h1]; rfl⟩))
        case status => exact .inr (.inr (.inr (.inl ⟨rfl, rfl⟩)))
        case id => exact .inl rfl
        case result => exact .inl rfl
        case errInfo => exact .inl rfl
        all_goals exact .inr (.inr (.inr (.inr (.inl ⟨rfl, (by simp [Droppable, regNum]), by simp [writeReg,
            unlessBusy, hb]⟩))))

end Sys2Proof.Machine
end

