-- ==== Sys2Proof/Machine/RefBin.lean ====
section
/-! DEFINITION. The reference datapath RefBin (41_spectrum.md R153): for simulators only, NOT a rule of the hardware's bits, and
used by no step of the machine. Its twiddles are arguments, and `TwiddlesOf` says which values they must have. -/

namespace Sys2Proof.Machine

/-- A twiddle: RN of the exact value, or +0.0 where that is 0 (R153). -/
def IsTwiddle (v : ℝ) (w : Word) : Prop := (v = 0 ∧ w = F64.zero false) ∨ F64.IsRN v w

/-- `TWc(N, m)` and `TWs(N, m)` for m in [0, N) (R153). -/
def TwiddlesOf (N : Nat) (twc tws : Nat → Word) : Prop :=
  ∀ m < N, IsTwiddle (Real.cos (2 * Real.pi * m / N)) (twc m) ∧ IsTwiddle (-Real.sin (2 * Real.pi * m / N)) (tws m)

/-- One accumulator of RefBin after sample n: the products are added left to right (R153). -/
def refSum (N k : Nat) (x tw : Nat → Word) : Nat → Word
  | 0 => (F64.fmul (x 0) (tw 0)).1
  | n + 1 => (F64.fadd (refSum N k x tw n) (F64.fmul (x (n + 1)) (tw (k * (n + 1) % N))).1).1

/-- `RefBin(N, xs, k)` with its twiddles (R153). -/
def refBin (twc tws : Nat → Word) (N : Nat) (xs : List Word) (k : Nat) : Word × Word :=
  (refSum N k (fun n => xs.getD n 0) twc (N - 1), refSum N k (fun n => xs.getD n 0) tws (N - 1))

end Sys2Proof.Machine
end

