-- ==== Sys2Proof/Tests/Slice0.lean ====
section
/-! SUPPORT. Tests: the smoke of WellFormed, decoding on words written from the spec's fields, vectors of 95_test_vectors.md, and
for each obligation with hypotheses a named witness that they can be met. Every expected value is the spec's. -/

namespace Sys2Proof.Tests

open Sys2Proof.Machine

/- One theorem at a time: a thread for each of these many small evaluations would not fit in memory. -/
set_option Elab.async false

/-! ## Helpers -/

/-- 1.0. -/
abbrev one : Word := 0x3FF0000000000000#64
/-- 1000.0. -/
abbrev fs1000 : Word := 0x408F400000000000#64
/-- A quiet NaN with a payload. -/
abbrev qNaN : Word := 0x7FF8000000000001#64
/-- A signalling NaN. -/
abbrev sNaN : Word := 0x7FF0000000000001#64
/-- +∞. -/
abbrev inf : Word := 0x7FF0000000000000#64
/-- −∞. -/
abbrev negInf : Word := 0xFFF0000000000000#64

/-- Consecutive words from an index. -/
def region (b : Nat) : List Word → List (Nat × Word)
  | [] => []
  | w :: ws => (b, w) :: region (b + 1) ws

/-- A memory that holds the given words. -/
def memOf (l : List (Nat × Word)) : Memory := l.foldl (fun m p => writeWord m p.1 p.2) []

/-- A command accepted over some registers and words, the engine's turn next. -/
def start (i : Instr) (r : OperandRegs) (l : List (Nat × Word)) : State :=
  { acceptCommand (encode i) { regs := r, dmem := memOf l } with sched := [.engine] }

/-- Any word accepted after reset, the engine's turn next. -/
def engineAt (w : Word) : State := { acceptCommand w .reset with sched := [.engine] }

/-- A host at one statement, its turn next. -/
def hostAt (st : HostStmt) (s : State) : State := { s with host := { script := [st] }, sched := [.host] }

/-- A host at one 64-bit write, its turn next. -/
def hostWriteAt (o : Offset) (v : Word) (s : State) : State := hostAt (.access ⟨64, o, .write v⟩) s

/-- A host at one 64-bit read, its turn next. -/
def hostReadAt (o : Offset) (s : State) : State := hostAt (.access ⟨64, o, .read⟩) s

/-- FIR accepted after reset: a state with BUSY = 1. -/
def busyState : State := acceptCommand 0x1 .reset

/-- A property of the state a meaning answers. -/
def after (r : Result) (p : State → Bool) : Bool :=
  match r with
  | .next t => p t
  | .fault _ => false
  | .refused _ => false

/-- What STATUS reads after a command. -/
def statusAfter (i : Instr) (r : OperandRegs) (l : List (Nat × Word) := []) : Word :=
  match exec i (start i r l) with
  | .next t => statusWord t.status
  | .fault _ => 0
  | .refused _ => 0

/-- The state holds these words from an index. -/
def reads (t : State) (b : Nat) (ws : List Word) : Bool := (region b ws).all fun p => wordAt t.dmem p.1 == some p.2

/-- A scalar command's RESULT, FFLAGS and STATUS. -/
def scalar (i : Instr) (a b c result flags status : Word) : Bool :=
  after (exec i (start i { opa := a, opb := b, opc := c } [])) fun t =>
    t.result == result && flagsWord t.fflags == flags && statusWord t.status == status

/-! ## WellFormed: a smoke test with an ill-formed term for each check (R82) -/

theorem test_wellFormed_refuses_unlisted_op : ¬CmdFields.WellFormed ⟨0x06, false, 0⟩ ∧ CmdFields.rsvZero ⟨0x06, false, 0⟩ ∧
    CmdFields.foldAllowed ⟨0x06, false, 0⟩ := by decide

theorem test_wellFormed_refuses_reserved_bits : ¬CmdFields.WellFormed ⟨0x03, true, 8⟩ ∧ CmdFields.opListed ⟨0x03, true, 8⟩ ∧
    CmdFields.foldAllowed ⟨0x03, true, 8⟩ := by decide

theorem test_wellFormed_refuses_fold : ¬CmdFields.WellFormed ⟨0x01, true, 0⟩ ∧ CmdFields.opListed ⟨0x01, true, 0⟩ ∧
    CmdFields.rsvZero ⟨0x01, true, 0⟩ := by decide

/-! ## Decoding: each constructor's word, written field by field from R80 and R81 (RSV, FOLD, OP) -/

theorem test_decode_fir : decode (0#55 ++ (0#1 ++ 0x01#8)) = some .fir := by decide
theorem test_decode_dft : decode (0#55 ++ (0#1 ++ 0x02#8)) = some .dft := by decide
theorem test_decode_freqmap : decode (0#55 ++ (0#1 ++ 0x03#8)) = some .freqmap := by decide
theorem test_decode_freqmapFold : decode (0#55 ++ (1#1 ++ 0x03#8)) = some .freqmapFold := by decide
theorem test_decode_mag : decode (0#55 ++ (0#1 ++ 0x04#8)) = some .mag := by decide
theorem test_decode_halfspec : decode (0#55 ++ (0#1 ++ 0x05#8)) = some .halfspec := by decide
theorem test_decode_fadd : decode (0#55 ++ (0#1 ++ 0x10#8)) = some .fadd := by decide
theorem test_decode_fsub : decode (0#55 ++ (0#1 ++ 0x11#8)) = some .fsub := by decide
theorem test_decode_fmul : decode (0#55 ++ (0#1 ++ 0x12#8)) = some .fmul := by decide
theorem test_decode_fma : decode (0#55 ++ (0#1 ++ 0x13#8)) = some .fma := by decide

/-- Bits 9 and 63 are reserved (R80), and FOLD goes with FREQMAP only. -/
theorem test_decode_illegal : decode (1#55 ++ (0#1 ++ 0x03#8)) = none ∧ decode (1#1 ++ (0#54 ++ (0#1 ++ 0x01#8))) = none ∧
    decode (0#55 ++ (1#1 ++ 0x10#8)) = none := by decide

theorem test_decodeTableWord : decodeTableWord 64 0x103 = some .freqmapFold ∧ decodeTableWord 16 0x10103 = some .freqmapFold ∧
    decodeTableWord 64 0x14 = none := by decide

/-! ## Vectors of 95_test_vectors.md, at most two per command -/

theorem test_fadd_overflow : scalar .fadd 0x7FEFFFFFFFFFFFFF 0x7FEFFFFFFFFFFFFF 0 0x7FF0000000000000 0x05 0x10000002 = true := by
  decide +kernel
theorem test_fadd_tie : scalar .fadd 0x3FF0000000000000 0x3CA0000000000000 0 0x3FF0000000000000 0x01 0x10000002 = true := by
  decide +kernel
theorem test_fsub_zero_sign : scalar .fsub 0x8000000000000000 0 0 0x8000000000000000 0x00 0x11000002 = true := by decide +kernel
theorem test_fsub_order : scalar .fsub 0x3FB999999999999A 0x3FD3333333333333 0 0xBFC9999999999999 0x00 0x11000002 = true := by
  decide +kernel
theorem test_fmul_tiny : scalar .fmul 0x0010000000000000 0x3FEFFFFFFFFFFFFF 0 0x0010000000000000 0x03 0x12000002 = true := by
  decide +kernel
theorem test_fmul_not_tiny : scalar .fmul 0x0010000000000001 0x3FEFFFFFFFFFFFFF 0 0x0010000000000000 0x01 0x12000002 = true := by
  decide +kernel
theorem test_fma_single_rounding : scalar .fma 0x3FF0000000400000 0x3FF0000000400000 0xBFF0000000800000
    0x3C30000000000000 0x00 0x13000002 = true := by decide +kernel
theorem test_fma_invalid_over_quiet : scalar .fma 0 inf qNaN 0x7FF8000000000000 0x10 0x13000002 = true := by decide +kernel

/-- FIR-6's layout and data. -/
def fir6 : State := start .fir { xBase := 0, nlen := 2, tBase := 100, tlen := 3, yBase := 200 }
  (region 0 [0x3FF0000000400000, 0xBFF0000000800000] ++ region 100 [0x3FF0000000000000, 0x3FF0000000400000, 0])

/-- FIR-6: unfused, the product is rounded before the sum. -/
theorem test_fir_unfused : after (exec .fir fir6) (fun t =>
    reads t 200 [0x3FF0000000400000, 0] && flagsWord t.fflags == 0x01 && statusWord t.status == 0x01000002) = true := by
  decide +kernel

/-- FIR-6 fused. -/
theorem test_fir_fused : after (exec .fir { fir6 with params := { macFused := true } }) (fun t =>
    reads t 200 [0x3FF0000000400000, 0x3C30000000000000] && flagsWord t.fflags == 0x00) = true := by decide +kernel

/-- DFT-A: one sample passes. -/
theorem test_dft_one_point : after (exec .dft (start .dft { nlen := 1, reBase := 100, imBase := 200 }
    (region 0 [0xC008000000000000]))) (fun t =>
    reads t 100 [0xC008000000000000] && reads t 200 [0] && statusWord t.status == 0x02000002) = true := by decide +kernel

/-- The finiteness scan: the first non-finite index, and nothing written. -/
theorem test_dft_finiteness : after (exec .dft (start .dft { nlen := 4, reBase := 100, imBase := 200 }
    (region 0 [0x3FF0000000000000, 0x4000000000000000, 0x7FF8000000000000, 0x7FF0000000000000]))) (fun t =>
    wordAt t.dmem 100 == none && t.errInfo == 2 && statusWord t.status == 0x02042304) = true := by decide +kernel

/-- FRQ-B: the unfolded axis. -/
theorem test_freqmap_unfolded : after (exec .freqmap (start .freqmap { nlen := 4, fBase := 100, fs := fs1000 } [])) (fun t =>
    reads t 100 [0, 0x406F400000000000, 0x407F400000000000, 0x4087700000000000] &&
    statusWord t.status == 0x03000002) = true := by decide +kernel

/-- FRQ-N: no overflow. -/
theorem test_freqmap_max : after (exec .freqmap (start .freqmap { nlen := 3, fBase := 100, fs := 0x7FEFFFFFFFFFFFFF } []))
    (fun t => reads t 100 [0, 0x7FD5555555555555, 0x7FE5555555555555]) = true := by decide +kernel

/-- FRQ-I: a tie at the Nyquist bin goes to even. -/
theorem test_freqmapFold_tie : after (exec .freqmapFold (start .freqmapFold { nlen := 4, fBase := 100, fs := 3 } [])) (fun t =>
    reads t 100 [0, 1, 0x8000000000000002, 0x8000000000000001] && statusWord t.status == 0x03000002) = true := by
  decide +kernel

/-- FRQ-C: odd N. -/
theorem test_freqmapFold_odd : after (exec .freqmapFold (start .freqmapFold { nlen := 5, fBase := 100, fs := fs1000 } []))
    (fun t => reads t 100 [0, 0x4069000000000000, 0x4079000000000000, 0xC079000000000000, 0xC069000000000000]) = true := by
  decide +kernel

/-- MAG-i, MAG-g, MAG-h, MAG-m as one command: three roundings, overflow, underflow, an exact root. -/
theorem test_mag_formula : after (exec .mag (start .mag { nlen := 4, reBase := 0, imBase := 10, mBase := 20 }
    (region 0 [0x3FF0000000000000, 0x6974E718D7D7625A, 0x16687E92154EF7AC, 0xC014000000000000] ++
      region 10 [0x3FF0000000000000, 0x6974E718D7D7625A, 0x16687E92154EF7AC, 0x4028000000000000]))) (fun t =>
    reads t 20 [0x3FF6A09E667F3BCD, 0x7FF0000000000000, 0, 0x402A000000000000] && flagsWord t.fflags == 0 &&
    statusWord t.status == 0x04000002) = true := by decide +kernel

/-- MAG-j, MAG-k, MAG-l, MAG-d: the order of the special cases. -/
theorem test_mag_special : after (exec .mag (start .mag { nlen := 4, reBase := 0, imBase := 10, mBase := 20 }
    (region 0 [sNaN, inf, 0x7FEFFFFFFFFFFFFF, 0x8000000000000000] ++ region 10 [0, qNaN, 0, 0xC01C000000000000]))) (fun t =>
    reads t 20 [0x7FF8000000000000, 0x7FF8000000000000, 0x7FEFFFFFFFFFFFFF, 0x401C000000000000]) = true := by decide +kernel

/-- HLF-a. -/
theorem test_halfspec_even : after (exec .halfspec (start .halfspec
    { nlen := 4, fs := fs1000, reBase := 0, imBase := 10, fBase := 20, mBase := 30 }
    (region 0 [0, 0x4000000000000000] ++ region 10 [0, 0]))) (fun t =>
    reads t 20 [0, 0x406F400000000000] && reads t 30 [0, 0x4000000000000000] && wordAt t.dmem 22 == none &&
    statusWord t.status == 0x05000002) = true := by decide +kernel

/-- HLF-c: the Nyquist bin is excluded. -/
theorem test_halfspec_two : after (exec .halfspec (start .halfspec
    { nlen := 2, fs := fs1000, reBase := 0, imBase := 10, fBase := 20, mBase := 30 }
    (region 0 [0x4008000000000000] ++ region 10 [0]))) (fun t =>
    reads t 20 [0] && reads t 30 [0x4008000000000000] && wordAt t.dmem 31 == none) = true := by decide +kernel

/-- DFT-D and DFT-F through RefBin, whose four-point twiddles are 1, 0, -1 and 0. -/
theorem test_refBin :
    let c (m : Nat) : Word := [one, 0, 0xBFF0000000000000, 0].getD m 0
    let s (m : Nat) : Word := [0, 0xBFF0000000000000, 0, one].getD m 0
    refBin c s 4 [one, 0, 0xBFF0000000000000, 0] 1 = (0x4000000000000000, 0) ∧
    refBin c s 4 [0, one, 0, 0] 1 = (0, 0xBFF0000000000000) := by decide +kernel

/-! ## The checks: each row of 95_test_vectors.md section 2.7 with its boundary (witnesses of the checks' branches) -/

theorem witness_FirChecksInOrder :
    let r : OperandRegs := { xBase := 0, nlen := 4, tBase := 100, tlen := 3, yBase := 200 }
    statusAfter .fir { r with nlen := 0, tlen := 2 } = 0x01053204 ∧ statusAfter .fir { r with tlen := 0 } = 0x01073104 ∧
    statusAfter .fir { r with tlen := 2 } = 0x01073104 ∧ statusAfter .fir { r with tlen := 1 } = 0x01000002 ∧
    statusAfter .fir { r with xBase := 8189 } = 0x01043104 ∧ statusAfter .fir { r with xBase := 8188 } = 0x01000002 ∧
    statusAfter .fir { r with tBase := 8190 } = 0x01063104 ∧ statusAfter .fir { r with tBase := 8189 } = 0x01000002 ∧
    statusAfter .fir { r with yBase := 0xFFFFFFFFFFFFFFFF } = 0x01083104 ∧
    statusAfter .fir { r with yBase := 3 } = 0x01083104 ∧ statusAfter .fir { r with yBase := 4 } = 0x01000002 ∧
    statusAfter .fir { r with yBase := 98 } = 0x01083104 ∧ statusAfter .fir { r with yBase := 103 } = 0x01000002 := by
  decide +kernel

theorem witness_DftChecksInOrder :
    let r : OperandRegs := { xBase := 0, nlen := 4, reBase := 100, imBase := 104 }
    let x := region 0 [one, one, one, one]
    statusAfter .dft { r with nlen := 0 } x = 0x02052204 ∧ statusAfter .dft { r with xBase := 8190 } x = 0x02042104 ∧
    statusAfter .dft { r with reBase := 8189 } x = 0x02092104 ∧ statusAfter .dft { r with imBase := 8192 } x = 0x020A2104 ∧
    statusAfter .dft { r with imBase := 8188 } x = 0x02000002 ∧ statusAfter .dft { r with reBase := 2 } x = 0x02092104 ∧
    statusAfter .dft { r with imBase := 1 } x = 0x020A2104 ∧ statusAfter .dft { r with imBase := 103 } x = 0x020A2104 ∧
    statusAfter .dft r x = 0x02000002 ∧ statusAfter .dft r (region 0 [one, one, 0x7FF8000000000000, inf]) = 0x02042304 := by
  decide +kernel

theorem witness_FreqmapChecksInOrder :
    let r : OperandRegs := { nlen := 4, fBase := 100, fs := fs1000 }
    statusAfter .freqmapFold { r with nlen := 0, fs := 0 } = 0x03052204 ∧
    statusAfter .freqmapFold { r with fs := 0 } = 0x030D2104 ∧ statusAfter .freqmap { r with fs := 1 } = 0x03000002 ∧
    statusAfter .freqmap { r with fs := 0xBFF0000000000000 } = 0x030D2104 ∧
    statusAfter .freqmap { r with fs := inf } = 0x030D2104 ∧ statusAfter .freqmap { r with fBase := 8189 } = 0x030B2104 ∧
    statusAfter .freqmapFold { r with fBase := 8188 } = 0x03000002 := by decide +kernel

theorem witness_MagChecksInOrder :
    let r : OperandRegs := { nlen := 4, reBase := 0, imBase := 10, mBase := 20 }
    statusAfter .mag { r with nlen := 0 } = 0x04052204 ∧ statusAfter .mag { r with reBase := 8189 } = 0x04092104 ∧
    statusAfter .mag { r with imBase := 8189 } = 0x040A2104 ∧ statusAfter .mag { r with mBase := 8189 } = 0x040C2104 ∧
    statusAfter .mag { r with mBase := 12 } = 0x040C2104 ∧ statusAfter .mag { r with mBase := 2 } = 0x040C2104 ∧
    statusAfter .mag { r with imBase := 0 } = 0x04000002 := by decide +kernel

theorem witness_HalfspecChecksInOrder :
    let r : OperandRegs := { nlen := 4, fs := fs1000, reBase := 0, imBase := 10, fBase := 20, mBase := 30 }
    statusAfter .halfspec { r with nlen := 0 } = 0x05052204 ∧
    statusAfter .halfspec { r with fs := 0xC08F400000000000 } = 0x050D2104 ∧
    statusAfter .halfspec { r with reBase := 8191 } = 0x05092104 ∧
    statusAfter .halfspec { r with reBase := 8190 } = 0x05000002 ∧
    statusAfter .halfspec { r with imBase := 8191 } = 0x050A2104 ∧
    statusAfter .halfspec { r with fBase := 8191 } = 0x050B2104 ∧
    statusAfter .halfspec { r with mBase := 8191 } = 0x050C2104 ∧
    statusAfter .halfspec { r with fBase := 11 } = 0x050B2104 ∧
    statusAfter .halfspec { r with mBase := 21 } = 0x050C2104 ∧
    statusAfter .halfspec { r with mBase := 1 } = 0x050C2104 ∧ statusAfter .halfspec r = 0x05000002 := by decide +kernel

/-! ## The bus: vectors of section 2.8 -/

/-- LC-5: FFLAGS keeps 0x17. -/
theorem test_fflags_write : after (step (hostAt (.wr .fflags 0xFFFFFFFFFFFFFFFF) .reset))
    (fun t => readReg .fflags t == 0x17) = true := by decide +kernel

/-- LC-6: CTRL keeps IRQ_EN only. -/
theorem test_ctrl_write : after (step (hostAt (.wr .ctrl 0xFFFFFFFFFFFFFFFD) .reset))
    (fun t => readReg .ctrl t == 0x1) = true := by decide +kernel

/-- P4's first failed FIR, by its fields (R27, R32, R33): the STATUS read returns 0x0107_3104. -/
theorem test_status_read : after (step (hostReadAt 0x010 { State.reset with status :=
      { err := true, errKind := .invalidParameter, errStage := .firFilter, errParam := 7, lastOp := 1 } }))
    (fun t => t.resp == .data 0x01073104 && t.host.lastRead == 0x01073104) = true := by decide +kernel

/-- P3: OF, NX and NV read 0x15 (R42). -/
theorem test_fflags_read : after (step (hostReadAt 0x090 { State.reset with fflags := { nx := true, of := true, nv := true } }))
    (fun t => t.resp == .data 0x15) = true := by decide +kernel

/-- LC-13: a write while busy is dropped. -/
theorem test_busy_write : after (step (hostAt (.wr .nlen 7) busyState))
    (fun t => t.regs.nlen == 0 && statusWord t.status == 0x01000009) = true := by decide +kernel

/-- LC-22: word 8192 is unmapped, word 8191 is DMEM. -/
theorem test_dmem_end : after (step (hostAt (.access ⟨64, 0x20000, .read⟩) .reset)) (fun t => t.resp == .busError) = true ∧
    after (step (hostAt (.access ⟨64, 0x1FFF8, .write 9⟩) .reset)) (fun t => wordAt t.dmem 8191 == some 9) = true := by
  decide +kernel

/-- An illegal word: STATUS 0x0003_1404 for 0x0, 0x0303_1404 for 0x1103. -/
theorem test_illegal_status : after (step (engineAt 0)) (fun t => statusWord t.status == 0x00031404) = true ∧
    after (step (engineAt 0x1103)) (fun t => statusWord t.status == 0x03031404) = true := by decide +kernel

/-- LC-18, through the placing of a command: FIR right after reset ends with STATUS 0x0105_3204. -/
theorem test_withFetchWord : after (step (State.withFetchWord .reset 64 0x1)) (fun t => statusWord t.status == 0x01053204) = true ∧
    after (step (State.withFetchWord .reset 64 0x10)) (fun t => statusWord t.status == 0x10000002) = true := by decide +kernel

/-! ## Witnesses: the life of a command (O4 to O9) -/

theorem witness_IllegalWordsRaise : EnginePerforms (engineAt 0x6) ∧ ¬LegalWord (engineAt 0x6).pending := by decide +kernel

theorem witness_AcceptanceSetsExactly_idle : HostWrites (hostWriteAt 0x018 0x10 .reset) 0x018 0x10 ∧
    (hostWriteAt 0x018 0x10 .reset).status.busy = false := by decide +kernel

theorem witness_AcceptanceSetsExactly_busy : HostWrites (hostWriteAt 0x018 0x10 busyState) 0x018 0x10 ∧
    (hostWriteAt 0x018 0x10 busyState).status.busy = true := by decide +kernel

theorem witness_StepRunsPendingCommand : EnginePerforms (engineAt 0x5) ∧ decode (engineAt 0x5).pending = some .halfspec ∧
    decode 0x103 = some .freqmapFold := by decide +kernel

/-- Every command has a next state here (and the implications of the table are met by FADD, whose RESULT and FFLAGS change,
and by FIR, whose NLEN is 0). -/
theorem witness_CommandsWriteOnlyTheTable :
    (∃ t, exec .fadd (start .fadd { opa := inf, opb := negInf } []) = .next t ∧
      t.result ≠ (start .fadd { opa := inf, opb := negInf } []).result ∧
      t.fflags ≠ (start .fadd { opa := inf, opb := negInf } []).fflags) ∧
    (∃ t, exec .fir busyState = .next t ∧ busyState.status.err = false ∧ t.status.err = true) ∧
    (∃ t, exec .dft (start .dft { nlen := 2, reBase := 4, imBase := 8 } (region 0 [one, inf])) = .next t ∧ t.errInfo = 1) :=
  ⟨⟨_, rfl, by decide +kernel, by decide +kernel⟩, ⟨_, rfl, by decide +kernel, by decide +kernel⟩,
    ⟨_, rfl, by decide +kernel⟩⟩

theorem witness_ReissuedErrorRecurs_fir : busyState.status.busy = true ∧ StatusConsistent busyState ∧
    FailsWith .fir busyState .invalidInput .firFilter 5 0 ∧ ∃ t, exec .fir busyState = .next t :=
  ⟨by decide, by decide, failsWith_of_commandError (e := ⟨.invalidInput, .firFilter, .nlen, 0⟩) (by decide), _, rfl⟩

/-- The finiteness error, whose samples are written. -/
def nanDft : State := start .dft { nlen := 2, reBase := 4, imBase := 8 } (region 0 [one, qNaN])

theorem witness_ReissuedErrorRecurs_dft : nanDft.status.busy = true ∧ StatusConsistent nanDft ∧
    Holds nanDft nanDft.regs.xBase nanDft.regs.nlen.toNat ([one, qNaN].getD · 0) ∧
    FailsWith .dft nanDft .numericalInstability .spectrumAnalyzer 4 1 ∧ ∃ t, exec .dft nanDft = .next t :=
  ⟨by decide +kernel, by decide +kernel, by decide +kernel,
    failsWith_of_commandError (e := ⟨.numericalInstability, .spectrumAnalyzer, .xBase, 1⟩) (by decide +kernel), _, rfl⟩

/-! ## Witnesses: floating point (O16 to O24). One line per branch of the primitive. -/

theorem witness_FaddRoundsTheExactSum :
    F64.isNaN qNaN = true ∧ (F64.isInf inf = true ∧ F64.isInf negInf = true ∧ F64.sign inf ≠ F64.sign negInf) ∧
    (F64.isInf inf = true ∧ F64.isFinite one = true) ∧
    (F64.isFinite one = true ∧ F64.val one + F64.val 0xBFF0000000000000#64 = 0) ∧
    (F64.val (0x8000000000000000#64) + F64.val (0x8000000000000000#64) = 0) ∧ F64.val one + F64.val one ≠ 0 :=
  ⟨by decide, by decide, by decide, ⟨by decide, F64.val_add_eq_zero_iff.mpr (by decide +kernel)⟩,
    F64.val_add_eq_zero_iff.mpr (by decide +kernel), fun h => absurd (F64.val_add_eq_zero_iff.mp h) (by decide +kernel)⟩

theorem witness_FsubRoundsTheExactDifference :
    F64.isFinite one = true ∧ F64.val one - F64.val one = 0 ∧ F64.val one - F64.val 0xBFF0000000000000#64 ≠ 0 :=
  ⟨by decide, sub_self _, fun h => by
    have h' := sub_eq_zero.mp h
    have : F64.val one + F64.val one = 0 := by
      rw [← F64.val_add_eq_zero_iff.mpr (show F64.signedUnits one + F64.signedUnits 0xBFF0000000000000#64 = 0 by
        decide +kernel), ← h']
    exact absurd (F64.val_add_eq_zero_iff.mp this) (by decide +kernel)⟩

theorem witness_FmulRoundsTheExactProduct :
    F64.isNaN sNaN = true ∧ (F64.isInf inf = true ∧ F64.isZero 0#64 = true) ∧
    (F64.isNaN inf = false ∧ F64.isNaN one = false ∧ F64.isZero inf = false ∧ F64.isZero one = false ∧
      F64.isInf inf = true) ∧
    (F64.isFinite one = true ∧ F64.isZero 0x8000000000000000#64 = true ∧ F64.isFinite 0x8000000000000000#64 = true) ∧
    F64.isZero one = false := by decide

theorem witness_FfmaRoundsOnce :
    F64.isNaN qNaN = true ∧ (F64.isNaN one = false ∧ F64.isZero 0#64 = true ∧ F64.isInf inf = true) ∧
    (F64.isInf inf = true ∧ F64.isInf negInf = true ∧ F64.sign negInf ≠ (F64.sign inf ^^ F64.sign one)) ∧
    F64.isFinite one = true ∧ F64.val one * F64.val one + F64.val 0xBFF0000000000000#64 = 0 ∧
    F64.val 0x8000000000000000#64 * F64.val one + F64.val 0x8000000000000000#64 = 0 ∧
    F64.val one * F64.val one + F64.val one ≠ 0 :=
  ⟨by decide, by decide, by decide, by decide, (F64.val_fma_eq_zero_iff _ _ _).mpr (by decide +kernel),
    (F64.val_fma_eq_zero_iff _ _ _).mpr (by decide +kernel),
    fun h => absurd ((F64.val_fma_eq_zero_iff _ _ _).mp h) (by decide +kernel)⟩

theorem witness_FsqrtRoundsTheExactRoot :
    F64.isNaN qNaN = true ∧ F64.isZero 0x8000000000000000#64 = true ∧
    (F64.isNaN negInf = false ∧ F64.isZero negInf = false ∧ F64.sign negInf = true) ∧
    (F64.isInf inf = true ∧ F64.sign inf = false) ∧
    (F64.isFinite 1#64 = true ∧ F64.isZero 1#64 = false ∧ F64.sign 1#64 = false) := by decide

/-- Each listed invalid operation has an instance. -/
theorem witness_InvalidOperationsAreTheListed :
    (F64.fadd inf negInf).2.nv = true ∧ (F64.fsub inf inf).2.nv = true ∧ (F64.fmul 0 inf).2.nv = true ∧
    (F64.ffma inf one negInf).2.nv = true ∧ (F64.fsqrt negInf).2.nv = true ∧ (F64.fadd one sNaN).2.nv = true := by decide

theorem witness_NanResultsAreCanonical :
    F64.isNaN (F64.fadd qNaN one).1 = true ∧ F64.isSNaN sNaN = true ∧
    (F64.isSNaN qNaN = false ∧ F64.isSNaN one = false ∧ F64.isNaN qNaN = true) ∧
    ¬(F64.isZero one = true ∧ F64.isInf qNaN = true) ∧ ¬(F64.isInf one = true ∧ F64.isZero qNaN = true) := by decide

theorem witness_ExactResultSigns :
    F64.isNaN (F64.fmul one negInf).1 = false ∧ F64.isFinite 0x8000000000000000#64 = true ∧
    F64.val 0x8000000000000000#64 + F64.val 0x8000000000000000#64 = 0 ∧
    F64.val 0x8000000000000000#64 - F64.val 0x8000000000000000#64 = 0 ∧
    F64.val 0x8000000000000000#64 * F64.val one + F64.val 0x8000000000000000#64 = 0 :=
  ⟨by decide, by decide, F64.val_add_eq_zero_iff.mpr (by decide +kernel), sub_self _,
    (F64.val_fma_eq_zero_iff _ _ _).mpr (by decide +kernel)⟩

/-- Both ends of a word. -/
theorem witness_SignOperationsTouchBit63Only : F64.fabs (0x8000000000000001#64) = 1 ∧ F64.fneg 1 = 0x8000000000000001#64 := by
  decide

/-! ## Witnesses: FIR (O25 to O28) -/

/-- Samples and taps of a small FIR. -/
def firXs : List Word := [one, 0x4000000000000000, 0x4008000000000000]
/-- Three taps. -/
def firTaps : List Word := [one, 0x3FE0000000000000, one]
/-- FIR with inputs at 0 and 100. -/
def firA : State := start .fir { xBase := 0, nlen := 3, tBase := 100, tlen := 3, yBase := 200 }
  (region 0 firXs ++ region 100 firTaps)
/-- The same FIR with other bases, and with FFLAGS already set. -/
def firB : State := { start .fir { xBase := 300, nlen := 3, tBase := 310, tlen := 3, yBase := 3 }
  (region 300 firXs ++ region 310 firTaps) with fflags := { nv := true }, draws := 5 }
/-- The first FIR with its last sample and last tap changed to NaNs. -/
def firC : State := start .fir { xBase := 0, nlen := 3, tBase := 100, tlen := 3, yBase := 200 }
  (region 0 [one, 0x4000000000000000, qNaN] ++ region 100 [one, 0x3FE0000000000000, sNaN])

/-- Ready, in both modes, at the boundary Y_BASE + N = T_BASE too. -/
theorem witness_FirAccumulatesLeftToRight : FirReady firA ∧ FirReady { firA with params := { macFused := true } } ∧
    FirReady { firA with regs := { firA.regs with yBase := 97 } } := by decide +kernel

theorem witness_FirIsDeterministic : FirReady firA ∧ FirReady firB ∧ firA.params.macFused = firB.params.macFused ∧
    firA.regs.nlen = firB.regs.nlen ∧ firA.regs.tlen = firB.regs.tlen ∧
    Holds firA firA.regs.xBase firA.regs.nlen.toNat (firXs.getD · 0) ∧
    Holds firA firA.regs.tBase firA.regs.tlen.toNat (firTaps.getD · 0) ∧
    Holds firB firB.regs.xBase firA.regs.nlen.toNat (firXs.getD · 0) ∧
    Holds firB firB.regs.tBase firA.regs.tlen.toNat (firTaps.getD · 0) ∧
    (∃ t, exec .fir firA = .next t) ∧ ∃ t, exec .fir firB = .next t :=
  ⟨by decide +kernel, by decide +kernel, by decide +kernel, by decide +kernel, by decide +kernel, by decide +kernel,
    by decide +kernel, by decide +kernel, by decide +kernel, ⟨_, rfl⟩, _, rfl⟩

theorem witness_FirIgnoresMissingHistory : FirReady firA ∧ FirReady firC ∧ firA.params.macFused = firC.params.macFused ∧
    firA.regs.nlen = firC.regs.nlen ∧ firA.regs.tlen = firC.regs.tlen ∧
    Holds firA firA.regs.xBase firA.regs.nlen.toNat (firXs.getD · 0) ∧
    Holds firA firA.regs.tBase firA.regs.tlen.toNat (firTaps.getD · 0) ∧
    Holds firC firC.regs.xBase firA.regs.nlen.toNat ([one, 0x4000000000000000, qNaN].getD · 0) ∧
    Holds firC firC.regs.tBase firA.regs.tlen.toNat ([one, 0x3FE0000000000000, sNaN].getD · 0) ∧
    (∃ t, exec .fir firA = .next t) ∧ (∃ t, exec .fir firC = .next t) ∧
    (∀ k ≤ 1, firXs.getD k 0 = [one, 0x4000000000000000, qNaN].getD k 0) ∧
    ∀ k ≤ 1, firTaps.getD k 0 = [one, 0x3FE0000000000000, sNaN].getD k 0 :=
  ⟨by decide +kernel, by decide +kernel, by decide +kernel, by decide +kernel, by decide +kernel, by decide +kernel,
    by decide +kernel, by decide +kernel, by decide +kernel, ⟨_, rfl⟩, ⟨_, rfl⟩, by decide +kernel, by decide +kernel⟩

/-- A FIR over given samples and taps. -/
def firOf (n t : Word) (x taps : List Word) : State :=
  start .fir { xBase := 0, nlen := n, tBase := 100, tlen := t, yBase := 200 } (region 0 x ++ region 100 taps)

/-- The three special cases: a unity tap over a NaN, an impulse, zero taps. -/
theorem witness_FirSpecialTaps :
    (FirReady (firOf 2 1 [qNaN, one] [one]) ∧
      Holds (firOf 2 1 [qNaN, one] [one]) 0 2 ([qNaN, one].getD · 0) ∧
      Holds (firOf 2 1 [qNaN, one] [one]) 100 1 (fun _ => one) ∧ ∃ t, exec .fir (firOf 2 1 [qNaN, one] [one]) = .next t) ∧
    (FirReady (firOf 2 3 [one, 0] firTaps) ∧ Holds (firOf 2 3 [one, 0] firTaps) 0 2 ([one, 0].getD · 0) ∧
      Holds (firOf 2 3 [one, 0] firTaps) 100 3 (firTaps.getD · 0) ∧ (∀ k < 3, F64.isFinite (firTaps.getD k 0) = true) ∧
      ∃ t, exec .fir (firOf 2 3 [one, 0] firTaps) = .next t) ∧
    (FirReady (firOf 2 1 [one, one] [0]) ∧ Holds (firOf 2 1 [one, one] [0]) 0 2 (fun _ => one) ∧
      Holds (firOf 2 1 [one, one] [0]) 100 1 (fun _ => 0) ∧ ∃ t, exec .fir (firOf 2 1 [one, one] [0]) = .next t) :=
  ⟨⟨by decide +kernel, by decide +kernel, by decide +kernel, _, rfl⟩,
    ⟨by decide +kernel, by decide +kernel, by decide +kernel, by decide +kernel, _, rfl⟩,
    ⟨by decide +kernel, by decide +kernel, by decide +kernel, _, rfl⟩⟩

/-! ## Witnesses: the spectrum commands (O29 to O37) -/

/-- A DFT over given samples, outputs at 100 and 200. -/
def dftOf (n : Word) (x : List Word) : State := start .dft { nlen := n, reBase := 100, imBase := 200 } (region 0 x)

/-- Ready for N = 1, 2 and 3: no mirror, Nyquist only, one mirrored bin. -/
theorem witness_DftWritesBins : Ready .dft (dftOf 1 firXs) ∧ Ready .dft (dftOf 2 firXs) ∧ Ready .dft (dftOf 3 firXs) := by
  unfold Ready; decide +kernel

/-- The tolerance is open, so boundedness is shown where every tolerance gives it: on zero samples, of either sign. -/
theorem witness_DftIsWithinTolerance :
    DftReady (dftOf 3 [0, 0x8000000000000000, 0]) ∧
    Holds (dftOf 3 [0, 0x8000000000000000, 0]) 0 3 ([0, 0x8000000000000000, 0].getD · 0) ∧
    (∀ n < 3, F64.isFinite (([0, 0x8000000000000000, 0] : List Word).getD n 0) = true) ∧
    BinBounded Config.dft.tol 3 ((List.range 3).map ([0, 0x8000000000000000, 0].getD · 0)) := by
  refine ⟨by decide +kernel, by decide +kernel, by decide +kernel, ?_⟩
  have h0 : F64.val 0#64 = 0 := by simp [F64.val, show F64.signedUnits 0#64 = 0 by decide +kernel]
  have h1 : F64.val 0x8000000000000000#64 = 0 := by
    simp [F64.val, show F64.signedUnits 0x8000000000000000#64 = 0 by decide +kernel]
  have hm : (0 : ℝ) < F64.val F64.maxFinite := by
    have h : (0 : ℤ) < F64.signedUnits F64.maxFinite := by decide +kernel
    rw [F64.val_eq_real]
    exact div_pos (by exact_mod_cast h) (by positivity)
  simpa [BinBounded, Finset.sum_range_succ, List.range_succ, h0, h1] using hm

/-- The same samples elsewhere in memory. -/
def dftElsewhere : State := start .dft { xBase := 50, nlen := 3, reBase := 60, imBase := 0 } (region 50 firXs)

theorem witness_DftIsAFunctionOfItsInput : Ready .dft (dftOf 3 firXs) ∧ Ready .dft dftElsewhere ∧
    (dftOf 3 firXs).regs.nlen = dftElsewhere.regs.nlen ∧ Holds (dftOf 3 firXs) 0 3 (firXs.getD · 0) ∧
    Holds dftElsewhere 50 3 (firXs.getD · 0) ∧ (∃ t, exec .dft (dftOf 3 firXs) = .next t) ∧
    ∃ t, exec .dft dftElsewhere = .next t :=
  ⟨witness_DftWritesBins.2.2, by unfold Ready; decide +kernel, by decide +kernel, by decide +kernel, by decide +kernel,
    ⟨_, rfl⟩, _, rfl⟩

/-- Registers for the frequency axis and the half spectrum. -/
def specRegs (n fs : Word) : OperandRegs := { nlen := n, fs := fs, reBase := 0, imBase := 10, fBase := 20, mBase := 30 }

/-- N = 1 and N = 4; the smallest and the largest rate; the last word of DMEM. -/
theorem witness_FreqmapWritesRoundedAxis : FreqmapReady (start .freqmap (specRegs 1 1) []) ∧
    FreqmapReady (start .freqmap (specRegs 4 0x7FEFFFFFFFFFFFFF) []) ∧
    FreqmapReady (start .freqmapFold { specRegs 4 fs1000 with fBase := 8188 } []) := by decide +kernel

/-- Both axes, with H < N. -/
theorem witness_FrequencyAxisIsOrdered : FreqmapReady (start .freqmap (specRegs 4 3) []) ∧
    (∃ t, exec .freqmap (start .freqmap (specRegs 4 3) []) = .next t) ∧
    ∃ t, exec .freqmapFold (start .freqmap (specRegs 4 3) []) = .next t :=
  ⟨by decide +kernel, ⟨_, rfl⟩, _, rfl⟩

theorem witness_MagWritesMagnitudes : MagReady (start .mag (specRegs 4 0) []) ∧
    MagReady (start .mag { specRegs 10 0 with imBase := 0, mBase := 10 } []) := by decide +kernel

/-- The pairs of the clauses, and the one-point DFT. -/
theorem witness_MagnitudeProperties : F64.isNaN qNaN = true ∧ F64.isNaN negInf = false ∧ F64.isZero 0x8000000000000000#64 = true ∧
    Ready .dft (dftOf 1 firXs) ∧ (dftOf 1 firXs).regs.nlen = 1 ∧ wordAt (dftOf 1 firXs).dmem 0 = some one ∧
    ∃ t, exec .dft (dftOf 1 firXs) = .next t :=
  ⟨by decide, by decide, by decide, witness_DftWritesBins.1, by decide +kernel, by decide +kernel, _, rfl⟩

/-- N = 1, an even N, an odd N. -/
theorem witness_HalfspecWritesPairs : HalfspecReady (start .halfspec (specRegs 1 fs1000) []) ∧
    HalfspecReady (start .halfspec (specRegs 4 fs1000) []) ∧ HalfspecReady (start .halfspec (specRegs 5 fs1000) []) := by
  decide +kernel

/-- A state ready for the three commands at once, RE and IM written. -/
def spectrumDone : State := start .halfspec (specRegs 3 fs1000) (region 0 firXs ++ region 10 firXs)

theorem witness_HalfspecAgreesWithFreqmapAndMag : HalfspecReady spectrumDone ∧ FreqmapReady spectrumDone ∧
    MagReady spectrumDone ∧ Holds spectrumDone 0 2 (firXs.getD · 0) ∧ Holds spectrumDone 10 2 (firXs.getD · 0) ∧
    (∃ t, exec .halfspec spectrumDone = .next t) ∧ (∃ t, exec .freqmapFold spectrumDone = .next t) ∧
    (∃ t, exec .freqmap spectrumDone = .next t) ∧ ∃ t, exec .mag spectrumDone = .next t :=
  ⟨by decide +kernel, by decide +kernel, by decide +kernel, by decide +kernel, by decide +kernel, ⟨_, rfl⟩, ⟨_, rfl⟩,
    ⟨_, rfl⟩, _, rfl⟩

/-! ## Witnesses: reset and abort (O38 to O40) -/

theorem witness_HardResetLeaves : whoMoves { firB with sched := [.rst] } = .rst := by decide

theorem witness_SoftResetLeaves : HostWrites (hostWriteAt 0x008 0x3 firB) 0x008 0x3 ∧ (0x3#64).getLsbD 1 = true ∧
    HostWrites (hostWriteAt 0x008 0x2 .reset) 0x008 0x2 ∧ (hostWriteAt 0x008 0x2 .reset).status.busy = false := by
  decide +kernel

/-- A ready command, one that fails its checks, and an illegal word, each pending when the soft reset comes. -/
theorem witness_AbortScramblesOnlyOutputs :
    (HostWrites (hostWriteAt 0x008 0x2 firA) 0x008 0x2 ∧ (hostWriteAt 0x008 0x2 firA).status.busy = true ∧
      decode (hostWriteAt 0x008 0x2 firA).pending = some .fir ∧ Ready .fir (hostWriteAt 0x008 0x2 firA)) ∧
    (HostWrites (hostWriteAt 0x008 0x2 busyState) 0x008 0x2 ∧ (hostWriteAt 0x008 0x2 busyState).status.busy = true ∧
      ¬Ready .fir (hostWriteAt 0x008 0x2 busyState)) ∧
    (HostWrites (hostWriteAt 0x008 0x2 (engineAt 0x6)) 0x008 0x2 ∧ (hostWriteAt 0x008 0x2 (engineAt 0x6)).status.busy = true ∧
      decode (hostWriteAt 0x008 0x2 (engineAt 0x6)).pending = none) := by
  unfold Ready; decide +kernel

/-! ## Witnesses: the register block (O41 to O49) -/

/-- A busy and an idle write, and a busy and an idle read. -/
theorem witness_StatusReadsItsFieldsAndClearsByOnes : HostWrites (hostWriteAt 0x010 0xE busyState) 0x010 0xE ∧
    HostWrites (hostWriteAt 0x010 0x0 .reset) 0x010 0x0 ∧ HostReads (hostReadAt 0x010 busyState) 0x010 ∧
    HostReads (hostReadAt 0x010 .reset) 0x010 := by decide +kernel

theorem witness_CtrlReadsIrqEnAndTakesEffect : HostWrites (hostWriteAt 0x008 0x1 busyState) 0x008 0x1 ∧ (0x1#64).getLsbD 1 = false ∧
    HostWrites (hostWriteAt 0x008 0x3 busyState) 0x008 0x3 ∧
    HostWrites (hostWriteAt 0x098 5 busyState) (BitVec.ofNat 32 (8 * regNum .errInfo)) 5 ∧
    (hostWriteAt 0x098 5 busyState).status.busy = true ∧ HostReads (hostReadAt 0x008 busyState) 0x008 := by decide +kernel

theorem witness_FflagsReadsAndKeepsFourBits : HostWrites (hostWriteAt 0x090 0xFF .reset) 0x090 0xFF ∧
    (hostWriteAt 0x090 0xFF .reset).status.busy = false ∧ HostWrites (hostWriteAt 0x090 0 busyState) 0x090 0 ∧
    (hostWriteAt 0x090 0 busyState).status.busy = true ∧ HostReads (hostReadAt 0x090 .reset) 0x090 ∧
    (hostReadAt 0x090 .reset).status.busy = false := by decide +kernel

/-- Every register from 4 to 16. -/
theorem witness_OperandRegistersReadBack :
    ∀ r ∈ [RegName.xBase, .nlen, .tBase, .tlen, .yBase, .reBase, .imBase, .fBase, .mBase, .fs, .opa, .opb, .opc],
      4 ≤ regNum r ∧ regNum r ≤ 16 ∧
      HostWrites (hostWriteAt (BitVec.ofNat 32 (8 * regNum r)) 7 .reset) (BitVec.ofNat 32 (8 * regNum r)) 7 ∧
      (hostWriteAt (BitVec.ofNat 32 (8 * regNum r)) 7 .reset).status.busy = false := by decide +kernel

/-- CMD, registers 4 and 16, FFLAGS, the first and the last DMEM word. -/
theorem witness_BusyWritesAreDropped :
    ∀ n ∈ [0x018, 0x020, 0x080, 0x090, 0x10000, 0x1FFF8],
      HostWrites (hostWriteAt (BitVec.ofNat 32 n) 7 busyState) (BitVec.ofNat 32 n) 7 ∧
      (hostWriteAt (BitVec.ofNat 32 n) 7 busyState).status.busy = true ∧
      Droppable (hostWriteAt (BitVec.ofNat 32 n) 7 busyState).params.dmemWords (BitVec.ofNat 32 n) := by decide +kernel

/-- Register numbers 0, 17, 19, 20 and 511, in either engine state. -/
theorem witness_ReservedAndReadOnlyRegisters :
    (∀ n ∈ [0, 17, 19, 20, 511], HostWrites (hostWriteAt (BitVec.ofNat 32 (8 * n)) 5 busyState) (BitVec.ofNat 32 (8 * n)) 5) ∧
    (∀ n ∈ [20, 511], HostReads (hostReadAt (BitVec.ofNat 32 (8 * n)) .reset) (BitVec.ofNat 32 (8 * n))) := by
  decide +kernel

/-- Both sides of each edge: width, alignment, the end of the registers, the start and the end of the DMEM window. -/
theorem witness_BusErrorsChangeNothing :
    ∀ a ∈ ([⟨32, 0x10, .read⟩, ⟨64, 0x14, .read⟩, ⟨64, 0x1000, .write 5⟩, ⟨64, 0xFFF8, .read⟩, ⟨64, 0x20000, .read⟩,
        ⟨64, 0xFF8, .write 5⟩, ⟨64, 0x10000, .read⟩, ⟨64, 0x1FFF8, .write 5⟩] : List BusAccess),
      HostMakes (hostAt (.access a) .reset) a := by decide +kernel

/-- The first and the last word, written and unwritten. -/
theorem witness_DmemHoldsWhatIsWritten :
    State.reset.params.wf ∧
    (∀ i ∈ [0, 8191], i < State.reset.params.dmemWords ∧
      HostWrites (hostWriteAt (BitVec.ofNat 32 (0x10000 + 8 * i)) 7 .reset) (BitVec.ofNat 32 (0x10000 + 8 * i)) 7 ∧
      HostReads (hostReadAt (BitVec.ofNat 32 (0x10000 + 8 * i)) .reset) (BitVec.ofNat 32 (0x10000 + 8 * i)) ∧
      (hostReadAt (BitVec.ofNat 32 (0x10000 + 8 * i)) .reset).status.busy = false ∧ wordAt State.reset.dmem i = none) ∧
    wordAt (memOf [(8191, 7)]) 8191 = some 7 := by decide +kernel

/-- While busy, a DMEM word and RESULT; while idle, every register; while busy, every register but RESULT and FFLAGS. -/
theorem witness_HostReadsReturnCurrentValues :
    (∀ o ∈ ([0x10000, 0x088] : List Offset), HostMakes (hostReadAt o busyState) ⟨64, o, .read⟩ ∧
      (hostReadAt o busyState).status.busy = true ∧ ∃ t, step (hostReadAt o busyState) = .next t) ∧
    (∀ r : RegName, HostReads (hostReadAt (BitVec.ofNat 32 (8 * regNum r)) .reset) (BitVec.ofNat 32 (8 * regNum r)) ∧
      (hostReadAt (BitVec.ofNat 32 (8 * regNum r)) .reset).status.busy = false) ∧
    ∀ r : RegName, r ≠ .result → r ≠ .fflags →
      HostReads (hostReadAt (BitVec.ofNat 32 (8 * regNum r)) busyState) (BitVec.ofNat 32 (8 * regNum r)) := by
  refine ⟨fun o ho => ?_, fun r => ?_, fun r _ _ => ?_⟩
  · simp only [List.mem_cons, List.not_mem_nil, or_false] at ho
    rcases ho with rfl | rfl <;> exact ⟨by decide +kernel, by decide +kernel, _, rfl⟩
  · cases r <;> decide +kernel
  · cases r <;> decide +kernel

/-! ## Witnesses: IRQ (O50, O51) -/

/-- IRQ_EN = 1 with a command pending; and IRQ_EN written while DONE = 1. -/
theorem witness_IrqAsserts :
    (EnginePerforms { engineAt 0x10 with irqEn := true } ∧ { engineAt 0x10 with irqEn := true }.irqEn = true) ∧
    (HostWrites (hostWriteAt 0x008 0x1 { State.reset with status := { done := true } }) 0x008 0x1 ∧
      (0x1#64).getLsbD 0 = true ∧ (0x1#64).getLsbD 1 = false ∧
      (hostWriteAt 0x008 0x1 { State.reset with status := { done := true } }).status.done = true) := by decide +kernel

/-- A state with IRQ asserted. -/
def irqHigh : State := { State.reset with irqEn := true, status := { done := true } }

/-- IRQ falls in each of the four ways. -/
theorem witness_IrqFallsOnlyBy :
    irq irqHigh = true ∧
    (∃ t, step (hostWriteAt 0x010 0x2 irqHigh) = .next t ∧ irq t = false) ∧
    (∃ t, step (hostWriteAt 0x008 0x0 irqHigh) = .next t ∧ irq t = false) ∧
    (∃ t, step (hostWriteAt 0x018 0x10 irqHigh) = .next t ∧ irq t = false) ∧
    (∃ t, step { irqHigh with sched := [.rst] } = .next t ∧ irq t = false) :=
  ⟨by decide, ⟨_, rfl, by decide +kernel⟩, ⟨_, rfl, by decide +kernel⟩, ⟨_, rfl, by decide +kernel⟩, _, rfl,
    by decide +kernel⟩

/-! ## Witnesses: the whole machine (O52 to O60) -/

/-- A state with a command pending and words written meets the invariant and steps. -/
theorem witness_StepKeepsInvariant : State.Inv firA ∧ State.Inv nanDft ∧ (∃ t, step firA = .next t) ∧
    ∃ t, step nanDft = .next t := ⟨by decide +kernel, by decide +kernel, ⟨_, rfl⟩, _, rfl⟩

/-- BUSY rises by acceptance, falls by completion and by reset, and stays over a host's access. -/
theorem witness_BusyChangesOnlyBy :
    (∃ t, step (hostWriteAt 0x018 0x6 .reset) = .next t ∧ t.status.busy = true) ∧
    (∃ t, step firA = .next t ∧ firA.status.busy = true ∧ t.status.busy = false) ∧
    (∃ t, step { firA with sched := [.rst] } = .next t ∧ t.status.busy = false) ∧
    (∃ t, step (hostWriteAt 0x018 0x6 firA) = .next t ∧ t.status.busy = true) :=
  ⟨⟨_, rfl, by decide +kernel⟩, ⟨_, rfl, by decide +kernel, by decide +kernel⟩, ⟨_, rfl, by decide +kernel⟩, _, rfl,
    by decide +kernel⟩

/-- RESULT changes by FADD, and a reset clears it. -/
theorem witness_ResultChangesOnlyBy :
    (∃ t, step (start .fadd { opa := one, opb := one } []) = .next t ∧ t.result ≠ (start .fadd { opa := one } []).result) ∧
    (Resets { firA with sched := [.rst], result := 5 } ∧ ∃ t, step { firA with sched := [.rst], result := 5 } = .next t) :=
  ⟨⟨_, rfl, by decide +kernel⟩, .inl (by decide +kernel), _, rfl⟩

/-- OVR rises by a dropped write, falls by a STATUS write and by reset, and stays over acceptance. -/
theorem witness_OvrChangesOnlyBy :
    let o : State := { State.reset with status := { ovr := true } }
    (∃ t, step (hostWriteAt 0x028 7 busyState) = .next t ∧ busyState.status.ovr = false ∧ t.status.ovr = true) ∧
    (∃ t, step (hostWriteAt 0x010 0x8 o) = .next t ∧ t.status.ovr = false) ∧
    (∃ t, step { o with sched := [.rst] } = .next t ∧ t.status.ovr = false) ∧
    (HostWrites (hostWriteAt 0x018 0x10 o) 0x018 0x10 ∧ ∃ t, step (hostWriteAt 0x018 0x10 o) = .next t) :=
  ⟨⟨_, rfl, by decide +kernel, by decide +kernel⟩, ⟨_, rfl, by decide +kernel⟩, ⟨_, rfl, by decide +kernel⟩,
    by decide +kernel, _, rfl⟩

/-- A flag falls by a write to FFLAGS, and by reset. -/
theorem witness_FlagsAreSticky :
    let f : State := { State.reset with fflags := { nx := true, nv := true } }
    (∃ t, step (hostWriteAt 0x090 0x10 f) = .next t ∧ f.fflags.nx = true ∧ t.fflags.nx = false ∧ t.fflags.nv = true) ∧
    (∃ t, step { f with sched := [.rst] } = .next t ∧ t.fflags.nv = false) :=
  ⟨⟨_, rfl, by decide +kernel, by decide +kernel, by decide +kernel⟩, _, rfl, by decide +kernel⟩

/-- LAST_OP changes by acceptance, of an illegal word too, and by reset. -/
theorem witness_LastOpChangesOnlyBy :
    (∃ t, step (hostWriteAt 0x018 0xFF .reset) = .next t ∧ t.status.lastOp = 0xFF ∧
      (hostWriteAt 0x018 0xFF .reset).status.busy = false ∧ HostWrites (hostWriteAt 0x018 0xFF .reset) 0x018 0xFF) ∧
    (∃ t, step { firA with sched := [.rst] } = .next t ∧ t.status.lastOp ≠ firA.status.lastOp) :=
  ⟨⟨_, rfl, by decide +kernel, by decide +kernel, by decide +kernel⟩, _, rfl, by decide +kernel⟩

/-- A run of two host steps while a FIR is pending: its NLEN and one of its samples are written, and both are dropped. -/
def hazard : State :=
  { firA with host := { script := [.wr .nlen 7, .wrm 0 7] }, sched := [.host, .host] }

/-- One step of a run. -/
theorem run_succ (k : Nat) (s t : State) (h : step s = .next t) : Host.Core.run core (k + 1) s = Host.Core.run core k t := by
  simp only [Host.Core.run, show core.step s = .next t from h]

theorem witness_InputsFrozenWhileBusy :
    hazard.status.busy = true ∧ (∃ t, Host.Core.run core 2 hazard = .next t) ∧
    ∀ j ≤ 2, ∀ u : State, Host.Core.run core j hazard = .next u → u.status.busy = true := by
  obtain ⟨t, h1, b1⟩ : ∃ t, step hazard = .next t ∧ after (.next t) (fun u => u.status.busy &&
      after (step u) fun v => v.status.busy) = true := ⟨_, rfl, by decide +kernel⟩
  simp only [after, Bool.and_eq_true] at b1
  refine ⟨by decide +kernel, ⟨_, rfl⟩, fun j hj u hu => ?_⟩
  match j, hj with
  | 0, _ => cases hu; decide +kernel
  | 1, _ => rw [run_succ 0 _ t h1] at hu; cases hu; exact b1.1
  | 2, _ =>
    have h2 := b1.2
    cases h : step t with
    | next v => rw [run_succ 1 _ t h1, run_succ 0 _ v h] at hu; cases hu; rw [h] at h2; exact h2
    | fault r => cases r
    | refused r => rw [h] at h2; cases h2

/-- A command pending behind a schedule of host turns. -/
theorem witness_PendingCommandEnds : hazard.status.busy = true := by decide +kernel

end Sys2Proof.Tests
end

section
/-! The invariant over every step (O52). Each operation a step is made of keeps `State.Inv`: one lemma per operation, an
operation that touches no field of the invariant being covered by definitional equality. A step is then one of the six
moves of `step_moves`. -/

namespace Sys2Proof.Machine

/-! ## Errors that may be recorded (R32 to R34, R44, R205) -/

/-- What the error fields may be set to, for a DMEM of `words` words: `ErrorFieldsConsistent`, of an error about to be
raised. -/
structure CmdError.Recordable (words : Nat) (e : CmdError) : Prop where
  kind_ne_none : e.kind ≠ .none
  stage_ne_none : e.stage ≠ .none
  illegal_iff_decode : e.kind = .illegalCommand ↔ e.stage = .decode
  illegal_param : e.kind = .illegalCommand → e.param = .cmd
  input_param : e.kind = .invalidInput → e.param = .nlen
  numerical_fields : e.kind = .numericalInstability → e.param = .xBase ∧ e.stage = .spectrumAnalyzer
  numerical_of_info : e.info ≠ 0 → e.kind = .numericalInstability
  info_lt : e.info.toNat < words

theorem illegalCommand_recordable {words : Nat} (hw : 0 < words) : illegalCommand.Recordable words := by
  constructor <;> simp [illegalCommand, hw]

theorem firstError_stage {rows : List CheckRow} {st : ErrStage} {e : CmdError}
    (hrows : ∀ r ∈ rows, r.error.stage = st) (h : firstError rows = some e) : e.stage = st := by
  obtain ⟨r, hr, -, rfl⟩ := firstError_mem h
  exact hrows r hr

/-- The error of a command names its unit as the stage (R205). -/
theorem commandError_stage {i : Instr} {s : State} {e : CmdError} (h : commandError i s = some e) :
    e.stage = if i = .fir then .firFilter else .spectrumAnalyzer := by
  cases i <;> simp only [commandError, reduceCtorEq] at h
  case dft =>
    rcases Option.or_eq_some_iff.mp h with h | ⟨-, h⟩
    · exact firstError_stage (by simp [dftChecks]) h
    · obtain ⟨n, -, rfl⟩ := Option.map_eq_some_iff.mp h
      rfl
  all_goals exact firstError_stage (by simp [firChecks, freqmapChecks, magChecks, halfspecChecks]) h

/-- The finiteness scan reports an index of DMEM, once DFT's regions pass their checks (R145, R44). -/
theorem firstNonFinite_lt_dmemWords {s : State} {n : Nat} (hn : firstNonFinite s = some n)
    (hpass : firstError (dftChecks s) = none) : n < s.params.dmemWords := by
  obtain ⟨hlt, -, -⟩ := (firstNonFinite_eq_some_iff s n).mp hn
  obtain ⟨-, hx, -⟩ := (dftRegionsPass_iff s).mp hpass
  omega

/-- Every error a command ends with may be recorded. -/
theorem commandError_recordable {i : Instr} {s : State} {e : CmdError} (hw : 0 < s.params.dmemWords)
    (h : commandError i s = some e) : e.Recordable s.params.dmemWords := by
  have hstage := commandError_stage h
  have hne : e.stage ≠ .none ∧ e.stage ≠ .decode := by
    rw [hstage]; split <;> simp
  rcases commandError_cases h with ⟨hk, hp, hi, -⟩ | ⟨hk, hi⟩ | ⟨hk, hp, rfl, n, hn, hi, hpass⟩
  · constructor <;> simp [hk, hp, hi, hne, hw]
  · constructor <;> simp [hk, hi, hne, hw]
  · have hlt : e.info.toNat < s.params.dmemWords := by
      rw [hi, BitVec.toNat_ofNat]
      exact (Nat.mod_le _ _).trans_lt (firstNonFinite_lt_dmemWords hn hpass)
    constructor <;> simp [hk, hp, hstage, hlt]

/-! ## Operations that keep the invariant -/

theorem dmemWords_pos {p : Params} (h : p.wf) : 0 < p.dmemWords := Nat.lt_of_lt_of_le (by decide) h.1

/-- The invariant of a state with DMEM in canonical form and its other fields as in a state that meets it. -/
theorem inv_of_dmem_wf {s t : State} (hs : State.Inv s) (hparams : t.params = s.params) (hstatus : t.status = s.status)
    (hinfo : t.errInfo = s.errInfo) (hpending : t.pending = s.pending)
    (hdmem : Memory.wf s.params.dmemWords t.dmem) : State.Inv t := by
  obtain ⟨hp, -, hcons, herr⟩ := hs
  rw [State.Inv, StatusConsistent, ErrorFieldsConsistent, hparams, hstatus, hinfo, hpending]
  exact ⟨hp, hdmem, hcons, herr⟩

/-- The invariant of a state whose registers are reset (R50). -/
theorem inv_of_reset {t : State} (hparams : t.params.wf) (hdmem : Memory.wf t.params.dmemWords t.dmem)
    (hstatus : t.status = {}) (hinfo : t.errInfo = 0) : State.Inv t := by
  refine ⟨hparams, hdmem, ?_, ?_⟩
  · simp [StatusConsistent, hstatus]
  · simp [ErrorFieldsConsistent, hstatus, hinfo, dmemWords_pos hparams]

theorem inv_hardReset {s : State} (hs : State.Inv s) : State.Inv (hardReset s) :=
  inv_of_reset hs.1 (wf_nil _) rfl rfl

theorem inv_softReset {s : State} (hs : State.Inv s) : State.Inv (softReset s) := by
  obtain ⟨hp, hm, -⟩ := hs
  refine inv_of_reset hp ?_ rfl rfl
  rw [softReset_dmem]
  split
  · exact wf_abortMemory hm
  · exact hm

theorem inv_nextDraws {s : State} (hs : State.Inv s) : State.Inv (nextDraws s) := hs

theorem inv_setOvr {s : State} (hs : State.Inv s) : State.Inv (setOvr s) := hs

/-- Clearing DONE or ERR only takes premises away: nothing obliges ERR_KIND to be NONE while ERR = 0 (R36). -/
theorem inv_writeStatus {s : State} (v : Word) (hs : State.Inv s) : State.Inv (writeStatus v s) := by
  obtain ⟨hp, hm, ⟨hexcl, hbusy, hnone, hkind⟩, herr⟩ := hs
  refine ⟨hp, hm, ⟨?_, ?_, ?_, ?_⟩, herr⟩ <;>
    simp only [writeStatus_status, writeStatus_pending, Bool.and_eq_true, Bool.and_eq_false_iff]
  · exact fun ⟨⟨hd, _⟩, he, _⟩ => hexcl ⟨hd, he⟩
  · intro hb
    obtain ⟨hd, he, hop⟩ := hbusy hb
    exact ⟨.inl hd, .inl he, hop⟩
  · exact fun h => hnone (h.imp_right And.left)
  · exact fun ⟨he, _⟩ => hkind he

/-- Acceptance starts a command with no completion and no error recorded (R84). -/
theorem inv_acceptCommand {s : State} (w : Word) (hs : State.Inv s) : State.Inv (acceptCommand w s) := by
  obtain ⟨hp, hm, -⟩ := hs
  refine ⟨hp, hm, ?_, ?_⟩
  · simp [StatusConsistent]
  · simp [ErrorFieldsConsistent, dmemWords_pos hp]

/-- A command's effect before its completion (R51, R62). -/
theorem inv_commandEffect {i : Instr} {s : State} (hs : State.Inv s) (h : commandError i s = none) :
    State.Inv (commandEffect i s) := by
  obtain ⟨hparams, -, hstatus, -, hinfo, hpending, -⟩ := commandEffect_frame i s
  have ⟨_, hm, _⟩ := hs
  exact inv_of_dmem_wf hs hparams hstatus hinfo hpending (wf_commandEffect hm h)

/-- A pending command has no error recorded, so its completion with DONE meets the invariant (R210). -/
theorem inv_complete {s : State} (hs : State.Inv s) (hb : s.status.busy = true) : State.Inv (complete s) := by
  obtain ⟨hp, hm, ⟨-, hbusy, hnone, -⟩, herr⟩ := hs
  obtain ⟨-, he, -⟩ := hbusy hb
  have hk := hnone (.inl hb)
  refine ⟨hp, hm, ?_, herr⟩
  simp [StatusConsistent, he, hk]

/-- A pending command has not completed, so its completion with ERR and a recordable error meets the invariant (R204,
R210). -/
theorem inv_raiseError {s : State} {e : CmdError} (hs : State.Inv s) (hb : s.status.busy = true)
    (he : e.Recordable s.params.dmemWords) : State.Inv (raiseError e s) := by
  obtain ⟨hp, hm, ⟨-, hbusy, -, -⟩, -⟩ := hs
  obtain ⟨hd, -, -⟩ := hbusy hb
  refine ⟨hp, hm, ?_, ?_⟩
  · simp [StatusConsistent, hd, he.kind_ne_none]
  · simp only [ErrorFieldsConsistent, raiseError_status, raiseError_errInfo, raiseError_params]
    refine ⟨iff_of_false he.kind_ne_none he.stage_ne_none, fun h => absurd h he.kind_ne_none, he.illegal_iff_decode,
      fun h => ?_, fun h => ?_, fun h => ?_, he.numerical_of_info, he.info_lt⟩
    · rw [he.illegal_param h]; rfl
    · rw [he.input_param h]; rfl
    · obtain ⟨hparam, hstage⟩ := he.numerical_fields h
      exact ⟨by rw [hparam]; rfl, hstage⟩

/-- Both ways a pending command ends. -/
theorem inv_finish {s : State} (i : Instr) (hs : State.Inv s) (hb : s.status.busy = true) :
    State.Inv (finish (commandError i s) (commandEffect i s) s) := by
  rcases finish_cases i s with ⟨e, he, hf⟩ | ⟨hn, hf⟩ <;> rw [hf]
  · exact inv_raiseError hs hb (commandError_recordable (dmemWords_pos hs.1) he)
  · exact inv_complete (inv_commandEffect hs hn) (by rw [commandEffect_status]; exact hb)

/-- An accepted host write (R26, R36, R43, R70, R73, R84). -/
theorem inv_busWrite {s : State} {off : Offset} {v : Word} {tg : BusTarget} (hs : State.Inv s)
    (ht : busTarget s.params.dmemWords ⟨64, off, .write v⟩ = some tg) : State.Inv (busWrite tg v s) := by
  rcases busWrite_moves ht with h | ⟨-, -, h⟩ | ⟨-, -, h⟩ | ⟨-, h⟩ | ⟨-, -, h⟩ | ⟨-, -, h⟩ | ⟨-, -, o, h⟩ |
    ⟨-, -, h⟩ | ⟨-, -, i, rfl, h⟩ <;> rw [h]
  · exact hs
  · exact hs
  · exact inv_softReset hs
  · exact inv_writeStatus v hs
  · exact inv_setOvr hs
  · exact inv_acceptCommand v hs
  · exact hs
  · exact hs
  · have ⟨_, hm, _⟩ := hs
    exact inv_of_dmem_wf hs rfl rfl rfl rfl (wf_writeWord hm (busTarget_word ht) v)

/-! ## The step -/

/-- Settles O52: by the six moves of a step. A turn's own bookkeeping (schedule, draws, response, host) is no part of the
invariant. -/
theorem stepKeepsInvariant : Obligations.StepKeepsInvariant := by
  intro s t hs hstep
  have hturn : State.Inv (takeTurn s) := hs
  cases step_moves hstep with
  | idle _ _ e => subst e; exact hturn
  | illegal h _ e =>
    subst e
    exact inv_nextDraws (inv_raiseError hturn h.2 (illegalCommand_recordable (dmemWords_pos hs.1)))
  | command h i _ e => subst e; exact inv_nextDraws (inv_finish i hturn h.2)
  | rst _ e => subst e; exact inv_hardReset hturn
  | quiet _ _ _ _ _ e => subst e; exact hs
  | write off v tg _ ht e => subst e; exact inv_busWrite hs ht

end Sys2Proof.Machine
end

section
/-! The register block over the bus (O41 to O44, O46) and what a command, or any step, may write (O8, O54 to O56, O58,
O53). A register access is settled by what `writeReg` and `readReg` do to that register; the claims over every step by
`StatusMove`, which says once how a step can change STATUS and PENDING. -/

namespace Sys2Proof.Machine

/-! ## What each command may write (R51) -/

/-- RESULT is the scalar commands' (R41). -/
theorem commandEffect_result {i : Instr} {s : State} (h : (commandEffect i s).result ≠ s.result) :
    i = .fadd ∨ i = .fsub ∨ i = .fmul ∨ i = .fma := by
  cases i
  case fadd | fsub | fmul | fma => simp
  all_goals exact absurd rfl h

/-- A command leaves FFLAGS or, for FIR and the scalar commands, ORs flags into it (R42). -/
theorem commandEffect_fflags (i : Instr) (s : State) :
    (commandEffect i s).fflags = s.fflags ∨
    (i = .fir ∨ i = .fadd ∨ i = .fsub ∨ i = .fmul ∨ i = .fma) ∧
      ∃ raised, (commandEffect i s).fflags = flagsUnion s.fflags raised := by
  cases i
  case fir | fadd | fsub | fmul | fma => exact .inr ⟨by simp, _, rfl⟩
  all_goals exact .inl rfl

/-- The sticky OR drops no flag (R42). -/
theorem flagsUnion_keeps (a b : Flags) :
    ∀ f ∈ [Flags.nx, Flags.uf, Flags.of, Flags.nv], f a = true → f (flagsUnion a b) = true := by
  simp +contextual [flagsUnion]

/-- Settles O8, by the two ways a command ends. -/
theorem commandsWriteOnlyTheTable : Obligations.CommandsWriteOnlyTheTable := by
  intro i s t hexec
  rcases exec_cases i s with ⟨e, -, hx⟩ | ⟨-, hx⟩ <;> obtain rfl := Host.Outcome.next.inj (hx.symm.trans hexec)
  · simp [SameBytesOutside]
  · obtain ⟨hparams, hirq, hstatus, hregs, hinfo, hpending, hdraws, hresp, hhost, hsched⟩ := commandEffect_frame i s
    refine ⟨⟨hparams, hirq, hregs, hpending, hdraws, hresp, hhost, hsched⟩, sameBytesOutside_complete i s,
      commandEffect_result, fun hne => ?_, fun f hf hset => ?_, fun hne => absurd hinfo hne, fun hs ht => ?_⟩
    · rcases commandEffect_fflags i s with hkeep | ⟨hi, -⟩
      · exact absurd hkeep hne
      · exact hi
    · rw [complete_fflags]
      rcases commandEffect_fflags i s with hkeep | ⟨-, raised, hor⟩
      · rwa [hkeep]
      · rw [hor]
        exact flagsUnion_keeps _ _ f hf hset
    · simp [hstatus, hs] at ht

/-! ## STATUS (R27, R36) -/

/-- W1C, as a choice per field (R36). -/
theorem writeStatus_eq (v : Word) (s : State) : writeStatus v s = { s with
    status := { s.status with
      done := if v.getLsbD 1 then false else s.status.done
      err := if v.getLsbD 2 then false else s.status.err
      ovr := if v.getLsbD 3 then false else s.status.ovr } } := by
  unfold writeStatus
  cases v.getLsbD 1 <;> cases v.getLsbD 2 <;> cases v.getLsbD 3 <;> simp

/-- A field of a word is known by its bits. -/
theorem extractLsb'_eq_of_bits {w : Word} {start len : Nat} {x : BitVec len}
    (h : ∀ j < len, w.getLsbD (start + j) = x.getLsbD j) : w.extractLsb' start len = x := by
  refine BitVec.eq_of_getLsbD_eq fun j hj => ?_
  simp [hj, h j hj]

section

variable (st : Status)

theorem statusWord_flags :
    (statusWord st).getLsbD 0 = st.busy ∧ (statusWord st).getLsbD 1 = st.done ∧ (statusWord st).getLsbD 2 = st.err ∧
    (statusWord st).getLsbD 3 = st.ovr := by simp [-BitVec.getLsbD_eq_getElem, getLsbD_statusWord]

theorem statusWord_reservedLow : (statusWord st).extractLsb' 4 4 = 0 := by
  refine extractLsb'_eq_of_bits fun j hj => ?_
  simp (disch := omega) only [getLsbD_statusWord, if_pos, if_neg]
  exact BitVec.getLsbD_zero.symm

theorem statusWord_errKind : (statusWord st).extractLsb' 8 4 = errKindCode st.errKind := by
  refine extractLsb'_eq_of_bits fun j hj => ?_
  simp (disch := omega) only [getLsbD_statusWord, if_pos, if_neg, Nat.add_sub_cancel_left]

theorem statusWord_errStage : (statusWord st).extractLsb' 12 4 = errStageCode st.errStage := by
  refine extractLsb'_eq_of_bits fun j hj => ?_
  simp (disch := omega) only [getLsbD_statusWord, if_pos, if_neg, Nat.add_sub_cancel_left]

theorem statusWord_errParam : (statusWord st).extractLsb' 16 8 = st.errParam := by
  refine extractLsb'_eq_of_bits fun j hj => ?_
  simp (disch := omega) only [getLsbD_statusWord, if_pos, if_neg, Nat.add_sub_cancel_left]

theorem statusWord_lastOp : (statusWord st).extractLsb' 24 8 = st.lastOp := by
  refine extractLsb'_eq_of_bits fun j hj => ?_
  simp (disch := omega) only [getLsbD_statusWord, if_pos, if_neg, Nat.add_sub_cancel_left]

theorem statusWord_reservedHigh : (statusWord st).extractLsb' 32 32 = 0 := by
  refine extractLsb'_eq_of_bits fun j hj => ?_
  simp (disch := omega) only [getLsbD_statusWord, if_neg]
  exact BitVec.getLsbD_zero.symm

end

/-- Settles O41, by W1C field by field and by the fields of STATUS's image. -/
theorem statusReadsItsFieldsAndClearsByOnes : Obligations.StatusReadsItsFieldsAndClearsByOnes := by
  refine ⟨fun s v hw => ?_, fun s hr => ?_⟩
  · rw [step_of_hostWrites_reg (r := .status) hw, ← writeStatus_eq]
    rfl
  · obtain ⟨hbusy, hdone, herr, hovr⟩ := statusWord_flags s.status
    refine ⟨statusWord s.status, step_of_hostReads_reg (r := .status) hr, hbusy, hdone, herr, hovr,
      statusWord_reservedLow _, ?_, ?_, statusWord_errParam _, statusWord_lastOp _, statusWord_reservedHigh _⟩
    · rw [statusWord_errKind]
      cases s.status.errKind <;> rfl
    · rw [statusWord_errStage]
      cases s.status.errStage <;> rfl

/-! ## CTRL (R25, R26) -/

/-- While busy, a write to a register but CTRL and STATUS changes at most OVR (R26, R70). -/
theorem writeReg_busy {r : RegName} {s : State} (v : Word) (hb : s.status.busy = true) (hctrl : r ≠ .ctrl)
    (hstatus : r ≠ .status) : writeReg r v s = s ∨ writeReg r v s = setOvr s := by
  rcases writeReg_cases r v s with h | ⟨h, -⟩ | ⟨h, -⟩ | ⟨h, -⟩ | ⟨-, h⟩ | ⟨h, -⟩ | ⟨h, -⟩ | ⟨h, -⟩
  · exact .inl h
  · exact absurd h hctrl
  · exact absurd h hctrl
  · exact absurd h hstatus
  · exact .inr h
  all_goals simp [hb] at h

/-- Settles O42, by the two kinds of CTRL write, what BUSY drops, and CTRL's image. -/
theorem ctrlReadsIrqEnAndTakesEffect : Obligations.CtrlReadsIrqEnAndTakesEffect := by
  refine ⟨fun s v hw => ⟨fun hv => ?_, fun hv => ⟨_, step_of_softReset hw hv, rfl, rfl, rfl, rfl⟩⟩,
    fun s r v hb hctrl hstatus hw => ?_, fun s hr => ⟨_, step_of_hostReads_reg (r := .ctrl) hr, ?_, fun j hj => ?_⟩⟩
  · rw [step_of_hostWrites_reg (r := .ctrl) hw]
    simp only [writeReg, writeCtrl, hv, Bool.false_eq_true, if_false]
  · rw [step_of_hostWrites_reg hw]
    rcases writeReg_busy v hb hctrl hstatus with h | h <;> rw [h]
    · exact ⟨s.status.ovr, rfl⟩
    · exact ⟨true, rfl⟩
  · rw [readReg, getLsbD_ctrlWord, decide_eq_true rfl, Bool.and_true]
  · rw [readReg, getLsbD_ctrlWord, decide_eq_false (by omega), Bool.and_false]

/-! ## FFLAGS (R42, R43) -/

theorem writeReg_fflags_idle {s : State} (v : Word) (hb : s.status.busy = false) :
    writeReg .fflags v s = { s with fflags := flagsOfWord v } := by simp [writeReg, unlessBusy, hb]

theorem writeReg_fflags_busy {s : State} (v : Word) (hb : s.status.busy = true) :
    writeReg .fflags v s = setOvr s := by simp [writeReg, unlessBusy, hb]

theorem readReg_fflags_idle {s : State} (hb : s.status.busy = false) : readReg .fflags s = flagsWord s.fflags := by
  simp [readReg, hb]

/-- The flags that a written word leaves read as its bits under FFLAGS's mask (R43). -/
theorem flagsWord_flagsOfWord (v : Word) : flagsWord (flagsOfWord v) = v &&& 0x17#64 := by
  have hmask : (0x17#64) = flagsWord ⟨true, true, true, true⟩ := by decide
  refine BitVec.eq_of_getLsbD_eq fun j _ => ?_
  rw [hmask, BitVec.getLsbD_and, getLsbD_flagsWord, getLsbD_flagsWord]
  by_cases hj : j = 0 ∨ j = 1 ∨ j = 2 ∨ j = 4
  · rcases hj with rfl | rfl | rfl | rfl <;> simp [flagsOfWord]
  · simp only [not_or] at hj
    simp [hj]

/-- Settles O43, by FFLAGS's write in either engine state and by its image. -/
theorem fflagsReadsAndKeepsFourBits : Obligations.FflagsReadsAndKeepsFourBits := by
  refine ⟨fun s v hw => ⟨fun hb => ⟨_, rfl, ?_, ?_⟩, fun hb => ?_⟩, fun s hb hr => ?_⟩
  · rw [step_of_hostWrites_reg (r := .fflags) hw, writeReg_fflags_idle v hb]
    rfl
  · rw [readReg_after _ _ _ _ (by exact hb), readReg_fflags_idle (by exact hb)]
    exact flagsWord_flagsOfWord v
  · rw [step_of_hostWrites_reg (r := .fflags) hw, writeReg_fflags_busy v hb]
    rfl
  · refine ⟨_, step_of_hostReads_reg (r := .fflags) hr, ?_⟩
    simp only [readReg_fflags_idle hb, getLsbD_flagsWord]
    refine ⟨by simp, by simp, by simp, by simp, fun j hj => ?_⟩
    have hne : j ≠ 0 ∧ j ≠ 1 ∧ j ≠ 2 ∧ j ≠ 4 := by omega
    simp [hne]

/-! ## Registers 4 to 16 (R38 to R40) -/

/-- An idle write to a register from 4 to 16 is read back from it, and leaves every other register and field. -/
theorem writeReg_operand {r : RegName} {s : State} (v : Word) (h4 : 4 ≤ regNum r) (h16 : regNum r ≤ 16)
    (hb : s.status.busy = false) : ∃ o, writeReg r v s = { s with regs := o } ∧
      readReg r { s with regs := o } = v ∧ ∀ q, q ≠ r → readReg q { s with regs := o } = readReg q s := by
  cases r
  case id | ctrl | status | cmd => simp [regNum] at h4
  case result | fflags | errInfo => simp [regNum] at h16
  all_goals
    refine ⟨_, by simp only [writeReg, unlessBusy, hb, Bool.false_eq_true, if_false]; rfl, rfl, fun q hq => ?_⟩
    cases q <;> simp [readReg] at hq ⊢

/-- Settles O44. -/
theorem operandRegistersReadBack : Obligations.OperandRegistersReadBack := by
  intro s r v h4 h16 hb hw
  obtain ⟨o, hwrite, hsame, hother⟩ := writeReg_operand v h4 h16 hb
  refine ⟨_, step_of_hostWrites_reg hw, ?_⟩
  rw [hwrite]
  refine ⟨?_, fun q hq => ?_, rfl, rfl, rfl⟩
  · rw [readReg_after _ _ _ _ (by exact hb), hsame]
  · rw [readReg_after _ _ _ _ (by exact hb), hother q hq]

/-! ## Reserved and read-only registers (R45, R46) -/

/-- Settles O46. -/
theorem reservedAndReadOnlyRegisters : Obligations.ReservedAndReadOnlyRegisters := by
  intro s n hn
  refine ⟨fun hro v hw => ?_, fun h20 hr => ?_⟩
  · have hkeep : busWrite (.reg n) v s = s := by
      rcases hro with rfl | rfl | rfl | h20
      · rfl
      · rfl
      · rfl
      · simp only [busWrite, regOfNum_reserved h20]
    rw [step_of_hostWrites hw (busTarget_num hn _ _), hkeep]
  · have hzero : busRead (.reg n) s = 0 := by simp only [busRead, regOfNum_reserved h20]
    rw [step_of_hostReads hr (busTarget_num hn _ _), hzero]

/-! ## How a step changes STATUS and PENDING -/

/-- A step that resets the register block clears STATUS and RESULT (R50, R231, R232). -/
theorem step_of_resets {s t : State} (h : Resets s) (hstep : step s = .next t) : t.status = {} ∧ t.result = 0 := by
  rcases h with hrst | ⟨v, hv, hw⟩
  · obtain rfl := Host.Outcome.next.inj ((step_of_rst hrst).symm.trans hstep)
    exact ⟨rfl, rfl⟩
  · obtain rfl := Host.Outcome.next.inj ((step_of_softReset hw hv).symm.trans hstep)
    exact ⟨rfl, rfl⟩

/-- How a step can change STATUS and PENDING: not at all, or by completion, reset, W1C, a drop, or acceptance. -/
inductive StatusMove (s t : State) : Prop
  | keep (hstatus : t.status = s.status) (hpending : t.pending = s.pending)
  | complete (h : EnginePerforms s) (hbusy : t.status.busy = false)
      (hend : t.status.done = true ∨ t.status.err = true)
      (hovr : t.status.ovr = s.status.ovr) (hop : t.status.lastOp = s.status.lastOp)
  | reset (h : Resets s)
  | clear (v : Word) (h : HostWrites s 0x010#32 v) (hstatus : t.status = (writeStatus v s).status)
      (hpending : t.pending = s.pending)
  | drop (off : Offset) (v : Word) (hb : s.status.busy = true) (h : HostWrites s off v)
      (hd : Droppable s.params.dmemWords off) (hstatus : t.status = (setOvr s).status)
      (hpending : t.pending = s.pending)
  | accept (w : Word) (hb : s.status.busy = false) (h : HostWrites s 0x018#32 w)
      (hstatus : t.status = (acceptCommand w s).status) (hpending : t.pending = w)

/-- A command's end leaves OVR and LAST_OP (R204, R210). -/
theorem finish_keeps (i : Instr) (s : State) :
    (finish (commandError i s) (commandEffect i s) s).status.ovr = s.status.ovr ∧
    (finish (commandError i s) (commandEffect i s) s).status.lastOp = s.status.lastOp := by
  rcases finish_cases i s with ⟨e, -, hf⟩ | ⟨-, hf⟩ <;> simp [hf, commandEffect_status]

/-- An accepted host write (R26, R36, R70, R84). -/
theorem statusMove_write {s : State} {off : Offset} {v : Word} {tg : BusTarget} (h : HostWrites s off v)
    (ht : busTarget s.params.dmemWords ⟨64, off, .write v⟩ = some tg) :
    StatusMove s (afterAccess .accepted s.host.lastRead (busWrite tg v s)) := by
  rcases busWrite_moves ht with e | ⟨-, -, e⟩ | ⟨rfl, hv, e⟩ | ⟨rfl, e⟩ | ⟨hb, hd, e⟩ | ⟨hb, rfl, e⟩ |
    ⟨-, -, o, e⟩ | ⟨-, -, e⟩ | ⟨-, -, i, -, e⟩ <;> rw [e]
  · exact .keep rfl rfl
  · exact .keep rfl rfl
  · exact .reset (.inr ⟨v, hv, h⟩)
  · exact .clear v h rfl rfl
  · exact .drop off v hb h hd rfl rfl
  · exact .accept v hb h rfl rfl
  · exact .keep rfl rfl
  · exact .keep rfl rfl
  · exact .keep rfl rfl

/-- Every step is one of them. -/
theorem step_statusMove {s t : State} (hstep : step s = .next t) : StatusMove s t := by
  cases step_moves hstep with
  | idle _ _ e => subst e; exact .keep rfl rfl
  | illegal h _ e => subst e; exact .complete h rfl (.inr rfl) rfl rfl
  | command h i _ e =>
    subst e
    obtain ⟨hbusy, hend⟩ := finish_completes i (takeTurn s)
    obtain ⟨hovr, hop⟩ := finish_keeps i (takeTurn s)
    exact .complete h hbusy hend hovr hop
  | rst hm _ => exact .reset (.inl hm)
  | quiet _ _ _ _ _ e => subst e; exact .keep rfl rfl
  | write off v tg h ht e => subst e; exact statusMove_write h ht

/-- The step of a host about to write CMD: acceptance, or a drop (R70, R84). -/
theorem step_of_cmdWrite {s t : State} {w : Word} (h : HostWrites s 0x018#32 w) (hstep : step s = .next t) :
    t.status = (unlessBusy s (acceptCommand w s)).status := by
  obtain rfl := Host.Outcome.next.inj ((step_of_hostWrites_reg (r := .cmd) h).symm.trans hstep)
  rfl

/-! ## The safety claims -/

/-- Settles O54, by the moves of STATUS. -/
theorem busyChangesOnlyBy : Obligations.BusyChangesOnlyBy := by
  intro s t hstep
  cases step_statusMove hstep with
  | keep hstatus hpending => rw [hstatus]; simp +contextual [hpending]
  | complete h hbusy hend _ _ => simp [hbusy, h.1, hend]
  | reset h =>
    obtain ⟨hstatus, -⟩ := step_of_resets h hstep
    simp [hstatus, h]
  | clear v h hstatus hpending => rw [hstatus]; simp +contextual [hpending]
  | drop off v hb h hd hstatus hpending => simp [hstatus, hb, hpending]
  | accept w hb h hstatus hpending => simpa [hstatus, hb, hpending] using h

/-- Settles O56, by the moves of STATUS. -/
theorem ovrChangesOnlyBy : Obligations.OvrChangesOnlyBy := by
  intro s t hstep
  refine ⟨fun hs ht => ?_, fun hs ht => ?_, fun w hw hs => ?_⟩
  · cases step_statusMove hstep with
    | drop off v hb h hd _ _ => exact ⟨hb, off, v, h, hd⟩
    | keep hstatus _ => simp [hstatus, hs] at ht
    | complete _ _ _ hovr _ => simp [hovr, hs] at ht
    | reset h => simp [step_of_resets h hstep] at ht
    | clear v _ hstatus _ => simp [hstatus, hs] at ht
    | accept w _ _ hstatus _ => simp [hstatus, hs] at ht
  · cases step_statusMove hstep with
    | clear v h hstatus _ => exact .inl ⟨v, h, by simpa [hstatus, hs] using ht⟩
    | reset h => exact .inr h
    | keep hstatus _ => simp [hstatus, hs] at ht
    | complete _ _ _ hovr _ => simp [hovr, hs] at ht
    | drop _ _ _ _ _ hstatus _ => simp [hstatus] at ht
    | accept w _ _ hstatus _ => simp [hstatus, hs] at ht
  · rw [step_of_cmdWrite hw hstep, unlessBusy]
    split
    · rfl
    · exact hs

/-- Settles O58, by the moves of STATUS. -/
theorem lastOpChangesOnlyBy : Obligations.LastOpChangesOnlyBy := by
  intro s t hstep
  refine ⟨fun hne => ?_, fun w hb hw => ?_, fun h => ?_⟩
  · cases step_statusMove hstep with
    | accept w hb h _ _ => exact .inl ⟨hb, w, h⟩
    | reset h => exact .inr h
    | keep hstatus _ => exact absurd (by rw [hstatus]) hne
    | complete _ _ _ _ hop => exact absurd hop hne
    | clear v _ hstatus _ => exact absurd (by rw [hstatus]; rfl) hne
    | drop _ _ _ _ _ hstatus _ => exact absurd (by rw [hstatus]; rfl) hne
  · rw [step_of_cmdWrite hw hstep]
    simp [unlessBusy, hb, opField]
  · obtain ⟨hstatus, -⟩ := step_of_resets h hstep
    rw [hstatus]

/-- A performed command that changes RESULT is a scalar one (R41). -/
theorem finish_result {i : Instr} {s : State}
    (h : (finish (commandError i s) (commandEffect i s) s).result ≠ s.result) :
    i = .fadd ∨ i = .fsub ∨ i = .fmul ∨ i = .fma := by
  rcases finish_cases i s with ⟨e, -, hf⟩ | ⟨-, hf⟩ <;> rw [hf] at h
  · exact absurd rfl h
  · exact commandEffect_result h

/-- No host write changes RESULT but a CTRL write that resets (R46, R232). -/
theorem busWrite_result {s : State} {off : Offset} {v : Word} {tg : BusTarget}
    (ht : busTarget s.params.dmemWords ⟨64, off, .write v⟩ = some tg) (hne : (busWrite tg v s).result ≠ s.result) :
    off = 0x008#32 ∧ v.getLsbD 1 = true := by
  rcases busWrite_moves ht with e | ⟨-, -, e⟩ | ⟨hoff, hv, -⟩ | ⟨-, e⟩ | ⟨-, -, e⟩ | ⟨-, -, e⟩ | ⟨-, -, o, e⟩ |
    ⟨-, -, e⟩ | ⟨-, -, i, -, e⟩
  case inr.inr.inl => exact ⟨hoff, hv⟩
  all_goals exact absurd (congrArg State.result e) hne

/-- Settles O55, by the moves of a step. -/
theorem resultChangesOnlyBy : Obligations.ResultChangesOnlyBy := by
  intro s t hstep
  refine ⟨fun hne => ?_, fun h => (step_of_resets h hstep).2⟩
  cases step_moves hstep with
  | idle _ _ e => subst e; exact absurd rfl hne
  | illegal _ _ e => subst e; exact absurd rfl hne
  | command h i hd e => subst e; exact .inl ⟨h, i, hd, finish_result hne⟩
  | rst hm _ => exact .inr (.inl hm)
  | quiet _ _ _ _ _ e => subst e; exact absurd rfl hne
  | write off v tg h ht e =>
    subst e
    obtain ⟨rfl, hv⟩ := busWrite_result ht hne
    exact .inr (.inr ⟨v, hv, h⟩)

/-- Settles O53: the reset state is one whose registers are reset, over an unwritten DMEM. -/
theorem resetMeetsInvariant : Obligations.ResetMeetsInvariant :=
  inv_of_reset (by decide) (wf_nil _) rfl rfl

end Sys2Proof.Machine
end

section
/-! DMEM and the bus (20_memory.md): a pending command's inputs stay frozen over a run (O59), what BUSY drops (O45), DMEM
words over the bus (O48), and register reads (O49). -/

namespace Sys2Proof.Machine

/-! ## A pending command's inputs (R70, R76) -/

/-- What a pending command computes from, and what it adds to, is in `t` as in `s`. -/
structure InputsKept (s t : State) : Prop where
  pending : t.pending = s.pending
  regs : t.regs = s.regs
  dmem : t.dmem = s.dmem
  result : t.result = s.result
  fflags : t.fflags = s.fflags
  params : t.params = s.params

theorem InputsKept.refl (s : State) : InputsKept s s := ⟨rfl, rfl, rfl, rfl, rfl, rfl⟩

theorem InputsKept.trans {s t u : State} (hst : InputsKept s t) (htu : InputsKept t u) : InputsKept s u :=
  ⟨htu.pending.trans hst.pending, htu.regs.trans hst.regs, htu.dmem.trans hst.dmem, htu.result.trans hst.result,
    htu.fflags.trans hst.fflags, htu.params.trans hst.params⟩

theorem inputsKept_afterAccess (r : BusResponse) (l : Word) (s : State) : InputsKept s (afterAccess r l s) :=
  ⟨rfl, rfl, rfl, rfl, rfl, rfl⟩

/-- While busy, a host write that does not reset can only set IRQ_EN, clear status bits, or be dropped (R26, R36, R70). -/
theorem inputsKept_busWrite {s : State} {off : Offset} {v : Word} {tg : BusTarget}
    (ht : busTarget s.params.dmemWords ⟨64, off, .write v⟩ = some tg) (hb : s.status.busy = true)
    (hb' : (busWrite tg v s).status.busy = true) : InputsKept s (busWrite tg v s) := by
  rcases busWrite_moves ht with e | ⟨-, -, e⟩ | ⟨-, -, e⟩ | ⟨-, e⟩ | ⟨-, -, e⟩ | ⟨hidle, -⟩ | ⟨hidle, -⟩ |
    ⟨hidle, -⟩ | ⟨hidle, -⟩
  · rw [e]; exact .refl s
  · rw [e]; exact ⟨rfl, rfl, rfl, rfl, rfl, rfl⟩
  · simp [e] at hb'
  · rw [e]; exact ⟨rfl, rfl, rfl, rfl, rfl, rfl⟩
  · rw [e]; exact ⟨rfl, rfl, rfl, rfl, rfl, rfl⟩
  all_goals simp [hb] at hidle

/-- A step from a busy state to a busy state is the host's, and keeps the inputs: an engine step would complete the command,
and a reset abandon it. -/
theorem inputsKept_step {s t : State} (hstep : step s = .next t) (hb : s.status.busy = true)
    (hb' : t.status.busy = true) : InputsKept s t := by
  cases step_moves hstep with
  | idle _ hidle _ => simp [hb] at hidle
  | illegal _ _ e => simp [e] at hb'
  | command _ i _ e =>
    obtain ⟨hdone, -⟩ := finish_completes i (takeTurn s)
    simp [e, hdone] at hb'
  | rst _ e => simp [e] at hb'
  | quiet _ _ _ _ _ e => subst e; exact ⟨rfl, rfl, rfl, rfl, rfl, rfl⟩
  | write off v tg _ ht e =>
    subst e
    exact (inputsKept_busWrite ht hb hb').trans (inputsKept_afterAccess _ _ _)

/-- A run that stays busy keeps the inputs, by induction on its length. -/
theorem inputsKept_run (k : Nat) {s t : State} (hb : s.status.busy = true) (hrun : Host.Core.run core k s = .next t)
    (hbusy : ∀ j ≤ k, ∀ u : State, Host.Core.run core j s = .next u → u.status.busy = true) : InputsKept s t := by
  induction k generalizing s with
  | zero =>
    obtain rfl : s = t := Host.Outcome.next.inj hrun
    exact .refl s
  | succ k ih =>
    obtain ⟨u, hu⟩ := step_next s
    have hsucc : ∀ j, Host.Core.run core (j + 1) s = Host.Core.run core j u := fun j => by
      simp only [Host.Core.run, show core.step s = .next u from hu]
    have hbu : u.status.busy = true := hbusy 1 (by omega) u (hsucc 0)
    have hrest : InputsKept u t :=
      ih hbu ((hsucc k).symm.trans hrun) fun j hj v hv => hbusy (j + 1) (by omega) v ((hsucc j).trans hv)
    exact (inputsKept_step hu hb hbu).trans hrest

/-- Settles O59, by induction on the length of the run. -/
theorem inputsFrozenWhileBusy : Obligations.InputsFrozenWhileBusy := by
  intro k s t hb hrun hbusy
  obtain ⟨hpending, hregs, hdmem, hresult, hfflags, hparams⟩ := inputsKept_run k hb hrun hbusy
  exact ⟨hpending, hregs, hdmem, hresult, hfflags, hparams⟩

/-- Settles O45: every offset that BUSY drops reaches a target whose write is a drop. -/
theorem busyWritesAreDropped : Obligations.BusyWritesAreDropped := by
  intro s offset v hb hw hdrop
  obtain ⟨tg, ht, hwrite⟩ := drop_target v hdrop
  rw [step_of_hostWrites hw ht, hwrite s hb]
  rfl

/-! ## DMEM words over the bus (R64, R65, R73) -/

theorem busWrite_word_idle {s : State} (i : Nat) (v : Word) (hb : s.status.busy = false) :
    busWrite (.word i) v s = { s with dmem := writeWord s.dmem i v } := by simp [busWrite, unlessBusy, hb]

theorem busRead_word_idle {s : State} (i : Nat) (hb : s.status.busy = false) :
    busRead (.word i) s = readWord s .bus i := by simp [busRead, hb]

/-- An unwritten word is read as the draw (R64). -/
theorem readWord_of_unwritten {s : State} {i : Nat} (h : wordAt s.dmem i = none) (tag : ReadTag) :
    readWord s tag i = Config.freeWord s.draws tag := by simp [readWord, h]

/-- Byte +j of a written word is its lane j (R65). -/
theorem byteAt_writeWord_lane (m : Memory) (i : Nat) (v : Word) {j : Nat} (hj : j < 8) :
    byteAt (writeWord m i v) (wordOffset i + j) = some (v.extractLsb' (8 * j) 8) := by
  rw [byteAt_writeWord, if_pos ⟨by omega, by omega⟩, Nat.add_sub_cancel_left]

/-- A write leaves every byte outside its word. -/
theorem byteAt_writeWord_outside (m : Memory) (i : Nat) (v : Word) {a : Nat}
    (h : ¬(wordOffset i ≤ a ∧ a < wordOffset (i + 1))) : byteAt (writeWord m i v) a = byteAt m a := by
  rw [byteAt_writeWord, if_neg]
  simpa only [wordOffset, Nat.mul_add, ← Nat.add_assoc] using h

/-- Settles O48, by the read-after-write laws of a word. -/
theorem dmemHoldsWhatIsWritten : Obligations.DmemHoldsWhatIsWritten := by
  intro s i hparams hi hb
  have htarget := busTarget_dmem hi hparams.2
  refine ⟨fun v hw => ?_, fun hr => ?_⟩
  · have hstep := step_of_hostWrites hw (htarget _)
    rw [busWrite_word_idle i v hb] at hstep
    exact ⟨_, hstep, wordAt_writeWord_same _ _ _, fun k hk => wordAt_writeWord_ne _ _ hk,
      fun j hj => byteAt_writeWord_lane _ _ _ hj,
      fun a ha => byteAt_writeWord_outside _ _ _ (ha (i, 1) (List.mem_singleton_self _)), rfl⟩
  · have hstep := step_of_hostReads hr (htarget _)
    rw [busRead_word_idle i hb] at hstep
    refine ⟨fun w hw => ?_, fun hnone => ?_⟩
    · rwa [readWord_of_wordAt hw] at hstep
    · rwa [readWord_of_unwritten hnone] at hstep

/-! ## Host reads (R67, R71) -/

theorem hostAccess_resp (a : BusAccess) (pos : Nat) (s : State) :
    (hostAccess a pos s).resp = (busAccess a s).1 := rfl

/-- What the host does next depends on the core through the response alone (R90). -/
theorem hostAccess_host (a : BusAccess) (pos : Nat) (s : State) :
    (hostAccess a pos s).host =
      { s.host with pos := pos, lastRead := nextLastRead s.host a.op (busAccess a s).1 } := rfl

/-- While busy, an accepted read returns a draw where it would show DMEM, RESULT or FFLAGS (R71). -/
theorem busRead_busy (tg : BusTarget) {s : State} (hb : s.status.busy = true) (d : Memory) (r : Word) (f : Flags) :
    busRead tg { s with dmem := d, result := r, fflags := f } = busRead tg s := by
  cases tg with
  | word i => simp only [busRead, hb, if_true]
  | reg n =>
    simp only [busRead]
    cases regOfNum n with
    | none => rfl
    | some q =>
      cases q
      case result | fflags => simp only [readReg, hb, if_true]
      all_goals rfl

/-- While busy, the response to a read, a bus error included, does not depend on DMEM, RESULT or FFLAGS. -/
theorem busAccess_read_busy {a : BusAccess} {s : State} (hread : a.op = .read) (hb : s.status.busy = true) (d : Memory)
    (r : Word) (f : Flags) :
    (busAccess a { s with dmem := d, result := r, fflags := f }).1 = (busAccess a s).1 := by
  simp only [busAccess, hread]
  cases busTarget s.params.dmemWords a with
  | none => rfl
  | some tg => exact congrArg BusResponse.data (busRead_busy tg hb d r f)

/-- Settles O49: what a read shows while busy, and each register's value. -/
theorem hostReadsReturnCurrentValues : Obligations.HostReadsReturnCurrentValues := by
  refine ⟨fun s a hb hmakes hread d r f t t' hstep hstep' => ?_, fun s r hvisible hreads => ?_⟩
  · have hresp := busAccess_read_busy (s := takeTurn s) hread hb d r f
    have hmakes' : HostMakes { s with dmem := d, result := r, fflags := f } a := hmakes
    obtain rfl := Host.Outcome.next.inj ((step_of_hostMakes hmakes).symm.trans hstep)
    obtain rfl := Host.Outcome.next.inj ((step_of_hostMakes hmakes').symm.trans hstep')
    rw [hostAccess_resp, hostAccess_resp, hostAccess_host, hostAccess_host]
    exact ⟨hresp, by rw [← hresp]; rfl⟩
  · refine ⟨readReg r s, step_of_hostReads_reg hreads, rfl, ?_⟩
    cases r
    case result =>
      have hb : s.status.busy = false := by simpa using hvisible
      simp [readReg, hb]
    all_goals simp [readReg]

end Sys2Proof.Machine
end

section
/-! Encoding (30_encoding.md): a command word is its fields, decoding reads the instruction whose fields they are, and the
legal words are the encodings (O1 to O3). Then what the model does with a word: ILLEGAL_COMMAND (O4), acceptance (O5) and
performing the pending command (O6). -/

namespace Sys2Proof

/-! ## The fields of a word (R80) -/

/-- The fields that a word holds (R80). -/
def wordFields (w : Word) : CmdFields := ⟨opField w, foldField w, rsvField w⟩

/-- A word is made of its three fields: 8 + 1 + 55 = 64 bits (R80). -/
theorem packFields_wordFields (w : Word) : packFields (wordFields w) = w := by
  refine BitVec.eq_of_getLsbD_eq fun j hj => ?_
  simp only [packFields, wordFields, opField, foldField, rsvField, BitVec.getLsbD_append, BitVec.getLsbD_extractLsb']
  obtain h | rfl | h : j < 8 ∨ j = 8 ∨ 9 ≤ j := by omega
  · simp [h, show j < 9 by omega]
  · simp
  · simp [show ¬j < 9 by omega, show j - 9 < 55 by omega, Nat.add_sub_cancel' h]

/-! ## Decoding in terms of fields (R81, R82) -/

/-- Without FOLD, an OP is decoded to the instruction in whose row it stands (R81). -/
theorem fields_of_decodeOp {op : BitVec 8} {i : Instr} (h : decodeOp op = some i) : i.fields = ⟨op, false, 0⟩ := by
  unfold decodeOp at h
  split at h
  case h_10 => cases h
  all_goals
    rename_i hop
    cases h
    exact congrArg (CmdFields.mk · false 0) (BitVec.eq_of_toNat_eq hop.symm)

/-- A word is decoded to an instruction with the word's fields only (R82). -/
theorem fields_of_decode {w : Word} {i : Instr} (h : decode w = some i) : i.fields = wordFields w := by
  unfold decode at h
  split_ifs at h with hrsv hfold hop
  · cases h
    simp [wordFields, Instr.fields, hop, hfold, not_not.mp hrsv]
  · rw [fields_of_decodeOp h]
    simp [wordFields, hfold, not_not.mp hrsv]

/-- The word of an instruction decodes to it (R88). -/
theorem decode_encode (i : Instr) : decode (encode i) = some i := by
  cases i
  exacts [Laws.RoundTrip.fir.2, Laws.RoundTrip.dft.2, Laws.RoundTrip.freqmap.2, Laws.RoundTrip.freqmapFold.2,
    Laws.RoundTrip.mag.2, Laws.RoundTrip.halfspec.2, Laws.RoundTrip.fadd.2, Laws.RoundTrip.fsub.2,
    Laws.RoundTrip.fmul.2, Laws.RoundTrip.fma.2]

/-- A word with an instruction's fields is the instruction's word. -/
theorem eq_encode_of_fields {w : Word} {i : Instr} (h : i.fields = wordFields w) : w = encode i := by
  rw [encode, h, packFields_wordFields]

/-- Settles O3: decoding keeps the fields, and they make up the whole word. -/
theorem decodeInvertsEncode : Obligations.DecodeInvertsEncode := by
  refine fun i w => ⟨fun h => eq_encode_of_fields (fields_of_decode h), ?_⟩
  rintro rfl
  exact decode_encode i

/-! ## Legal words (R82) -/

/-- The instructions, in the order in which R82 lists their words. -/
def allInstrs : List Instr := [.fir, .dft, .freqmap, .freqmapFold, .mag, .halfspec, .fadd, .fsub, .fmul, .fma]

theorem mem_allInstrs (i : Instr) : i ∈ allInstrs := by cases i <;> decide

theorem map_encode_allInstrs :
    allInstrs.map encode = [0x001, 0x002, 0x003, 0x103, 0x004, 0x005, 0x010, 0x011, 0x012, 0x013] := by decide

/-- Every legal set of fields is an instruction's (R81, R82). -/
theorem exists_fields_of_wellFormed {f : CmdFields} (h : f.WellFormed) : ∃ i : Instr, i.fields = f := by
  obtain ⟨op, fold, rsv⟩ := f
  obtain ⟨hop, rfl : rsv = 0#55, hfold⟩ := h
  cases fold with
  | true =>
    obtain rfl : op = 0x03#8 := hfold.resolve_left Bool.noConfusion
    exact ⟨.freqmapFold, rfl⟩
  | false =>
    simp only [CmdFields.opListed, listedOps, List.mem_cons, List.not_mem_nil, or_false] at hop
    obtain rfl | rfl | rfl | rfl | rfl | rfl | rfl | rfl | rfl := hop
    exacts [⟨.fir, rfl⟩, ⟨.dft, rfl⟩, ⟨.freqmap, rfl⟩, ⟨.mag, rfl⟩, ⟨.halfspec, rfl⟩, ⟨.fadd, rfl⟩, ⟨.fsub, rfl⟩,
      ⟨.fmul, rfl⟩, ⟨.fma, rfl⟩]

/-- The legal words are the instructions' words. -/
theorem legalWord_iff_encode {w : Word} : Machine.LegalWord w ↔ ∃ i, w = encode i := by
  have hfields : Machine.LegalWord w ↔ (wordFields w).WellFormed := Iff.rfl
  rw [hfields]
  constructor
  · intro h
    obtain ⟨i, hi⟩ := exists_fields_of_wellFormed h
    exact ⟨i, eq_encode_of_fields hi⟩
  · rintro ⟨i, rfl⟩
    rw [← fields_of_decode (decode_encode i)]
    exact i.wellFormed_all

/-- A word decodes exactly when it is legal (R82, R83). -/
theorem exists_decode_iff_legalWord {w : Word} : (∃ i, decode w = some i) ↔ Machine.LegalWord w :=
  (exists_congr fun i => decodeInvertsEncode i w).trans legalWord_iff_encode.symm

/-- Settles O2: the legal words are the instructions' words, and these are the ten. -/
theorem legalWordsAreTheTen : Obligations.LegalWordsAreTheTen := by
  refine fun w => ⟨exists_decode_iff_legalWord, ?_⟩
  rw [legalWord_iff_encode, ← map_encode_allInstrs, List.mem_map]
  exact exists_congr fun i => ⟨fun h => ⟨mem_allInstrs i, h.symm⟩, fun h => h.2.symm⟩

theorem decode_eq_none_iff {w : Word} : decode w = none ↔ ¬Machine.LegalWord w := by
  rw [← exists_decode_iff_legalWord, Option.eq_none_iff_forall_ne_some, not_exists]

/-- Settles O1: the legal words are encodings, and the others break one of R82's three conditions. -/
theorem listedWordsDecode : Obligations.ListedWordsDecode := by
  refine ⟨decode_encode .fir, decode_encode .dft, decode_encode .freqmap, decode_encode .freqmapFold,
    decode_encode .mag, decode_encode .halfspec, decode_encode .fadd, decode_encode .fsub, decode_encode .fmul,
    decode_encode .fma, ?_⟩
  simp only [decode_eq_none_iff]
  decide

end Sys2Proof

namespace Sys2Proof.Machine

/-! ## Performing PENDING (R83, R85) -/

/-- Settles O4: a word that is not legal does not decode, and the engine's step then raises the error of R83. -/
theorem illegalWordsRaise : Obligations.IllegalWordsRaise := by
  intro s hperforms hillegal
  obtain ⟨-, hstep⟩ | ⟨i, hi, -⟩ := step_of_engine hperforms
  · exact hstep
  · exact absurd (exists_decode_iff_legalWord.mp ⟨i, hi⟩) hillegal

/-- The engine performs the command that PENDING decodes to (R85). -/
theorem step_of_engine_command {s : State} {i : Instr} (hperforms : EnginePerforms s) (hi : decode s.pending = some i) :
    ∃ t, exec i (takeTurn s) = .next t ∧ step s = .next (nextDraws t) := by
  obtain ⟨hnone, -⟩ | ⟨j, hj, hstep⟩ := step_of_engine hperforms
  · simp [hi] at hnone
  · obtain rfl := Option.some.inj (hi.symm.trans hj)
    exact ⟨_, exec_eq i (takeTurn s), hstep⟩

/-- A placed word is accepted, and the engine's turn is put before the others (R84). -/
theorem withFetchWord_eq (s : State) (w : Word) :
    State.withFetchWord s 64 w.toNat = { acceptCommand w s with sched := .engine :: s.sched } := by
  rw [State.withFetchWord, Nat.mod_eq_of_lt w.isLt, BitVec.ofNat_toNat, BitVec.setWidth_eq]

/-- Settles O6: a placed word is one that the engine performs next. -/
theorem stepRunsPendingCommand : Obligations.StepRunsPendingCommand := by
  refine ⟨fun s i => step_of_engine_command, fun s i w hi => ?_⟩
  rw [withFetchWord_eq]
  exact step_of_engine_command (s := { acceptCommand w s with sched := .engine :: s.sched }) ⟨rfl, rfl⟩ hi

/-! ## Acceptance (R84) -/

theorem writeReg_cmd_idle {s : State} (w : Word) (hb : s.status.busy = false) :
    writeReg .cmd w s = acceptCommand w s := by simp [writeReg, unlessBusy, hb]

theorem writeReg_cmd_busy {s : State} (w : Word) (hb : s.status.busy = true) : writeReg .cmd w s = setOvr s := by
  simp [writeReg, unlessBusy, hb]

/-- Settles O5: offset 0x018 is CMD's, whose write is the acceptance while idle and a drop while busy. -/
theorem acceptanceSetsExactly : Obligations.AcceptanceSetsExactly := by
  intro s w hwrites
  have hstep := step_of_hostWrites_reg (r := .cmd) hwrites
  refine ⟨fun hb => ?_, fun hb => ?_⟩
  · rwa [writeReg_cmd_idle w hb] at hstep
  · rw [writeReg_cmd_busy w hb] at hstep
    exact ⟨_, hstep, rfl, rfl, rfl⟩

end Sys2Proof.Machine
end

section
/-! Floating point (40_fp_arith.md), the layer below O15 to O24: sign operations bit by bit (R117), the patterns of the two
zeros and of the infinities, and one equation per branch of each primitive (R112 to R116). -/

namespace Sys2Proof.F64

open Sys2Proof.Machine

/-! ## Sign operations (R117) -/

theorem getLsbD_fabs (a : Word) {j : Nat} (hj : j < 64) :
    (fabs a).getLsbD j = if j = 63 then false else a.getLsbD j := by
  have hmask : ∀ i < 64, (0x7FFFFFFFFFFFFFFF#64).getLsbD i = !decide (i = 63) := by decide
  rw [fabs, BitVec.getLsbD_and, hmask j hj]
  split <;> simp [*]

theorem getLsbD_fneg (a : Word) {j : Nat} (hj : j < 64) :
    (fneg a).getLsbD j = if j = 63 then !a.getLsbD j else a.getLsbD j := by
  have hmask : ∀ i < 64, (0x8000000000000000#64).getLsbD i = decide (i = 63) := by decide
  rw [fneg, BitVec.getLsbD_xor, hmask j hj]
  split <;> simp [*]

@[simp] theorem isFinite_fneg (b : Word) : isFinite (fneg b) = isFinite b := (fneg_classes b).1
@[simp] theorem isNaN_fneg (b : Word) : isNaN (fneg b) = isNaN b := (fneg_classes b).2.1
@[simp] theorem isInf_fneg (b : Word) : isInf (fneg b) = isInf b := (fneg_classes b).2.2.1
@[simp] theorem isZero_fneg (b : Word) : isZero (fneg b) = isZero b := (fneg_classes b).2.2.2.1
@[simp] theorem val_fneg (b : Word) : val (fneg b) = -val b := (fneg_classes b).2.2.2.2.2
@[simp] theorem sign_fneg (b : Word) : sign (fneg b) = !sign b := (fneg_sign_and_magnitude b).2

@[simp] theorem isSNaN_fneg (b : Word) : isSNaN (fneg b) = isSNaN b := by
  simp only [isSNaN, isNaN_fneg, getLsbD_fneg b (show 51 < 64 by decide), if_neg (show 51 ≠ 63 by decide)]

/-! ## Classes, zeros and infinities (R100, R101) -/

theorem finite_or_inf_of_not_isNaN {a : Word} (h : isNaN a = false) : isFinite a = true ∨ isInf a = true := by
  obtain ⟨hf, -, -⟩ | ⟨-, hi, -⟩ | ⟨-, -, hn⟩ := class_cases a
  · exact .inl hf
  · exact .inr hi
  · simp [hn] at h

theorem not_isZero_of_isInf {a : Word} (h : isInf a = true) : isZero a = false := by
  rw [← Bool.not_eq_true]
  intro hz
  simp [(classes_of_isZero hz).2.1] at h

theorem zero_eq (s : Bool) : zero s = if s then 0x8000000000000000#64 else 0#64 := by cases s <;> rfl

theorem infinity_eq (s : Bool) : infinity s = if s then 0xFFF0000000000000#64 else 0x7FF0000000000000#64 := by
  cases s <;> rfl

@[simp] theorem isNaN_zero (s : Bool) : isNaN (zero s) = false := isNaN_withSign (Nat.zero_le _)
@[simp] theorem isNaN_infinity (s : Bool) : isNaN (infinity s) = false := isNaN_withSign le_rfl
@[simp] theorem sign_zero (s : Bool) : sign (zero s) = s := sign_withSign (by decide)
@[simp] theorem sign_infinity (s : Bool) : sign (infinity s) = s := sign_withSign (by decide)
@[simp] theorem sign_round (s : Bool) (p q : Nat) : sign (round s p q).1 = s :=
  sign_withSign (lt_of_le_infMag (roundMag_le p q))

/-- -0 is the zero of sign 1 (R100). -/
theorem eq_negZero_iff (a : Word) : a = 0x8000000000000000#64 ↔ isZero a = true ∧ sign a = true := by
  constructor
  · rintro rfl
    decide
  · rintro ⟨hz, hs⟩
    rw [eq_of_isZero hz, if_pos hs]

/-- +0 is the zero of sign 0 (R100). -/
theorem eq_posZero_iff (a : Word) : a = 0#64 ↔ isZero a = true ∧ sign a = false := by
  constructor
  · rintro rfl
    decide
  · rintro ⟨hz, hs⟩
    rw [eq_of_isZero hz, if_neg (by simp [hs])]

theorem units_pos {a : Word} (h : isZero a = false) : 0 < units a :=
  Nat.pos_of_ne_zero fun h0 => by simp [(units_eq_zero_iff a).mp h0] at h

/-! ## fadd and fsub, branch by branch (R112, R113) -/

theorem fadd_of_isNaN {a b : Word} (h : isNaN a = true ∨ isNaN b = true) :
    fadd a b = (canonNaN, { nv := isSNaN a || isSNaN b }) := by
  rw [fadd, if_pos (by simpa using h), nvIf_eq]

theorem fadd_of_isInf {a b : Word} (ha : isInf a = true) (hb : isInf b = true) :
    fadd a b = if sign a = sign b then (a, noFlags) else (canonNaN, invalidFlag) := by
  simp [fadd, ha, hb, (classes_of_isInf ha).1, (classes_of_isInf hb).1]

theorem fadd_of_isInf_left {a b : Word} (ha : isInf a = true) (hb : isFinite b = true) : fadd a b = (a, noFlags) := by
  simp [fadd, ha, classes_of_isFinite hb, (classes_of_isInf ha).1]

theorem fadd_of_isInf_right {a b : Word} (ha : isFinite a = true) (hb : isInf b = true) : fadd a b = (b, noFlags) := by
  simp [fadd, hb, classes_of_isFinite ha, (classes_of_isInf hb).1]

/-- An exact zero sum is -0 where both addends are -0, else +0 (R110). -/
theorem fadd_exact_zero {a b : Word} (ha : isFinite a = true) (hb : isFinite b = true) (hv : val a + val b = 0) :
    fadd a b = (if a = 0x8000000000000000#64 ∧ b = 0x8000000000000000#64 then 0x8000000000000000#64 else 0#64, {}) := by
  rw [fadd_finite ha hb, if_pos (val_add_eq_zero_iff.mp hv), zero_eq]
  simp only [eq_negZero_iff, Bool.and_eq_true, noFlags, and_assoc, and_left_comm]

theorem val_add_eq (a b : Word) :
    (val a : ℝ) + val b = ((signedUnits a + signedUnits b : ℤ) : ℝ) / ((1 : ℕ) : ℝ) / 2 ^ 1074 := by
  rw [val_eq_real, val_eq_real, Int.cast_add, Nat.cast_one, div_one, add_div]

/-- A non-zero exact sum of finite addends is rounded once (R112). -/
theorem fadd_roundsTo {a b : Word} (ha : isFinite a = true) (hb : isFinite b = true) (hv : val a + val b ≠ 0) :
    RoundsTo ((val a : ℝ) + val b) (fadd a b).1 (fadd a b).2 := by
  have hz : signedUnits a + signedUnits b ≠ 0 := mt val_add_eq_zero_iff.mpr hv
  rw [fadd_finite ha hb, if_neg hz, val_add_eq]
  exact round_roundsTo_int _ hz one_pos

/-- An exact zero difference is -0 for (-0) - (+0), else +0 (R110). -/
theorem fsub_exact_zero {a b : Word} (ha : isFinite a = true) (hb : isFinite b = true) (hv : val a - val b = 0) :
    fsub a b = (if a = 0x8000000000000000#64 ∧ b = 0#64 then 0x8000000000000000#64 else 0#64, {}) := by
  have h := fadd_exact_zero ha (b := fneg b) (by simpa using hb) (by simpa [sub_eq_add_neg] using hv)
  simpa [fsub, eq_negZero_iff (fneg b), eq_posZero_iff b] using h

/-- A non-zero exact difference of finite operands is rounded once (R113). -/
theorem fsub_roundsTo {a b : Word} (ha : isFinite a = true) (hb : isFinite b = true) (hv : val a - val b ≠ 0) :
    RoundsTo ((val a : ℝ) - val b) (fsub a b).1 (fsub a b).2 := by
  have h := fadd_roundsTo ha (b := fneg b) (by simpa using hb) (by simpa [sub_eq_add_neg] using hv)
  simpa [fsub, sub_eq_add_neg] using h

/-- One operand is a zero and the other an infinity: R115's `zi`. -/
abbrev zeroTimesInf (a b : Word) : Bool := (isZero a && isInf b) || (isInf a && isZero b)

/-! ## fmul, branch by branch (R114) -/

theorem fmul_of_isNaN {a b : Word} (h : isNaN a = true ∨ isNaN b = true) :
    fmul a b = (canonNaN, { nv := isSNaN a || isSNaN b }) := by
  rw [fmul, if_pos (by simpa using h), nvIf_eq]

theorem fmul_of_zero_inf {a b : Word}
    (h : (isInf a = true ∧ isZero b = true) ∨ (isZero a = true ∧ isInf b = true)) :
    fmul a b = (canonNaN, invalidFlag) := by
  have hnan : isNaN a = false ∧ isNaN b = false := by
    obtain ⟨ha, hb⟩ | ⟨ha, hb⟩ := h
    · exact ⟨(classes_of_isInf ha).1, (classes_of_isZero hb).1⟩
    · exact ⟨(classes_of_isZero ha).1, (classes_of_isInf hb).1⟩
  rw [fmul, if_neg (by simp [hnan]), if_pos (by simpa using h)]

theorem fmul_of_isInf {a b : Word} (ha : isNaN a = false) (hb : isNaN b = false) (ha0 : isZero a = false)
    (hb0 : isZero b = false) (h : isInf a = true ∨ isInf b = true) :
    fmul a b = (infinity (sign a ^^ sign b), noFlags) := by
  rw [fmul, if_neg (by simp [ha, hb]), if_neg (by simp [ha0, hb0]), if_pos (by simpa using h)]

theorem fmul_of_isZero {a b : Word} (ha : isFinite a = true) (hb : isFinite b = true)
    (h : isZero a = true ∨ isZero b = true) : fmul a b = (zero (sign a ^^ sign b), noFlags) := by
  have hnum := And.intro (classes_of_isFinite ha) (classes_of_isFinite hb)
  rw [fmul, if_neg (by simp [hnum]), if_neg (by simp [hnum]), if_neg (by simp [hnum]), if_pos (by simpa using h)]

theorem val_mul_eq (a b : Word) : (val a : ℝ) * val b =
    if sign a ^^ sign b then -(((units a * units b : ℕ) : ℝ) / ((2 ^ 1074 : ℕ) : ℝ) / 2 ^ 1074)
    else ((units a * units b : ℕ) : ℝ) / ((2 ^ 1074 : ℕ) : ℝ) / 2 ^ 1074 := by
  rw [val_eq_real, val_eq_real, Nat.cast_mul, Nat.cast_pow, Nat.cast_ofNat]
  have hD := two_pow_ne_zero
  generalize (2 : ℝ) ^ 1074 = D at *
  unfold signedUnits
  cases sign a <;> cases sign b <;> simp <;> field_simp

/-- A product of finite non-zero factors is rounded once (R114). -/
theorem fmul_roundsTo {a b : Word} (ha : isFinite a = true) (hb : isFinite b = true) (ha0 : isZero a = false)
    (hb0 : isZero b = false) : RoundsTo ((val a : ℝ) * val b) (fmul a b).1 (fmul a b).2 := by
  rw [fmul_finite ha hb ha0 hb0, val_mul_eq]
  exact round_roundsTo _ (Nat.mul_pos (units_pos ha0) (units_pos hb0)) (by positivity)

/-! ## ffma, branch by branch (R115) -/

theorem ffma_of_isNaN {a b c : Word} (h : isNaN a = true ∨ isNaN b = true ∨ isNaN c = true) :
    ffma a b c = (canonNaN, { nv := isSNaN a || isSNaN b || isSNaN c || zeroTimesInf a b }) := by
  rw [ffma, if_pos (by simpa [or_assoc] using h), nvIf_eq]

section
variable {a b c : Word} (hna : isNaN a = false) (hnb : isNaN b = false) (hnc : isNaN c = false)
include hna hnb hnc

theorem ffma_of_zero_inf (hzi : zeroTimesInf a b = true) :
    ffma a b c = (canonNaN, invalidFlag) := by
  rw [ffma, if_neg (by simp [hna, hnb, hnc]), if_pos hzi]

theorem ffma_of_isInf_factor (hzi : zeroTimesInf a b = false)
    (h : isInf a = true ∨ isInf b = true) :
    ffma a b c = if isInf c = true ∧ sign c ≠ (sign a ^^ sign b) then (canonNaN, invalidFlag)
      else (infinity (sign a ^^ sign b), noFlags) := by
  rw [ffma, if_neg (by simp [hna, hnb, hnc]), if_neg (by simp [hzi]), if_pos (by simpa using h)]
  simp

end

theorem ffma_of_isInf_addend {a b c : Word} (ha : isFinite a = true) (hb : isFinite b = true) (hc : isInf c = true) :
    ffma a b c = (c, noFlags) := by
  simp [ffma, classes_of_isFinite ha, classes_of_isFinite hb, hc, (classes_of_isInf hc).1]

/-- An exact zero a·b + c is -0 where the product is a zero of sign 1 and the addend is -0, else +0 (R110). -/
theorem ffma_exact_zero {a b c : Word} (ha : isFinite a = true) (hb : isFinite b = true) (hc : isFinite c = true)
    (hv : val a * val b + val c = 0) : ffma a b c =
      (if (isZero a = true ∨ isZero b = true) ∧ (sign a ^^ sign b) = true ∧ c = 0x8000000000000000#64
        then 0x8000000000000000#64 else 0#64, {}) := by
  rw [ffma_finite ha hb hc, if_pos ((val_fma_eq_zero_iff a b c).mp hv), zero_eq]
  simp only [eq_negZero_iff, Bool.and_eq_true, Bool.or_eq_true, noFlags, and_assoc, and_left_comm]

/-- A non-zero exact a·b + c is rounded once (R115). -/
theorem ffma_roundsTo {a b c : Word} (ha : isFinite a = true) (hb : isFinite b = true) (hc : isFinite c = true)
    (hv : val a * val b + val c ≠ 0) :
    RoundsTo ((val a : ℝ) * val b + val c) (ffma a b c).1 (ffma a b c).2 := by
  have hz := mt (val_fma_eq_zero_iff a b c).mpr hv
  rw [ffma_finite ha hb hc, if_neg hz, val_fma_eq]
  exact round_roundsTo_int _ hz (by positivity)

/-! ## fsqrt, branch by branch (R116) -/

theorem fsqrt_of_isNaN {a : Word} (h : isNaN a = true) : fsqrt a = (canonNaN, { nv := isSNaN a }) := by
  rw [fsqrt, if_pos h, nvIf_eq]

theorem fsqrt_of_isZero {a : Word} (h : isZero a = true) : fsqrt a = (a, noFlags) := by
  rw [fsqrt, if_neg (by simp [classes_of_isZero h]), if_pos h]

theorem fsqrt_of_sign {a : Word} (hn : isNaN a = false) (hz : isZero a = false) (hs : sign a = true) :
    fsqrt a = (canonNaN, invalidFlag) := by
  simp [fsqrt, hn, hz, hs]

theorem fsqrt_of_isInf {a : Word} (h : isInf a = true) (hs : sign a = false) : fsqrt a = (a, noFlags) := by
  simp [fsqrt, h, hs, (classes_of_isInf h).1, not_isZero_of_isInf h]

theorem fsqrt_of_isFinite {a : Word} (hf : isFinite a = true) (hz : isZero a = false) (hs : sign a = false) :
    fsqrt a = (withSign false (sqrtMag (units a)), { nx := magUnits (sqrtMag (units a)) ^ 2 != units a * 2 ^ 1074 }) := by
  have hnum := classes_of_isFinite hf
  rw [fsqrt, if_neg (by simp [hnum]), if_neg (by simp [hz]), if_neg (by simp [hs]), if_neg (by simp [hnum])]

theorem val_of_sign_false {a : Word} (hs : sign a = false) : (val a : ℝ) = (units a : ℝ) / 2 ^ 1074 := by
  simp [val_eq_real, signedUnits, hs]

theorem units_le {a : Word} (hf : isFinite a = true) : units a ≤ 2 ^ 2098 :=
  magUnits_le _ ((isFinite_iff a).mp hf).le

/-- A magnitude is the square root of n units exactly when its square is n · 2^1074 in units of 2^-2148. -/
theorem magVal_eq_sqrt_iff (m n : Nat) :
    (magVal m : ℝ) = Real.sqrt ((n : ℝ) / 2 ^ 1074) ↔ magUnits m ^ 2 = n * 2 ^ 1074 := by
  have hroot : (magUnits m : ℝ) = Real.sqrt ((n * 2 ^ 1074 : ℕ) : ℝ) ↔
      (magUnits m : ℝ) ^ 2 = ((n * 2 ^ 1074 : ℕ) : ℝ) := by
    rw [eq_comm, Real.sqrt_eq_iff_eq_sq (Nat.cast_nonneg _) (Nat.cast_nonneg _), eq_comm]
  rw [sqrt_units, magVal_real rfl, div_left_inj' two_pow_ne_zero, hroot]
  exact_mod_cast Iff.rfl

/-- The root of a positive finite operand is rounded once, is finite, and raises at most NX (R116). -/
theorem fsqrt_roundsRoot {a : Word} (hf : isFinite a = true) (hz : isZero a = false) (hs : sign a = false) :
    IsRN (Real.sqrt (val a)) (fsqrt a).1 ∧ isFinite (fsqrt a).1 = true ∧
    ((fsqrt a).2.nx = true ↔ (val (fsqrt a).1 : ℝ) ≠ Real.sqrt (val a)) ∧
    (fsqrt a).2.uf = false ∧ (fsqrt a).2.of = false ∧ (fsqrt a).2.nv = false := by
  have hn := units_pos hz
  obtain ⟨hnear, hlt⟩ := sqrtMag_nearest hn (units_le hf)
  have hlt63 := lt_of_le_infMag hlt.le
  have hpos : 0 < Real.sqrt ((units a : ℝ) / 2 ^ 1074) := Real.sqrt_pos.mpr (by positivity)
  rw [fsqrt_of_isFinite hf hz hs, val_of_sign_false hs]
  refine ⟨⟨hpos.ne', sqrtMag (units a), ?_, fun _ => rfl, fun h => absurd h hpos.not_gt⟩, ?_, ?_, rfl, rfl, rfl⟩
  · rwa [abs_of_pos hpos]
  · exact (isFinite_withSign hlt63).mpr hlt
  · simp only [val_withSign hlt63, Bool.false_eq_true, if_false, bne_iff_ne, ne_eq, magVal_eq_sqrt_iff]

end Sys2Proof.F64
end

section
/-! Floating point (40_fp_arith.md): which outcomes are NaNs and which are invalid, in one form for every primitive (R106,
R109). -/

namespace Sys2Proof.F64

open Sys2Proof.Machine

/-- How R106 and R109 fix a primitive's outcome: `nan` says that an operand is a NaN, `sig` that NV is raised in that case,
and `inv` that operands without a NaN are an invalid operation. -/
structure NanOutcome (nan sig inv : Bool) (r : Word × Flags) : Prop where
  of_nan : nan = true → r = (canonNaN, { nv := sig })
  of_invalid : nan = false → inv = true → r = (canonNaN, invalidFlag)
  of_number : nan = false → inv = false → isNaN r.1 = false ∧ r.2.nv = false

namespace NanOutcome

variable {nan sig inv : Bool} {r : Word × Flags}

theorem nv_iff (h : NanOutcome nan sig inv r) :
    r.2.nv = true ↔ (nan = true ∧ sig = true) ∨ (nan = false ∧ inv = true) := by
  cases hnan : nan with
  | true => simp [h.of_nan hnan]
  | false =>
    cases hinv : inv with
    | true => simp [h.of_invalid hnan hinv, invalidFlag]
    | false => simp [(h.of_number hnan hinv).2]

/-- The outcome is the canonical NaN, or no NaN and no NV. -/
theorem canonical_or_number (h : NanOutcome nan sig inv r) : r.1 = canonNaN ∨ (isNaN r.1 = false ∧ r.2.nv = false) := by
  cases hnan : nan with
  | true => exact .inl (by rw [h.of_nan hnan])
  | false =>
    cases hinv : inv with
    | true => exact .inl (by rw [h.of_invalid hnan hinv])
    | false => exact .inr (h.of_number hnan hinv)

theorem canonical_of_nv (h : NanOutcome nan sig inv r) (hnv : r.2.nv = true) : r.1 = canonNaN :=
  h.canonical_or_number.resolve_right fun hnum => by simp [hnum.2] at hnv

theorem canonical_of_isNaN (h : NanOutcome nan sig inv r) (hr : isNaN r.1 = true) : r.1 = canonNaN :=
  h.canonical_or_number.resolve_right fun hnum => by simp [hnum.1] at hr

/-- Where no case hides another, NV is raised in the one or the other. -/
theorem nv_iff_or (h : NanOutcome nan sig inv r) (hsig : sig = true → nan = true ∨ inv = true)
    (hinv : inv = true → nan = false ∨ sig = true) : r.2.nv = true ↔ sig = true ∨ inv = true := by
  rw [h.nv_iff]
  cases nan <;> simp_all

theorem flags_of_quiet (h : NanOutcome nan sig inv r) (hnan : nan = true) (hsig : sig = false) : r.2 = {} := by
  rw [h.of_nan hnan, hsig]

end NanOutcome

theorem fadd_nanOutcome (a b : Word) :
    NanOutcome (isNaN a || isNaN b) (isSNaN a || isSNaN b) (isInf a && isInf b && (sign a != sign b)) (fadd a b) where
  of_nan h := fadd_of_isNaN (by simpa using h)
  of_invalid _ h := by
    simp only [Bool.and_eq_true, bne_iff_ne, ne_eq] at h
    obtain ⟨⟨ha, hb⟩, hs⟩ := h
    rw [fadd_of_isInf ha hb, if_neg hs]
  of_number hn hi := by
    simp only [Bool.or_eq_false_iff] at hn
    rcases finite_or_inf_of_not_isNaN hn.1 with ha | ha <;> rcases finite_or_inf_of_not_isNaN hn.2 with hb | hb
    · rw [fadd_finite ha hb]
      split
      · exact ⟨isNaN_zero _, rfl⟩
      · exact ⟨isNaN_round _ _ _, rfl⟩
    · rw [fadd_of_isInf_right ha hb]
      exact ⟨hn.2, rfl⟩
    · rw [fadd_of_isInf_left ha hb]
      exact ⟨hn.1, rfl⟩
    · rw [fadd_of_isInf ha hb, if_pos (by simpa [ha, hb] using hi)]
      exact ⟨hn.1, rfl⟩

theorem fsub_nanOutcome (a b : Word) :
    NanOutcome (isNaN a || isNaN b) (isSNaN a || isSNaN b) (isInf a && isInf b && (sign a == sign b)) (fsub a b) := by
  have hsign : (sign a != !sign b) = (sign a == sign b) := by cases sign a <;> cases sign b <;> rfl
  have h := fadd_nanOutcome a (fneg b)
  rwa [isNaN_fneg, isSNaN_fneg, isInf_fneg, sign_fneg, hsign] at h

theorem fmul_nanOutcome (a b : Word) : NanOutcome (isNaN a || isNaN b) (isSNaN a || isSNaN b)
    (zeroTimesInf a b) (fmul a b) where
  of_nan h := fmul_of_isNaN (by simpa using h)
  of_invalid _ h := fmul_of_zero_inf (by simpa [or_comm] using h)
  of_number hn hi := by
    rw [fmul, if_neg (by simp [hn]), if_neg (by rw [Bool.or_comm]; simp only [hi, Bool.false_eq_true, not_false_iff])]
    split_ifs
    · exact ⟨isNaN_infinity _, rfl⟩
    · exact ⟨isNaN_zero _, rfl⟩
    · exact ⟨isNaN_round _ _ _, rfl⟩

theorem ffma_nanOutcome (a b c : Word) : NanOutcome (isNaN a || isNaN b || isNaN c)
    (isSNaN a || isSNaN b || isSNaN c || zeroTimesInf a b)
    (zeroTimesInf a b ||
      (!isNaN a && !isNaN b && (isInf a || isInf b) && isInf c && (sign c != (sign a ^^ sign b)))) (ffma a b c) where
  of_nan h := ffma_of_isNaN (by simpa [or_assoc] using h)
  of_invalid hn h := by
    simp only [Bool.or_eq_false_iff] at hn
    obtain ⟨⟨hna, hnb⟩, hnc⟩ := hn
    cases hzi : zeroTimesInf a b with
    | true => exact ffma_of_zero_inf hna hnb hnc hzi
    | false =>
      obtain ⟨⟨hab, hc⟩, hs⟩ : ((isInf a = true ∨ isInf b = true) ∧ isInf c = true) ∧ sign c ≠ (sign a ^^ sign b) := by
        simpa [hzi, hna, hnb] using h
      rw [ffma_of_isInf_factor hna hnb hnc hzi hab, if_pos ⟨hc, hs⟩]
  of_number hn hi := by
    simp only [Bool.or_eq_false_iff] at hn
    obtain ⟨⟨hna, hnb⟩, hnc⟩ := hn
    obtain ⟨hzi, hprod⟩ := Bool.or_eq_false_iff.mp hi
    by_cases hab : isInf a = true ∨ isInf b = true
    · have hc : ¬(isInf c = true ∧ sign c ≠ (sign a ^^ sign b)) := fun ⟨hc, hs⟩ => by
        simp [hna, hnb, hab, hc, hs] at hprod
      rw [ffma_of_isInf_factor hna hnb hnc hzi hab, if_neg hc]
      exact ⟨isNaN_infinity _, rfl⟩
    · rw [not_or] at hab
      have ha := (finite_or_inf_of_not_isNaN hna).resolve_right hab.1
      have hb := (finite_or_inf_of_not_isNaN hnb).resolve_right hab.2
      rcases finite_or_inf_of_not_isNaN hnc with hc | hc
      · rw [ffma_finite ha hb hc]
        split
        · exact ⟨isNaN_zero _, rfl⟩
        · exact ⟨isNaN_round _ _ _, rfl⟩
      · rw [ffma_of_isInf_addend ha hb hc]
        exact ⟨hnc, rfl⟩

theorem fsqrt_nanOutcome (a : Word) : NanOutcome (isNaN a) (isSNaN a) (!isZero a && sign a) (fsqrt a) where
  of_nan := fsqrt_of_isNaN
  of_invalid hn h := by
    simp only [Bool.and_eq_true, Bool.not_eq_true'] at h
    exact fsqrt_of_sign hn h.1 h.2
  of_number hn hi := by
    cases hz : isZero a with
    | true => rw [fsqrt_of_isZero hz]; exact ⟨hn, rfl⟩
    | false =>
      have hs : sign a = false := by simpa [hz] using hi
      rcases finite_or_inf_of_not_isNaN hn with hf | hinf
      · rw [fsqrt_of_isFinite hf hz hs]
        exact ⟨isNaN_withSign (sqrtMag_nearest (units_pos hz) (units_le hf)).2.le, rfl⟩
      · rw [fsqrt_of_isInf hinf hs]; exact ⟨hn, rfl⟩

/-! ## The invalid operations (R109) -/

theorem isNaN_or_of_isSNaN_or {a b : Word} (h : (isSNaN a || isSNaN b) = true) : (isNaN a || isNaN b) = true :=
  Bool.or_eq_true_iff.mpr ((Bool.or_eq_true_iff.mp h).imp isNaN_of_isSNaN isNaN_of_isSNaN)

theorem fadd_nv_iff (a b : Word) : (fadd a b).2.nv = true ↔ isSNaN a = true ∨ isSNaN b = true ∨
    (isInf a = true ∧ isInf b = true ∧ sign a ≠ sign b) := by
  have h := (fadd_nanOutcome a b).nv_iff_or
    (fun hsig => .inl (isNaN_or_of_isSNaN_or hsig))
    (fun hinv => by
      simp only [Bool.and_eq_true] at hinv
      simp [(classes_of_isInf hinv.1.1).1, (classes_of_isInf hinv.1.2).1])
  simpa [or_assoc, and_assoc] using h

theorem fsub_nv_iff (a b : Word) : (fsub a b).2.nv = true ↔ isSNaN a = true ∨ isSNaN b = true ∨
    (isInf a = true ∧ isInf b = true ∧ sign a = sign b) := by
  simpa [fsub] using fadd_nv_iff a (fneg b)

theorem fmul_nv_iff (a b : Word) : (fmul a b).2.nv = true ↔ isSNaN a = true ∨ isSNaN b = true ∨
    (isZero a = true ∧ isInf b = true) ∨ (isInf a = true ∧ isZero b = true) := by
  have h := (fmul_nanOutcome a b).nv_iff_or
    (fun hsig => .inl (isNaN_or_of_isSNaN_or hsig))
    (fun hinv => by
      simp only [Bool.or_eq_true, Bool.and_eq_true] at hinv
      obtain ⟨ha, hb⟩ | ⟨ha, hb⟩ := hinv
      · simp [(classes_of_isZero ha).1, (classes_of_isInf hb).1]
      · simp [(classes_of_isInf ha).1, (classes_of_isZero hb).1])
  simpa [or_assoc] using h

theorem ffma_nv_iff (a b c : Word) : (ffma a b c).2.nv = true ↔
    isSNaN a = true ∨ isSNaN b = true ∨ isSNaN c = true ∨
    (isZero a = true ∧ isInf b = true) ∨ (isInf a = true ∧ isZero b = true) ∨
    (isNaN a = false ∧ isNaN b = false ∧ (isInf a = true ∨ isInf b = true) ∧
      isInf c = true ∧ sign c ≠ (sign a ^^ sign b)) := by
  have h := (ffma_nanOutcome a b c).nv_iff_or
    (fun hsig => by
      obtain hsig | hzi := Bool.or_eq_true_iff.mp hsig
      · simp only [Bool.or_eq_true] at hsig ⊢
        exact .inl (hsig.imp (Or.imp isNaN_of_isSNaN isNaN_of_isSNaN) isNaN_of_isSNaN)
      · exact .inr (Bool.or_eq_true_iff.mpr (.inl hzi)))
    (fun hinv => by
      obtain hzi | hprod := Bool.or_eq_true_iff.mp hinv
      · exact .inr (Bool.or_eq_true_iff.mpr (.inr hzi))
      · simp only [Bool.and_eq_true, Bool.not_eq_true'] at hprod
        obtain ⟨⟨⟨⟨hna, hnb⟩, -⟩, hc⟩, -⟩ := hprod
        simp [hna, hnb, (classes_of_isInf hc).1])
  have hdup : ∀ x z p : Bool, ((x || z) = true ∨ (z || p) = true) ↔
      (x = true ∨ z = true ∨ p = true) := by decide
  rw [h, hdup]
  simp only [Bool.or_eq_true, Bool.and_eq_true, Bool.not_eq_true', bne_iff_ne, or_assoc, and_assoc]

theorem fsqrt_nv_iff (a : Word) : (fsqrt a).2.nv = true ↔
    isSNaN a = true ∨ (isNaN a = false ∧ isZero a = false ∧ sign a = true) := by
  have hsnan := isNaN_of_isSNaN (a := a)
  rw [(fsqrt_nanOutcome a).nv_iff]
  simp only [Bool.and_eq_true, Bool.not_eq_true']
  tauto

/-! ## The obligations -/

/-- Settles O16: one equation per branch of the adder, and one rounding of the exact sum. -/
theorem faddRoundsTheExactSum : Obligations.FaddRoundsTheExactSum := fun _ _ =>
  ⟨fadd_of_isNaN, fadd_of_isInf, fadd_of_isInf_left, fadd_of_isInf_right,
    fun ha hb => ⟨fadd_exact_zero ha hb, fadd_roundsTo ha hb⟩⟩

/-- Settles O17: `fsub` is `fadd` of the flipped operand by definition, so its branches are the adder's. -/
theorem fsubRoundsTheExactDifference : Obligations.FsubRoundsTheExactDifference := fun _ _ =>
  ⟨rfl, fun ha hb => ⟨fsub_exact_zero ha hb, fsub_roundsTo ha hb⟩⟩

/-- Settles O18: one equation per branch of the multiplier, and one rounding of the exact product. -/
theorem fmulRoundsTheExactProduct : Obligations.FmulRoundsTheExactProduct := by
  intro a b
  simp only [← zero_eq, ← infinity_eq]
  exact ⟨fmul_of_isNaN, fmul_of_zero_inf, fmul_of_isInf,
    fun ha hb => ⟨fmul_of_isZero ha hb, fmul_roundsTo ha hb⟩⟩

/-- Settles O19: one equation per branch, and one rounding of the exact a·b + c. -/
theorem ffmaRoundsOnce : Obligations.FfmaRoundsOnce := by
  intro a b c
  simp only [← infinity_eq]
  exact ⟨ffma_of_isNaN,
    fun hna hnb hnc => ⟨ffma_of_zero_inf hna hnb hnc, ffma_of_isInf_factor hna hnb hnc, ffma_of_isInf_addend⟩,
    fun ha hb hc => ⟨ffma_exact_zero ha hb hc, ffma_roundsTo ha hb hc⟩⟩

/-- Settles O20: the integer root of `units a * 2 ^ 1074` rounds to the nearest, and is exact where its square is. -/
theorem fsqrtRoundsTheExactRoot : Obligations.FsqrtRoundsTheExactRoot := fun _ =>
  ⟨fsqrt_of_isNaN, fsqrt_of_isZero, fsqrt_of_sign, fsqrt_of_isInf, fsqrt_roundsRoot⟩

/-- Settles O21: the NV flag of a `NanOutcome` is R109's list, and its results with NV are canonical. -/
theorem invalidOperationsAreTheListed : Obligations.InvalidOperationsAreTheListed := by
  intro a b c
  refine ⟨fadd_nv_iff a b, fsub_nv_iff a b, fmul_nv_iff a b, ffma_nv_iff a b c, fsqrt_nv_iff a, ?_⟩
  simp only [List.forall_mem_cons, List.not_mem_nil, false_implies, implies_true, and_true]
  exact ⟨(fadd_nanOutcome a b).canonical_of_nv, (fsub_nanOutcome a b).canonical_of_nv,
    (fmul_nanOutcome a b).canonical_of_nv, (ffma_nanOutcome a b c).canonical_of_nv, (fsqrt_nanOutcome a).canonical_of_nv⟩

/-- Settles O22: each primitive's results are a `NanOutcome`, and the signalling operands head R109's lists. -/
theorem nanResultsAreCanonical : Obligations.NanResultsAreCanonical := by
  intro a b c
  simp only [List.forall_mem_cons, List.not_mem_nil, false_implies, implies_true, and_true]
  refine ⟨⟨(fadd_nanOutcome a b).canonical_of_isNaN, (fsub_nanOutcome a b).canonical_of_isNaN,
    (fmul_nanOutcome a b).canonical_of_isNaN, (ffma_nanOutcome a b c).canonical_of_isNaN,
    (fsqrt_nanOutcome a).canonical_of_isNaN⟩, fun h => ?_, fun h => ?_, fun h => ?_, fun ha hb h => ?_, fun h ha => ?_,
    fun ha hb hc h hzi hiz => ?_, rfl, rfl⟩
  · rw [fadd_nv_iff, fsub_nv_iff, fmul_nv_iff, ffma_nv_iff]
    tauto
  · exact (ffma_nv_iff a b c).mpr (.inr (.inr (.inl h)))
  · exact (fsqrt_nv_iff a).mpr (.inl h)
  · have hnan : (isNaN a || isNaN b) = true := by simpa using h
    have hquiet : (isSNaN a || isSNaN b) = false := by simp [ha, hb]
    exact ⟨(fadd_nanOutcome a b).flags_of_quiet hnan hquiet, (fsub_nanOutcome a b).flags_of_quiet hnan hquiet,
      (fmul_nanOutcome a b).flags_of_quiet hnan hquiet⟩
  · exact (fsqrt_nanOutcome a).flags_of_quiet h ha
  · refine (ffma_nanOutcome a b c).flags_of_quiet (by simpa [or_assoc] using h) ?_
    rw [ha, hb, hc, ← Bool.not_eq_true]
    simpa only [Bool.false_or, Bool.or_eq_true, Bool.and_eq_true, not_or] using ⟨hzi, hiz⟩

/-- A product that is no NaN has the XOR of the signs (R110). -/
theorem sign_fmul {a b : Word} (h : isNaN (fmul a b).1 = false) : sign (fmul a b).1 = (sign a ^^ sign b) := by
  unfold fmul at h ⊢
  split_ifs at h ⊢
  · simp [show isNaN canonNaN = true by decide] at h
  · simp [show isNaN canonNaN = true by decide] at h
  · exact sign_infinity _
  · exact sign_zero _
  · exact sign_round _ _ _

/-- Settles O23: the equations of the exact zero branches, with -0 and +0 told apart by class and sign. -/
theorem exactResultSigns : Obligations.ExactResultSigns := by
  intro a b c
  refine ⟨sign_fmul, fun ha hb => ⟨fun hv => ?_, fun hv => ?_, fun hc hv => ?_⟩, fsqrt_of_isZero (by decide),
    fsqrt_of_isZero (by decide)⟩
  · rw [fadd_exact_zero ha hb hv]
    simp only [eq_negZero_iff, and_assoc, and_left_comm]
  · rw [fsub_exact_zero ha hb hv]
    simp only [eq_negZero_iff, eq_posZero_iff, and_assoc, and_left_comm]
  · rw [ffma_exact_zero ha hb hc hv]
    simp only [eq_negZero_iff, and_left_comm]

/-- Settles O24: bit by bit, against the bits of the two masks. -/
theorem signOperationsTouchBit63Only : Obligations.SignOperationsTouchBit63Only := fun a _ hj =>
  ⟨getLsbD_fabs a hj, getLsbD_fneg a hj⟩

end Sys2Proof.F64

namespace Sys2Proof.Machine

/-- A scalar command sets RESULT, adds to FFLAGS and completes (R111, R210). -/
theorem scalarResult_eq (r : Word × Flags) (s : State) : scalarResult r s = { s with
    result := r.1
    fflags := ⟨s.fflags.nx || r.2.nx, s.fflags.uf || r.2.uf, s.fflags.of || r.2.of, s.fflags.nv || r.2.nv⟩
    status := { s.status with busy := false, done := true } } := rfl

/-- Settles O15: each of the four arms of exec is `scalarResult` of its primitive. -/
theorem scalarCommandsComplete : Obligations.ScalarCommandsComplete := by
  intro s
  have hdone (r : Word × Flags) := congrArg (fun t => (.next t : Result)) (scalarResult_eq r s)
  exact ⟨hdone _, hdone _, hdone _, hdone _⟩

end Sys2Proof.Machine
end

section
/-! The values the spectrum commands compute (41_spectrum.md): the frequency of a bin as one monotone rounding of its signed
bin number (R154, R156), and the class, sign and symmetry of a magnitude (R157, R159). -/

namespace Sys2Proof.F64

open Sys2Proof.Machine

/-! ## Rounding a quotient (R103) -/

/-- A representable magnitude is nearest to itself. -/
theorem nearestMag_magVal {m : Nat} (hm : m ≤ infMag) : NearestMag (magVal m : ℝ) m := by
  refine ⟨hm, fun b _ => ⟨by simp, fun hne he => absurd ?_ hne⟩⟩
  rw [sub_self, abs_zero, abs_eq_zero, sub_eq_zero] at he
  exact (magVal_strictMono.injective he).symm

theorem roundMag_mono {p p' q : Nat} (hq : 0 < q) (h : p ≤ p') : roundMag p q ≤ roundMag p' q :=
  (roundMag_nearest p hq).mono (roundMag_nearest p' hq) (by gcongr)

/-- A quotient up to a representable magnitude rounds to at most that magnitude. -/
theorem roundMag_le_of_le_magUnits {p q m : Nat} (hq : 0 < q) (hm : m ≤ infMag) (h : p ≤ magUnits m * q) :
    roundMag p q ≤ m := by
  refine (roundMag_nearest p hq).mono (nearestMag_magVal hm) ?_
  rw [magVal_real rfl]
  have hp : (p : ℝ) ≤ magUnits m * q := by exact_mod_cast h
  have hqR : (0 : ℝ) < q := by exact_mod_cast hq
  gcongr
  exact (div_le_iff₀ hqR).mpr hp

theorem roundMag_zero {q : Nat} (hq : 0 < q) : roundMag 0 q = 0 :=
  Nat.le_zero.mp (roundMag_le_of_le_magUnits hq (Nat.zero_le _) (Nat.zero_le _))

theorem magVal_mono {m n : Nat} (h : m ≤ n) : magVal m ≤ magVal n := by
  exact_mod_cast magVal_strictMono.monotone h

theorem magVal_nonneg (m : Nat) : 0 ≤ magVal m := by unfold magVal; positivity

/-! ## Results without a sign: no NaN, sign bit 0 -/

/-- No NaN, and the sign bit is 0: an operand or a result that R159 calls a magnitude. -/
structure Unsigned (a : Word) : Prop where
  not_nan : isNaN a = false
  sign_eq : sign a = false

theorem Unsigned.signedUnits_nonneg {a : Word} (h : Unsigned a) : 0 ≤ signedUnits a := by
  simp [signedUnits, h.sign_eq]

/-- `fabs` keeps the magnitude bits and clears the sign (R117). -/
theorem fabs_eq_withSign (a : Word) : fabs a = withSign false (a.toNat % 2 ^ 63) := by
  apply BitVec.eq_of_toNat_eq
  rw [toNat_withSign (Nat.mod_lt _ (by positivity)), fabs, BitVec.toNat_and, if_neg (by decide), zero_add]
  exact Nat.and_two_pow_sub_one_eq_mod a.toNat 63

theorem unsigned_fabs {a : Word} (h : isNaN a = false) : Unsigned (fabs a) := by
  have hlt : a.toNat % 2 ^ 63 < 2 ^ 63 := Nat.mod_lt _ (by positivity)
  rw [fabs_eq_withSign]
  refine ⟨isNaN_withSign ?_, sign_withSign hlt⟩
  rwa [← Bool.not_eq_true, isNaN_iff, not_lt] at h

theorem fabs_of_isZero {a : Word} (h : isZero a = true) : fabs a = 0#64 := by
  rw [fabs_eq_withSign, (isZero_iff a).mp h]
  rfl

/-- The square of a non-zero number (R110, R114). -/
theorem unsigned_square {a : Word} (hn : isNaN a = false) (hz : isZero a = false) : Unsigned (fmul a a).1 := by
  obtain ⟨hnan, -⟩ := (fmul_nanOutcome a a).of_number (by simp [hn]) (by simp [zeroTimesInf, hz])
  exact ⟨hnan, by rw [sign_fmul hnan, Bool.xor_self]⟩

/-- The sum of two unsigned numbers (R112). -/
theorem unsigned_fadd {a b : Word} (ha : Unsigned a) (hb : Unsigned b) : Unsigned (fadd a b).1 := by
  obtain ⟨hnan, -⟩ := (fadd_nanOutcome a b).of_number (by simp [ha.not_nan, hb.not_nan])
    (by simp [ha.sign_eq, hb.sign_eq])
  refine ⟨hnan, ?_⟩
  rcases finite_or_inf_of_not_isNaN ha.not_nan with hfa | hia <;>
    rcases finite_or_inf_of_not_isNaN hb.not_nan with hfb | hib
  · rw [fadd_finite hfa hfb]
    split
    · rw [sign_zero, ha.sign_eq, Bool.and_false, Bool.false_and]
    · rw [sign_round, decide_eq_false_iff_not, not_lt]
      exact add_nonneg ha.signedUnits_nonneg hb.signedUnits_nonneg
  · rw [fadd_of_isInf_right hfa hib]
    exact hb.sign_eq
  · rw [fadd_of_isInf_left hia hfb]
    exact ha.sign_eq
  · rw [fadd_of_isInf hia hib, if_pos (ha.sign_eq.trans hb.sign_eq.symm)]
    exact ha.sign_eq

/-- The root of an unsigned number (R116). -/
theorem unsigned_fsqrt {a : Word} (h : Unsigned a) : Unsigned (fsqrt a).1 := by
  obtain ⟨hnan, -⟩ := (fsqrt_nanOutcome a).of_number h.not_nan (by simp [h.sign_eq])
  refine ⟨hnan, ?_⟩
  cases hz : isZero a with
  | true => rw [fsqrt_of_isZero hz]; exact h.sign_eq
  | false =>
    rcases finite_or_inf_of_not_isNaN h.not_nan with hf | hi
    · rw [fsqrt_of_isFinite hf hz h.sign_eq]
      exact sign_withSign (lt_of_le_infMag (sqrtMag_nearest (units_pos hz) (units_le hf)).2.le)
    · rw [fsqrt_of_isInf hi h.sign_eq]
      exact h.sign_eq

/-- Infinities of one sign are one pattern (R100). -/
theorem eq_of_isInf {a b : Word} (ha : isInf a = true) (hb : isInf b = true) (hs : sign a = sign b) : a = b := by
  rw [← withSign_sign a, ← withSign_sign b, (isInf_iff a).mp ha, (isInf_iff b).mp hb, hs]

/-- The adder is commutative, flags included (R112). -/
theorem fadd_comm (a b : Word) : fadd a b = fadd b a := by
  by_cases hn : isNaN a = true ∨ isNaN b = true
  · rw [fadd_of_isNaN hn, fadd_of_isNaN hn.symm, Bool.or_comm]
  · simp only [not_or, Bool.not_eq_true] at hn
    rcases finite_or_inf_of_not_isNaN hn.1 with ha | ha <;> rcases finite_or_inf_of_not_isNaN hn.2 with hb | hb
    · simp only [fadd_finite ha hb, fadd_finite hb ha, add_comm, Bool.and_comm, Bool.and_left_comm, Bool.and_assoc]
    · rw [fadd_of_isInf_right ha hb, fadd_of_isInf_left hb ha]
    · rw [fadd_of_isInf_left ha hb, fadd_of_isInf_right hb ha]
    · rw [fadd_of_isInf ha hb, fadd_of_isInf hb ha]
      by_cases hs : sign a = sign b
      · rw [eq_of_isInf ha hb hs]
      · rw [if_neg hs, if_neg (Ne.symm hs)]

end Sys2Proof.F64

namespace Sys2Proof.Machine

/-! ## The frequency of a bin (R154, R156) -/

/-- RN(j · val(fs) / N) of a signed bin number j, +0.0 for j = 0 (R154). -/
def freqAt (fs : Word) (N : Nat) (j : ℤ) : Word :=
  F64.withSign (decide (j < 0)) (F64.roundMag (j.natAbs * F64.units fs) N)

/-- The machine's frequency depends on the bin number alone; its case j = 0 is the rounding of 0. -/
theorem binFreq_eq_freqAt (fs : Word) {N : Nat} (hN : 0 < N) (k : Nat) (fold : Bool) :
    binFreq fs N k fold = freqAt fs N (binNumber N k fold) := by
  unfold binFreq freqAt
  simp only
  split
  · rename_i hj
    simp [hj, F64.roundMag_zero hN, F64.zero]
  · rfl

theorem binNumber_eq (N k : Nat) (fold : Bool) :
    binNumber N k fold = if fold = true ∧ N ≤ 2 * k then (k : ℤ) - N else k := by
  simp [binNumber]

theorem natAbs_binNumber_le {N k : Nat} (hk : k < N) (fold : Bool) : (binNumber N k fold).natAbs ≤ N := by
  rw [binNumber_eq]
  split <;> omega

theorem sign_freqAt (fs : Word) (N : Nat) (j : ℤ) : F64.sign (freqAt fs N j) = decide (j < 0) :=
  F64.sign_withSign (F64.lt_of_le_infMag (F64.roundMag_le _ _))

theorem val_freqAt (fs : Word) (N : Nat) (j : ℤ) : F64.val (freqAt fs N j) =
    if j < 0 then -F64.magVal (F64.roundMag (j.natAbs * F64.units fs) N)
    else F64.magVal (F64.roundMag (j.natAbs * F64.units fs) N) := by
  rw [freqAt, F64.val_withSign (F64.lt_of_le_infMag (F64.roundMag_le _ _))]
  simp only [decide_eq_true_eq]

section
variable (fs : Word) {N : Nat} (hN : 0 < N)
include hN

/-- The frequency grows with the signed bin number (R156). -/
theorem val_freqAt_mono {j j' : ℤ} (h : j ≤ j') : F64.val (freqAt fs N j) ≤ F64.val (freqAt fs N j') := by
  have hmag {a b : Nat} (hab : a ≤ b) : F64.magVal (F64.roundMag (a * F64.units fs) N) ≤
      F64.magVal (F64.roundMag (b * F64.units fs) N) :=
    F64.magVal_mono (F64.roundMag_mono hN (Nat.mul_le_mul_right _ hab))
  rw [val_freqAt fs N j, val_freqAt fs N j']
  split_ifs with hj hj'
  · exact neg_le_neg (hmag (by omega))
  · exact (neg_nonpos.mpr (F64.magVal_nonneg _)).trans (F64.magVal_nonneg _)
  · omega
  · exact hmag (by omega)

/-- A bin number up to N gives at most the sample rate, which is finite (R154). -/
theorem isFinite_freqAt (hfs : F64.isFinite fs = true) {j : ℤ} (hj : j.natAbs ≤ N) :
    F64.isFinite (freqAt fs N j) = true := by
  have hm := (F64.isFinite_iff fs).mp hfs
  have hle : F64.roundMag (j.natAbs * F64.units fs) N ≤ fs.toNat % 2 ^ 63 := by
    refine F64.roundMag_le_of_le_magUnits hN hm.le ?_
    rw [mul_comm]
    exact Nat.mul_le_mul_left (F64.units fs) hj
  exact (F64.isFinite_withSign (F64.lt_of_le_infMag (F64.roundMag_le _ _))).mpr (hle.trans_lt hm)

/-- The frequency of a non-zero bin number is one rounding of the exact quotient (R154). -/
theorem isRN_freqAt (hz : F64.isZero fs = false) (hs : F64.sign fs = false) {j : ℤ} (hj : j ≠ 0) :
    F64.IsRN ((j : ℝ) * F64.val fs / N) (freqAt fs N j) := by
  have hu : (0 : ℤ) < F64.units fs := by exact_mod_cast F64.units_pos hz
  have h := (F64.round_roundsTo_int (j * F64.units fs) (mul_ne_zero hj hu.ne') hN).1
  have hv : ((j * F64.units fs : ℤ) : ℝ) / N / 2 ^ 1074 = (j : ℝ) * F64.val fs / N := by
    rw [F64.val_of_sign_false hs, Int.cast_mul, Int.cast_natCast]
    generalize (2 : ℝ) ^ 1074 = D
    ring
  have hr : (F64.round (decide (j * F64.units fs < 0)) (j * F64.units fs).natAbs N).1 = freqAt fs N j := by
    simp only [F64.round, freqAt, Int.natAbs_mul, Int.natAbs_natCast, mul_neg_iff, hu, hu.not_gt, and_true, and_false,
      false_or]
  rwa [hv, hr] at h

end

theorem isFinite_binFreq {fs : Word} (hfs : F64.isFinite fs = true) {N k : Nat} (hk : k < N) (fold : Bool) :
    F64.isFinite (binFreq fs N k fold) = true := by
  rw [binFreq_eq_freqAt fs (by omega)]
  exact isFinite_freqAt fs (by omega) hfs (natAbs_binNumber_le hk fold)

theorem binFreq_of_binNumber_eq_zero {fs : Word} {N k : Nat} {fold : Bool} (h : binNumber N k fold = 0) :
    binFreq fs N k fold = 0#64 := by
  simp only [binFreq, h, if_true]
  rfl

theorem isRN_binFreq {s : State} (hfs : FsPositive s) {N k : Nat} (hN : 0 < N) {fold : Bool}
    (h : binNumber N k fold ≠ 0) :
    F64.IsRN ((binNumber N k fold : ℝ) * F64.val s.regs.fs / N) (binFreq s.regs.fs N k fold) := by
  obtain ⟨-, hz, hs⟩ := hfs
  rw [binFreq_eq_freqAt _ hN]
  exact isRN_freqAt _ hN hz hs h

theorem val_binFreq_mono (fs : Word) {N : Nat} (hN : 0 < N) {k k' : Nat} {fold : Bool}
    (h : binNumber N k fold ≤ binNumber N k' fold) :
    F64.val (binFreq fs N k fold) ≤ F64.val (binFreq fs N k' fold) := by
  rw [binFreq_eq_freqAt fs hN, binFreq_eq_freqAt fs hN]
  exact val_freqAt_mono fs hN h

theorem sign_binFreq (fs : Word) {N : Nat} (hN : 0 < N) (k : Nat) (fold : Bool) :
    F64.sign (binFreq fs N k fold) = decide (binNumber N k fold < 0) := by
  rw [binFreq_eq_freqAt fs hN]
  exact sign_freqAt fs N _

/-- Below H the two axes agree (R154, R163). -/
theorem binFreq_of_lt_half (fs : Word) {N k : Nat} (hk : k < (N + 1) / 2) (fold : Bool) :
    binFreq fs N k fold = binFreq fs N k false := by
  have hj : binNumber N k fold = binNumber N k false := by
    rw [binNumber_eq, binNumber_eq, if_neg (by omega), if_neg (by simp)]
  simp only [binFreq, hj]

/-! ## The magnitude (R157, R159) -/

theorem binMag_of_isNaN {re im : Word} (h : F64.isNaN re = true ∨ F64.isNaN im = true) :
    binMag re im = F64.canonNaN := by
  rw [binMag, if_pos (by simpa using h)]

theorem binMag_of_isZero_im {re im : Word} (hre : F64.isNaN re = false) (him : F64.isZero im = true) :
    binMag re im = F64.fabs re := by
  rw [binMag, if_neg (by simp [hre, F64.classes_of_isZero him]), if_pos him]

theorem binMag_of_isZero_re {re im : Word} (hre : F64.isZero re = true) (him : F64.isNaN im = false) :
    binMag re im = F64.fabs im := by
  rw [binMag, if_neg (by simp [him, F64.classes_of_isZero hre])]
  split
  · rename_i hz
    rw [F64.fabs_of_isZero hre, F64.fabs_of_isZero hz]
  · rfl

/-- The literal formula of R157, with its three roundings. -/
theorem binMag_of_not_isZero {re im : Word} (hre : F64.isNaN re = false) (him : F64.isNaN im = false)
    (hre0 : F64.isZero re = false) (him0 : F64.isZero im = false) :
    binMag re im = (F64.fsqrt (F64.fadd (F64.fmul re re).1 (F64.fmul im im).1).1).1 := by
  simp [binMag, hre, him, hre0, him0]

theorem unsigned_binMag {re im : Word} (hre : F64.isNaN re = false) (him : F64.isNaN im = false) :
    F64.Unsigned (binMag re im) := by
  cases him0 : F64.isZero im with
  | true => rw [binMag_of_isZero_im hre him0]; exact F64.unsigned_fabs hre
  | false =>
    cases hre0 : F64.isZero re with
    | true => rw [binMag_of_isZero_re hre0 him]; exact F64.unsigned_fabs him
    | false =>
      rw [binMag_of_not_isZero hre him hre0 him0]
      exact F64.unsigned_fsqrt (F64.unsigned_fadd (F64.unsigned_square hre hre0) (F64.unsigned_square him him0))

theorem binMag_eq_canonNaN_iff (re im : Word) :
    binMag re im = F64.canonNaN ↔ F64.isNaN re = true ∨ F64.isNaN im = true := by
  refine ⟨fun h => ?_, binMag_of_isNaN⟩
  by_contra hn
  simp only [not_or, Bool.not_eq_true] at hn
  have hnum := (unsigned_binMag hn.1 hn.2).not_nan
  rw [h] at hnum
  exact absurd hnum (by decide)

theorem binMag_comm (re im : Word) : binMag re im = binMag im re := by
  by_cases hn : F64.isNaN re = true ∨ F64.isNaN im = true
  · rw [binMag_of_isNaN hn, binMag_of_isNaN hn.symm]
  · simp only [not_or, Bool.not_eq_true] at hn
    obtain ⟨hre, him⟩ := hn
    cases him0 : F64.isZero im with
    | true => rw [binMag_of_isZero_im hre him0, binMag_of_isZero_re him0 hre]
    | false =>
      cases hre0 : F64.isZero re with
      | true => rw [binMag_of_isZero_re hre0 him, binMag_of_isZero_im him hre0]
      | false =>
        rw [binMag_of_not_isZero hre him hre0 him0, binMag_of_not_isZero him hre him0 hre0, F64.fadd_comm]

end Sys2Proof.Machine
end

section
/-! What DFT writes (41_spectrum.md R142 to R151): each bin from the samples, and the accuracy of the forced zeros and of the
mirrored bins. -/

namespace Sys2Proof.Machine

/-! ## The bins from the samples (R146 to R151) -/

/-- A one-point transform is the sample itself (R150). -/
theorem dftBin_one (xs : List Word) : dftBin 1 xs 0 = (xs.getD 0 0, 0#64) := rfl

/-- A computed bin is P_DFT_BIN's, but for the forced zeros (R147, R149). -/
theorem dftBin_of_le_half {N k : Nat} (xs : List Word) (hN : 2 ≤ N) (hk : k ≤ N / 2) :
    dftBin N xs k = ((Config.dft.bin N xs k).1, if k = 0 ∨ 2 * k = N then 0#64 else (Config.dft.bin N xs k).2) := by
  simp [dftBin, computedBin, hk, show N ≠ 1 by omega]

/-- The bins above N/2 are the conjugates of those below (R146, R151). -/
theorem dftBin_mirror {N k : Nat} (xs : List Word) (hk : N / 2 < k) (hkN : k < N) :
    dftBin N xs k = ((dftBin N xs (N - k)).1, F64.fneg (dftBin N xs (N - k)).2) := by
  simp only [dftBin, if_neg (show ¬k ≤ N / 2 by omega), if_pos (show N - k ≤ N / 2 by omega)]

/-- Written samples are read as they are, whatever the draws (R64, R147). -/
theorem dftSamples_of_holds {s : State} {x : Nat → Word} (h : Holds s s.regs.xBase s.regs.nlen.toNat x) :
    dftSamples s = (List.range s.regs.nlen.toNat).map x :=
  List.map_congr_left fun n hn => readWord_of_wordAt (h n (List.mem_range.mp hn)) _

/-- Written finite samples pass the finiteness scan (R145). -/
theorem ready_dft_of_holds {s : State} {x : Nat → Word} (hr : DftReady s)
    (h : Holds s s.regs.xBase s.regs.nlen.toNat x) (hf : ∀ n < s.regs.nlen.toNat, F64.isFinite (x n) = true) :
    Ready .dft s :=
  ⟨hr, fun n hn => by rw [readWord_of_wordAt (h n hn)]; exact hf n hn⟩

end Sys2Proof.Machine

namespace Sys2Proof

/-! ## Accuracy (R148) -/

/-- A zero may stand for the imaginary part of bins 0 and N/2: the exact one is 0 (R149). -/
theorem BinWithin.forced_zero {tol : ℝ} {N k : Nat} {xs : List Word} {bin : Word × Word} (h : BinWithin tol N xs k bin)
    (hN : 0 < N) (hk : k = 0 ∨ 2 * k = N) : BinWithin tol N xs k (bin.1, 0#64) := by
  have hsin (n : Nat) : Real.sin (2 * Real.pi * k * n / N) = 0 := by
    obtain rfl | hk := hk
    · simp
    · have hNR : (N : ℝ) = 2 * k := by exact_mod_cast hk.symm
      have hkR : (k : ℝ) ≠ 0 := by exact_mod_cast (show k ≠ 0 by omega)
      rw [hNR, show 2 * Real.pi * k * n / (2 * k) = n * Real.pi by field_simp]
      exact Real.sin_nat_mul_pi n
  obtain ⟨hre, -, hcos, him⟩ := h
  refine ⟨hre, show F64.isFinite 0#64 = true by decide, hcos, ?_⟩
  have hz : F64.val 0#64 = 0 := by simp [F64.val, (F64.signedUnits_eq_zero_iff 0#64).mpr (by decide)]
  simpa [hsin, hz] using (abs_nonneg _).trans him

/-- The conjugate of bin k is as accurate for bin N - k (R146). -/
theorem BinWithin.mirror {tol : ℝ} {N k : Nat} {xs : List Word} {bin : Word × Word} (h : BinWithin tol N xs k bin)
    (hN : 0 < N) (hk : k ≤ N) : BinWithin tol N xs (N - k) (bin.1, F64.fneg bin.2) := by
  have hNR : (N : ℝ) ≠ 0 := by exact_mod_cast hN.ne'
  have hangle (n : Nat) : 2 * Real.pi * ((N - k : ℕ) : ℝ) * n / N = n * (2 * Real.pi) - 2 * Real.pi * k * n / N := by
    rw [Nat.cast_sub hk]
    field_simp
  obtain ⟨hre, him, hcos, hsin⟩ := h
  refine ⟨hre, by simpa using him, ?_, ?_⟩
  · simpa only [hangle, Real.cos_nat_mul_two_pi_sub] using hcos
  · simp only [hangle, Real.sin_nat_mul_two_pi_sub, F64.val_fneg, mul_neg, Finset.sum_neg_distrib, Rat.cast_neg]
    rwa [← abs_neg, neg_sub, sub_neg_eq_add, neg_neg, add_comm, ← sub_neg_eq_add]

end Sys2Proof

namespace Sys2Proof.Machine

/-- Every bin DFT writes is within P_FFT_TOL (R148, R149, R151). -/
theorem binWithin_dftBin {N k : Nat} {xs : List Word} (hN : 2 ≤ N) (hlen : xs.length = N)
    (hf : ∀ x ∈ xs, F64.isFinite x = true) (hb : BinBounded Config.dft.tol N xs) (hk : k < N) :
    BinWithin Config.dft.tol N xs k (dftBin N xs k) := by
  have hcomputed {k : Nat} (hk : k ≤ N / 2) : BinWithin Config.dft.tol N xs k (dftBin N xs k) := by
    have h := Config.dft.accurate.2 N xs k hN hlen hf hk hb
    rw [dftBin_of_le_half xs hN hk]
    split
    · rename_i h0
      exact h.forced_zero (by omega) h0
    · exact h
  rcases Nat.lt_or_ge (N / 2) k with hlt | hle
  · have h := (hcomputed (k := N - k) (by omega)).mirror (by omega) (by omega)
    rwa [Nat.sub_sub_self hk.le, ← dftBin_mirror xs hlt hk] at h
  · exact hcomputed hle

end Sys2Proof.Machine
end

section
/-! The spectrum commands (41_spectrum.md): each output word of a command's effect, and the claims O29 to O37 about them. -/

namespace Sys2Proof.Machine

/-! ## The words a command writes (R51) -/

theorem wordAt_dftEffect_im (s : State) {k : Nat} (hk : k < len s) :
    wordAt (dftEffect s).dmem (s.regs.imBase.toNat + k) = some (dftBin (len s) (dftSamples s) k).2 :=
  wordAt_writeBuffer_inside _ _ _ hk

theorem wordAt_dftEffect_re {s : State} (hr : DftReady s) {k : Nat} (hk : k < len s) :
    wordAt (dftEffect s).dmem (s.regs.reBase.toNat + k) = some (dftBin (len s) (dftSamples s) k).1 := by
  obtain ⟨-, -, -, -, -, -, hapart⟩ := hr
  rw [dftEffect_dmem, wordAt_writeBuffer_outside _ _ _ (by omega), wordAt_writeBuffer_inside _ _ _ hk]

theorem wordAt_freqmapEffect (fold : Bool) (s : State) {k : Nat} (hk : k < len s) :
    wordAt (freqmapEffect fold s).dmem (s.regs.fBase.toNat + k) = some (binFreq s.regs.fs (len s) k fold) :=
  wordAt_writeBuffer_inside _ _ _ hk

theorem wordAt_magEffect (s : State) {k : Nat} (hk : k < len s) :
    wordAt (magEffect s).dmem (s.regs.mBase.toNat + k) = some (magOutput s k) :=
  wordAt_writeBuffer_inside _ _ _ hk

theorem wordAt_halfspecEffect_m (s : State) {k : Nat} (hk : k < halfLen s) :
    wordAt (halfspecEffect s).dmem (s.regs.mBase.toNat + k) = some (magOutput s k) :=
  wordAt_writeBuffer_inside _ _ _ hk

theorem wordAt_halfspecEffect_f {s : State} (hr : HalfspecReady s) {k : Nat} (hk : k < halfLen s) :
    wordAt (halfspecEffect s).dmem (s.regs.fBase.toNat + k) = some (binFreq s.regs.fs (len s) k false) := by
  obtain ⟨-, -, -, -, -, -, -, -, -, -, hapart⟩ := hr
  rw [halfspecEffect_dmem, wordAt_writeBuffer_outside _ _ _ (by omega), wordAt_writeBuffer_inside _ _ _ hk]

/-- The state a ready command ends in (R85, R210). -/
theorem eq_complete_of_exec {i : Instr} {s t : State} (h : Ready i s) (ht : exec i s = .next t) :
    t = complete (commandEffect i s) := by
  rw [exec_of_ready h, Host.Outcome.next.injEq] at ht
  exact ht.symm

/-! ## FREQMAP's two words (R155) -/

theorem ready_freqmap {s : State} (h : FreqmapReady s) (fold : Bool) :
    Ready (if fold then .freqmapFold else .freqmap) s := by cases fold <;> exact h

theorem commandEffect_freqmap (s : State) (fold : Bool) :
    commandEffect (if fold then .freqmapFold else .freqmap) s = freqmapEffect fold s := by cases fold <;> rfl

theorem tableRegions_freqmap (s : State) (fold : Bool) :
    tableRegions (if fold then .freqmapFold else .freqmap) s = [(s.regs.fBase.toNat, s.regs.nlen.toNat)] := by
  cases fold <;> rfl

/-! ## DFT -/

/-- Settles O29: the words of `dftEffect`, by the three forms of `dftBin`. -/
theorem dftWritesBins : Obligations.DftWritesBins := by
  intro s h N re im xs
  have hr : DftReady s := h.1
  have hN : 1 ≤ N := hr.1
  have hre {k : Nat} (hk : k < N) : wordAt (complete (commandEffect .dft s)).dmem (re + k) = some (dftBin N xs k).1 :=
    wordAt_dftEffect_re hr hk
  have him {k : Nat} (hk : k < N) : wordAt (complete (commandEffect .dft s)).dmem (im + k) = some (dftBin N xs k).2 :=
    wordAt_dftEffect_im s hk
  refine ⟨_, exec_of_ready h, completedFrame_complete .dft s, rfl, rfl, sameBytesOutside_complete .dft s,
    fun h1 => ?_, fun h2 k hk => ?_, fun k hk hkN => ?_⟩
  · have hbin : dftBin N xs 0 = (readWord s (.dftSample 0) s.regs.xBase.toNat, 0#64) := by simp [xs, h1, dftBin_one]
    have hre0 := hre (k := 0) hN
    have him0 := him (k := 0) hN
    rw [hbin] at hre0 him0
    exact ⟨hre0, him0⟩
  · have hkN : k < N := by omega
    rw [hre hkN, him hkN, dftBin_of_le_half xs h2 hk]
    exact ⟨rfl, rfl⟩
  · have hm : N - k < N := by omega
    rw [hre hkN, him hkN, hre hm, him hm, dftBin_mirror xs hk hkN]
    exact ⟨rfl, rfl⟩

/-- Settles O30: written samples are read as they are, and `binWithin_dftBin` covers every bin. -/
theorem dftIsWithinTolerance : Obligations.DftIsWithinTolerance := by
  intro s x N xs hr hN hx hf hb
  have hxs : dftSamples s = xs := dftSamples_of_holds hx
  have hmem : ∀ w ∈ xs, F64.isFinite w = true := by simpa [xs] using hf
  refine ⟨_, exec_of_ready (ready_dft_of_holds hr hx hf), fun k hk =>
    ⟨_, _, wordAt_dftEffect_re hr hk, wordAt_dftEffect_im s hk, ?_⟩⟩
  rw [hxs]
  exact binWithin_dftBin hN (by simp [xs]) hmem hb hk

/-- Settles O31: both commands write `dftBin` of the one list of samples. -/
theorem dftIsAFunctionOfItsInput : Obligations.DftIsAFunctionOfItsInput := by
  intro s s' t t' x h h' hlen hx hx' ht ht' k hk
  have hN : len s = len s' := congrArg BitVec.toNat hlen
  have hxs : dftSamples s = dftSamples s' := by
    rw [dftSamples_of_holds hx, dftSamples_of_holds (hlen ▸ hx'), hlen]
  have hk' : k < len s' := hN ▸ hk
  have hre' := wordAt_dftEffect_re h'.1 hk'
  have him' := wordAt_dftEffect_im s' hk'
  rw [← hN, ← hxs] at hre' him'
  rw [eq_complete_of_exec h ht, eq_complete_of_exec h' ht']
  exact ⟨_, _, wordAt_dftEffect_re h.1 hk, hre', wordAt_dftEffect_im s hk, him'⟩

/-! ## FREQMAP -/

/-- Settles O32: `binFreq` is one rounding of its signed bin number. -/
theorem freqmapWritesRoundedAxis : Obligations.FreqmapWritesRoundedAxis := by
  intro s fold h N
  have hN : 0 < N := h.1
  have hfs : FsPositive s := h.2.1
  have hcmd := ready_freqmap h fold
  refine ⟨_, exec_of_ready hcmd, completedFrame_complete _ s, ?_, ?_, ?_, fun k hk => ?_⟩
  · rw [commandEffect_freqmap]; rfl
  · rw [commandEffect_freqmap]; rfl
  · have := sameBytesOutside_complete (if fold then .freqmapFold else .freqmap) s
    rwa [tableRegions_freqmap] at this
  · rw [commandEffect_freqmap, ← binNumber_eq]
    exact ⟨_, wordAt_freqmapEffect fold s hk, isFinite_binFreq hfs.1 hk fold, binFreq_of_binNumber_eq_zero,
      isRN_binFreq hfs hN⟩

/-- Settles O33: values follow the signed bin numbers, so each clause compares two bin numbers. -/
theorem frequencyAxisIsOrdered : Obligations.FrequencyAxisIsOrdered := by
  intro s t fold h ht N H
  have hN : 0 < N := h.1
  have hmono {fold : Bool} {k k' : Nat} (hj : binNumber N k fold ≤ binNumber N k' fold) :=
    val_binFreq_mono s.regs.fs hN hj
  rw [eq_complete_of_exec (ready_freqmap h fold) ht, commandEffect_freqmap]
  refine ⟨_, fun k hk => wordAt_freqmapEffect fold s hk, ?_, ?_⟩
  · rintro rfl k -
    exact hmono (by simp [binNumber_eq])
  · rintro rfl
    have hlow {k : Nat} (hk : k < H) : binNumber N k true = k := by rw [binNumber_eq, if_neg (by omega)]
    have hhigh {k : Nat} (hk : H ≤ k) : binNumber N k true = k - N := by
      rw [binNumber_eq, if_pos ⟨rfl, by omega⟩]
    have hsign (k : Nat) : F64.sign (binFreq s.regs.fs (len s) k true) = decide (binNumber N k true < 0) :=
      sign_binFreq s.regs.fs hN k true
    refine ⟨fun k hk => hmono ?_, fun k hk _ => hmono ?_, fun k hk => ?_, fun k hk hkN => ?_, fun hH k hk => ?_⟩
    · rw [hlow (by omega), hlow hk]; omega
    · rw [hhigh hk, hhigh (by omega)]; omega
    · rw [hsign, hlow hk, decide_eq_false_iff_not]; omega
    · rw [hsign, hhigh hk, decide_eq_true_eq]; omega
    · have h0 := hlow (k := H - 1) (by omega)
      have hH0 := hhigh (k := H) le_rfl
      rcases Nat.lt_or_ge k H with hkH | hkH
      · have hk' := hlow hkH
        exact ⟨hmono (by omega), hmono (by omega)⟩
      · have hk' := hhigh hkH
        exact ⟨hmono (by omega), hmono (by omega)⟩

/-! ## MAG and HALFSPEC -/

/-- Settles O34: the words of `magEffect`, with R157's branches written out. -/
theorem magWritesMagnitudes : Obligations.MagWritesMagnitudes := by
  intro s h N
  refine ⟨_, exec_of_ready (i := .mag) h, completedFrame_complete .mag s, rfl, rfl, sameBytesOutside_complete .mag s,
    fun k hk => ?_⟩
  refine (wordAt_magEffect s hk).trans (congrArg some ?_)
  simp only [magOutput, binMag, F64.canonNaN, Bool.or_eq_true]

/-- Settles O35: a magnitude of numbers is unsigned, and the one-point bin of a finite sample has a zero imaginary part. -/
theorem magnitudeProperties : Obligations.MagnitudeProperties := by
  refine ⟨fun re im => ⟨binMag_eq_canonNaN_iff re im, fun hre him => (unsigned_binMag hre him).sign_eq,
    binMag_of_isZero_im, binMag_comm re im⟩, fun s t x h h1 hx ht => ?_⟩
  have hlen : len s = 1 := congrArg BitVec.toNat h1
  have hfin : F64.isFinite x = true := by
    have := h.2 0 (by omega)
    rwa [readWord_of_wordAt (by simpa using hx)] at this
  have hbin : dftBin (len s) (dftSamples s) 0 = (x, 0#64) := by
    rw [hlen, dftBin_one]
    simp [dftSamples, hlen, readWord_of_wordAt hx]
  have hre := wordAt_dftEffect_re h.1 (show 0 < len s by omega)
  have him := wordAt_dftEffect_im s (show 0 < len s by omega)
  rw [hbin] at hre him
  rw [eq_complete_of_exec h ht]
  exact ⟨x, 0#64, hre, him, binMag_of_isZero_im (F64.classes_of_isFinite hfin).1 (by decide)⟩

/-- Settles O36: the words of `halfspecEffect`; below H the bin number is k. -/
theorem halfspecWritesPairs : Obligations.HalfspecWritesPairs := by
  intro s h N H
  have hN : 0 < N := h.1
  have hfs : FsPositive s := h.2.1
  refine ⟨_, exec_of_ready (i := .halfspec) h, completedFrame_complete .halfspec s, rfl, rfl,
    sameBytesOutside_complete .halfspec s, fun k hk => ⟨⟨_, wordAt_halfspecEffect_f h hk, ?_, fun h0 => ?_, fun h0 => ?_⟩,
      wordAt_halfspecEffect_m s hk⟩⟩
  · exact isFinite_binFreq hfs.1 (show k < N by omega) false
  · exact binFreq_of_binNumber_eq_zero (by simp [binNumber_eq, h0])
  · have hrn := isRN_binFreq hfs hN (k := k) (fold := false) (by simpa [binNumber_eq] using h0)
    rwa [show binNumber N k false = k by simp [binNumber_eq], Int.cast_natCast] at hrn

/-- Settles O37: below H the axes agree, and both commands write the magnitude of the one pair. -/
theorem halfspecAgreesWithFreqmapAndMag : Obligations.HalfspecAgreesWithFreqmapAndMag := by
  intro s t tf tm fold re im h hf hm _ _ ht htf htm k hk
  have hkN : k < len s := by have := hf.1; simp only [len] at *; omega
  rw [eq_complete_of_exec (i := .halfspec) h ht, eq_complete_of_exec (ready_freqmap hf fold) htf,
    eq_complete_of_exec (i := .mag) hm htm, commandEffect_freqmap]
  refine ⟨_, _, wordAt_halfspecEffect_f h hk, ?_, wordAt_halfspecEffect_m s hk, wordAt_magEffect s hkN⟩
  exact (wordAt_freqmapEffect fold s hkN).trans (congrArg some (binFreq_of_lt_half _ hk fold))

end Sys2Proof.Machine
end

section
/-! The arithmetic of FIR's special tap sets (40_fp_arith.md, R190): multiply-accumulate steps whose exact result is
representable. -/

namespace Sys2Proof.F64

open Sys2Proof.Machine

@[simp] theorem isZero_zero (s : Bool) : isZero (zero s) = true := by cases s <;> decide

theorem val_of_isZero {a : Word} (h : isZero a = true) : val a = 0 := by
  simp [val, (signedUnits_eq_zero_iff a).mpr h]

theorem signedUnits_one : signedUnits 0x3FF0000000000000#64 = 2 ^ 1074 := by
  rw [signedUnits, units_one, if_neg (by decide), Nat.cast_pow, Nat.cast_ofNat]

theorem fmul_comm (a b : Word) : fmul a b = fmul b a := by
  simp only [fmul, Bool.xor_comm (sign a), Bool.or_comm (isNaN a), Bool.or_comm (isSNaN a), Bool.or_comm (isInf a),
    Bool.or_comm (isZero a), Nat.mul_comm (units a), Bool.and_comm (isInf a), Bool.and_comm (isZero a),
    Bool.or_comm (isZero b && isInf a)]

/-- A finite number times 1.0 is itself, without a flag (R114). -/
theorem fmul_one_right {a : Word} (h : isFinite a = true) : fmul a 0x3FF0000000000000#64 = (a, noFlags) := by
  rw [fmul_comm, fmul_one, if_neg (by simp [classes_of_isFinite h])]

/-- A product with 1.0 is invalid where the other operand signals (R109). -/
theorem fmul_one_nv_iff (a : Word) : (fmul 0x3FF0000000000000#64 a).2.nv = true ↔ isSNaN a = true := by
  have hone : isSNaN 0x3FF0000000000000#64 = false ∧ isZero 0x3FF0000000000000#64 = false ∧
      isInf 0x3FF0000000000000#64 = false := by decide
  simp [fmul_nv_iff, hone]

/-- An exact sum z / q that is the value of a pattern `c` gives a finite number of that value, a zero of either sign where
z = 0. -/
theorem exact_sum_representable {c : Word} (hc : isFinite c = true) {q : Nat} (hq : 0 < q) {z : ℤ}
    (hz : z = signedUnits c * q) (sgn : Bool) {r : Word × Flags}
    (hr : r = if z = 0 then (zero sgn, noFlags) else round (decide (z < 0)) z.natAbs q) :
    isFinite r.1 = true ∧ val r.1 = val c := by
  have hqz : (0 : ℤ) < q := by exact_mod_cast hq
  by_cases h0 : signedUnits c = 0
  · rw [hr, if_pos (by rw [hz, h0, zero_mul]), val_of_isZero (isZero_zero sgn),
      val_of_isZero ((signedUnits_eq_zero_iff c).mp h0)]
    exact ⟨(classes_of_isZero (isZero_zero sgn)).2.2, rfl⟩
  · have hround : round (decide (z < 0)) z.natAbs q = (c, noFlags) := by
      rw [hz, Int.natAbs_mul, Int.natAbs_natCast, ← round_signedUnits hc h0 hq]
      simp only [mul_neg_iff, hqz, hqz.not_gt, and_true, and_false, false_or]
    rw [hr, if_neg (by rw [hz]; exact mul_ne_zero h0 hqz.ne'), hround]
    exact ⟨hc, rfl⟩

section
variable {a b c : Word} (ha : isFinite a = true) (hc : isZero c = true)
include ha hc

/-- A number added to a zero keeps its value (R112). -/
theorem fadd_zero_left : isFinite (fadd c a).1 = true ∧ val (fadd c a).1 = val a := by
  have hcu := (signedUnits_eq_zero_iff c).mpr hc
  refine exact_sum_representable ha one_pos ?_ _ (fadd_finite (classes_of_isZero hc).2.2 ha)
  rw [hcu, zero_add, Nat.cast_one, mul_one]

/-- A number times 1.0, fused with a zero addend, keeps its value (R115). -/
theorem ffma_one_zero : isFinite (ffma a 0x3FF0000000000000#64 c).1 = true ∧
    val (ffma a 0x3FF0000000000000#64 c).1 = val a := by
  have hcu := (signedUnits_eq_zero_iff c).mpr hc
  refine exact_sum_representable ha (by positivity) ?_ _ (ffma_finite ha (by decide) (classes_of_isZero hc).2.2)
  rw [hcu, zero_mul, add_zero, signedUnits_one, Nat.cast_pow, Nat.cast_ofNat]

theorem isZero_fadd (ha0 : isZero a = true) : isZero (fadd c a).1 = true := by
  rw [fadd_finite (classes_of_isZero hc).2.2 ha, (signedUnits_eq_zero_iff c).mpr hc, (signedUnits_eq_zero_iff a).mpr ha0,
    if_pos (add_zero 0)]
  exact isZero_zero _

variable (hb : isFinite b = true) (hab : isZero a = true ∨ isZero b = true)
include hb hab

theorem isZero_ffma : isZero (ffma a b c).1 = true := by
  have hprod : signedUnits a * signedUnits b = 0 := by simpa [signedUnits_eq_zero_iff] using hab
  rw [ffma_finite ha hb (classes_of_isZero hc).2.2, hprod, (signedUnits_eq_zero_iff c).mpr hc, zero_mul, add_zero,
    if_pos rfl]
  exact isZero_zero _

end

end Sys2Proof.F64
end

section
/-! FIR (42_fir.md R182 to R190): the accumulator and its flags term by term, the words and flags FIR leaves, and the claims
O25 to O28 about them. -/

namespace Sys2Proof.Machine

/-! ## Flags (R111) -/

section
variable {f : Flags → Bool} (hf : f ∈ [Flags.nx, Flags.uf, Flags.of, Flags.nv])
include hf

theorem flag_noFlags : f noFlags = false := by
  fin_cases hf <;> rfl

theorem flag_flagsUnion_iff (a b : Flags) : f (flagsUnion a b) = true ↔ f a = true ∨ f b = true := by
  fin_cases hf <;> exact Bool.or_eq_true_iff

end

/-! ## The accumulator (R184, R185) -/

theorem macStep_fused (t x acc : Word) : macStep true t x acc = F64.ffma t x acc := rfl

theorem macStep_unfused (t x acc : Word) : macStep false t x acc =
    ((F64.fadd acc (F64.fmul t x).1).1, flagsUnion (F64.fmul t x).2 (F64.fadd acc (F64.fmul t x).1).2) := rfl

theorem firAcc_zero (fused : Bool) (t x : Nat → Word) : firAcc fused t x 0 = F64.fmul (t 0) (x 0) := rfl

theorem firAcc_succ_fst (fused : Bool) (t x : Nat → Word) (k : Nat) :
    (firAcc fused t x (k + 1)).1 = (macStep fused (t (k + 1)) (x (k + 1)) (firAcc fused t x k).1).1 := rfl

/-- The flags that term k alone raises: those of the first product, then those of one multiply-accumulate step (R188). -/
def termFlags (fused : Bool) (t x : Nat → Word) : Nat → Flags
  | 0 => (F64.fmul (t 0) (x 0)).2
  | k + 1 => (macStep fused (t (k + 1)) (x (k + 1)) (firAcc fused t x k).1).2

/-- The accumulator's flags are those of its terms together. -/
theorem flag_firAcc_iff {f : Flags → Bool} (hf : f ∈ [Flags.nx, Flags.uf, Flags.of, Flags.nv]) (fused : Bool)
    (t x : Nat → Word) (K : Nat) :
    f (firAcc fused t x K).2 = true ↔ ∃ k ≤ K, f (termFlags fused t x k) = true := by
  induction K with
  | zero => simp [firAcc_zero, termFlags]
  | succ K ih =>
    have hstep : (firAcc fused t x (K + 1)).2 = flagsUnion (firAcc fused t x K).2 (termFlags fused t x (K + 1)) := rfl
    rw [hstep, flag_flagsUnion_iff hf, ih]
    simp only [Nat.le_succ_iff, or_and_right, exists_or, exists_eq_left]

/-- The accumulator after term K reads the taps and samples of terms 0 to K only (R186). -/
theorem firAcc_congr (fused : Bool) {t t' x x' : Nat → Word} {K : Nat} (ht : ∀ k ≤ K, t k = t' k)
    (hx : ∀ k ≤ K, x k = x' k) : firAcc fused t x K = firAcc fused t' x' K := by
  induction K with
  | zero => rw [firAcc_zero, firAcc_zero, ht 0 le_rfl, hx 0 le_rfl]
  | succ K ih =>
    simp only [firAcc, ih (fun k hk => ht k (by omega)) (fun k hk => hx k (by omega)), ht (K + 1) le_rfl,
      hx (K + 1) le_rfl]

/-! ### Zero terms and the unit sample (R190) -/

section
variable {t x acc : Word} (fused : Bool) (hacc : F64.isZero acc = true) (ht : F64.isFinite t = true)
include hacc ht

/-- A zero product leaves a zero accumulator a zero. -/
theorem isZero_macStep (hx : F64.isFinite x = true) (h0 : F64.isZero t = true ∨ F64.isZero x = true) :
    F64.isZero (macStep fused t x acc).1 = true := by
  cases fused with
  | true => rw [macStep_fused]; exact F64.isZero_ffma ht hacc hx h0
  | false =>
    have hp : F64.isZero (F64.fmul t x).1 = true := by rw [F64.fmul_of_isZero ht hx h0]; exact F64.isZero_zero _
    rw [macStep_unfused]
    exact F64.isZero_fadd (F64.classes_of_isZero hp).2.2 hacc hp

/-- A tap times 1.0, added to a zero accumulator, is a number of the tap's value. -/
theorem macStep_one : F64.isFinite (macStep fused t 0x3FF0000000000000#64 acc).1 = true ∧
    F64.val (macStep fused t 0x3FF0000000000000#64 acc).1 = F64.val t := by
  cases fused with
  | true => rw [macStep_fused]; exact F64.ffma_one_zero ht hacc
  | false =>
    rw [macStep_unfused, F64.fmul_one_right ht]
    exact F64.fadd_zero_left ht hacc

end

/-- Zero terms accumulate to a zero. -/
theorem isZero_firAcc (fused : Bool) {t x : Nat → Word} {K : Nat} (ht : ∀ k ≤ K, F64.isFinite (t k) = true)
    (hx : ∀ k ≤ K, F64.isFinite (x k) = true) (h0 : ∀ k ≤ K, F64.isZero (t k) = true ∨ F64.isZero (x k) = true) :
    F64.isZero (firAcc fused t x K).1 = true := by
  induction K with
  | zero =>
    rw [firAcc_zero, F64.fmul_of_isZero (ht 0 le_rfl) (hx 0 le_rfl) (h0 0 le_rfl)]
    exact F64.isZero_zero _
  | succ K ih =>
    have hacc := ih (fun k hk => ht k (by omega)) (fun k hk => hx k (by omega)) (fun k hk => h0 k (by omega))
    exact isZero_macStep fused hacc (ht _ le_rfl) (hx _ le_rfl) (h0 _ le_rfl)

/-- Zero samples, then 1.0 at term K: the accumulator is a number of tap K's value. -/
theorem firAcc_impulse (fused : Bool) {t x : Nat → Word} {K : Nat} (ht : ∀ k ≤ K, F64.isFinite (t k) = true)
    (hx : ∀ k < K, x k = 0#64) (hone : x K = 0x3FF0000000000000#64) :
    F64.isFinite (firAcc fused t x K).1 = true ∧ F64.val (firAcc fused t x K).1 = F64.val (t K) := by
  cases K with
  | zero =>
    rw [firAcc_zero, hone, F64.fmul_one_right (ht 0 le_rfl)]
    exact ⟨ht 0 le_rfl, rfl⟩
  | succ K =>
    have hzero : ∀ k ≤ K, F64.isZero (x k) = true := fun k hk => by rw [hx k (by omega)]; decide
    have hacc : F64.isZero (firAcc fused t x K).1 = true :=
      isZero_firAcc fused (fun k hk => ht k (by omega)) (fun k hk => (F64.classes_of_isZero (hzero k hk)).2.2)
        (fun k hk => .inr (hzero k hk))
    rw [firAcc_succ_fst, hone]
    exact macStep_one fused hacc (ht _ le_rfl)

/-! ## The words and flags FIR leaves (R182, R188) -/

theorem wordAt_firEffect (s : State) {n : Nat} (hn : n < len s) :
    wordAt (firEffect s).dmem (s.regs.yBase.toNat + n) = some (firOutput s n).1 :=
  wordAt_writeBuffer_inside _ _ _ hn

/-- The last term of an output is within the taps. -/
theorem lastTerm_lt_taps {s : State} (h : FirReady s) (n : Nat) : min n (taps s - 1) < taps s := by
  obtain ⟨-, hodd, -⟩ := h
  omega

/-- Over written inputs an output is the accumulator over their words, whatever the draws (R64, R189). -/
theorem firOutput_of_holds {s : State} (h : FirReady s) {x tap : Nat → Word}
    (hx : Holds s s.regs.xBase s.regs.nlen.toNat x) (htap : Holds s s.regs.tBase s.regs.tlen.toNat tap) {n : Nat}
    (hn : n < len s) :
    firOutput s n = firAcc s.params.macFused tap (fun k => x (n - k)) (min n (taps s - 1)) := by
  have hlast := lastTerm_lt_taps h n
  exact firAcc_congr _ (fun k hk => readWord_of_wordAt (htap k (hk.trans_lt hlast)) _)
    (fun k _ => readWord_of_wordAt (hx (n - k) ((Nat.sub_le n k).trans_lt hn)) _)

theorem firFlags_congr {s s' : State} {m : Nat} (h : ∀ n < m, firOutput s n = firOutput s' n) :
    firFlags s m = firFlags s' m := by
  induction m with
  | zero => rfl
  | succ m ih => simp only [firFlags, ih fun n hn => h n (by omega), h m (Nat.lt_succ_self m)]

theorem flag_firFlags_iff {f : Flags → Bool} (hf : f ∈ [Flags.nx, Flags.uf, Flags.of, Flags.nv]) (s : State) (m : Nat) :
    f (firFlags s m) = true ↔ ∃ n < m, f (firOutput s n).2 = true := by
  induction m with
  | zero => simp [firFlags, flag_noFlags hf]
  | succ m ih =>
    rw [firFlags, flag_flagsUnion_iff hf, ih]
    simp only [Nat.lt_succ_iff_lt_or_eq, or_and_right, exists_or, exists_eq_left]

/-- A flag is set after FIR where it was set, or where some output raised it (R188). -/
theorem flag_firEffect_iff {f : Flags → Bool} (hf : f ∈ [Flags.nx, Flags.uf, Flags.of, Flags.nv]) (s : State) :
    f (firEffect s).fflags = true ↔ f s.fflags = true ∨ ∃ n < len s, f (firOutput s n).2 = true := by
  rw [firEffect_fflags, flag_flagsUnion_iff hf, flag_firFlags_iff hf]

/-- The state a ready FIR ends in. -/
theorem eq_complete_firEffect {s t : State} (h : FirReady s) (ht : exec .fir s = .next t) : t = complete (firEffect s) :=
  eq_complete_of_exec (i := .fir) h ht

/-! ### Special tap sets (R190) -/

section
variable {s : State} {x tap : Nat → Word} (h : FirReady s) (hx : Holds s s.regs.xBase s.regs.nlen.toNat x)
  (htap : Holds s s.regs.tBase s.regs.tlen.toNat tap)
include h hx htap

theorem firOutput_unityTap (hT : taps s = 1) (hone : tap 0 = 0x3FF0000000000000#64) {n : Nat} (hn : n < len s) :
    firOutput s n = F64.fmul 0x3FF0000000000000#64 (x n) := by
  rw [firOutput_of_holds h hx htap hn, hT, Nat.sub_self, Nat.min_zero, firAcc_zero, hone, Nat.sub_zero]

/-- The impulse response: the unit sample meets tap n, if there is one, after zero samples only. -/
theorem firOutput_impulse (hx0 : x 0 = 0x3FF0000000000000#64) (hxs : ∀ n, 0 < n → n < len s → x n = 0#64)
    (htaps : ∀ k < taps s, F64.isFinite (tap k) = true) {n : Nat} (hn : n < len s) :
    F64.isFinite (firOutput s n).1 = true ∧
      F64.val (firOutput s n).1 = if n < taps s then F64.val (tap n) else 0 := by
  have hlast := lastTerm_lt_taps h n
  have hfin : ∀ k ≤ min n (taps s - 1), F64.isFinite (tap k) = true := fun k hk => htaps k (hk.trans_lt hlast)
  have hzero {k : Nat} (hk : k < n) : x (n - k) = 0#64 := hxs (n - k) (by omega) (by omega)
  rw [firOutput_of_holds h hx htap hn]
  split
  · rename_i hnT
    rw [Nat.min_eq_left (by omega)] at hfin ⊢
    exact firAcc_impulse _ hfin (fun k hk => hzero hk) (by rw [Nat.sub_self, hx0])
  · rename_i hnT
    have hz : ∀ k ≤ min n (taps s - 1), F64.isZero (x (n - k)) = true := fun k hk => by
      rw [hzero (by omega)]
      decide
    have hacc := isZero_firAcc s.params.macFused hfin (fun k hk => (F64.classes_of_isZero (hz k hk)).2.2)
      (fun k hk => .inr (hz k hk))
    exact ⟨(F64.classes_of_isZero hacc).2.2, F64.val_of_isZero hacc⟩

/-- Zero taps on finite samples give a zero. -/
theorem isZero_firOutput (htaps : ∀ k < taps s, tap k = 0#64) (hxs : ∀ n < len s, F64.isFinite (x n) = true) {n : Nat}
    (hn : n < len s) : F64.isZero (firOutput s n).1 = true := by
  have hlast := lastTerm_lt_taps h n
  have hz : ∀ k ≤ min n (taps s - 1), F64.isZero (tap k) = true := fun k hk => by
    rw [htaps k (hk.trans_lt hlast)]
    decide
  rw [firOutput_of_holds h hx htap hn]
  exact isZero_firAcc _ (fun k hk => (F64.classes_of_isZero (hz k hk)).2.2)
    (fun k _ => hxs (n - k) ((Nat.sub_le n k).trans_lt hn)) (fun k hk => .inl (hz k hk))

end

/-! ## The obligations -/

/-- Settles O25: the accumulator is `firAcc` by its recursion, and its flags are those of its terms. -/
theorem firAccumulatesLeftToRight : Obligations.FirAccumulatesLeftToRight := by
  intro s h N T tap x
  refine ⟨_, fun n k => (firAcc s.params.macFused (tap n) (x n) k).1,
    fun n k => termFlags s.params.macFused (tap n) (x n) k,
    exec_of_ready (i := .fir) h, completedFrame_complete .fir s, rfl, sameBytesOutside_complete .fir s,
    fun n hn => ⟨rfl, fun k _ => ?_, wordAt_firEffect s hn⟩, fun f hf => ?_⟩
  · simp only [firAcc_succ_fst, termFlags]
    cases s.params.macFused with
    | true => rw [if_pos rfl, macStep_fused]
    | false => rw [if_neg Bool.false_ne_true, macStep_unfused]; exact ⟨rfl, rfl⟩
  · refine (flag_firEffect_iff hf s).trans (or_congr_right (exists_congr fun n => and_congr_right fun _ => ?_))
    exact flag_firAcc_iff hf _ _ _ _

/-- Settles O26: over the same written inputs both commands have the same outputs, words and flags. -/
theorem firIsDeterministic : Obligations.FirIsDeterministic := by
  intro s s' t t' x tap h h' hmode hN hT hx htap hx' htap' ht ht'
  have hlen : len s' = len s := congrArg BitVec.toNat hN.symm
  have htaps : taps s' = taps s := congrArg BitVec.toNat hT.symm
  have hout : ∀ n < len s, firOutput s' n = firOutput s n := fun n hn => by
    rw [firOutput_of_holds h hx htap hn, firOutput_of_holds h' (hN ▸ hx') (hT ▸ htap') (hlen ▸ hn), hmode, htaps]
  rw [eq_complete_firEffect h ht, eq_complete_firEffect h' ht']
  refine ⟨fun n hn => ⟨_, wordAt_firEffect s hn, ?_⟩, firFlags s (len s), rfl, ?_⟩
  · rw [← hout n hn]
    exact wordAt_firEffect s' (hlen ▸ hn)
  · rw [← firFlags_congr hout, ← hlen]
    rfl

/-- Settles O27: the terms of output n use taps and samples up to n only. -/
theorem firIgnoresMissingHistory : Obligations.FirIgnoresMissingHistory := by
  intro s s' t t' x x' tap tap' h h' hmode hN hT hx htap hx' htap' ht ht' n hn hxn htapn
  have hn' : n < len s' := by rwa [len, ← hN]
  have htaps : taps s' = taps s := congrArg BitVec.toNat hT.symm
  have hout : firOutput s n = firOutput s' n := by
    rw [firOutput_of_holds h hx htap hn, firOutput_of_holds h' (hN ▸ hx') (hT ▸ htap') hn', hmode, htaps]
    exact firAcc_congr _ (fun k hk => htapn k (by omega)) (fun k _ => hxn (n - k) (Nat.sub_le n k))
  rw [eq_complete_firEffect h ht, eq_complete_firEffect h' ht']
  exact (wordAt_firEffect s hn).trans (hout ▸ (wordAt_firEffect s' hn').symm)

/-- Settles O28: a product with 1.0, one unit term after zero terms, and zero terms alone. -/
theorem firSpecialTaps : Obligations.FirSpecialTaps := by
  intro s t x tap h hx htap ht N T y
  obtain rfl := eq_complete_firEffect h ht
  have hy {n : Nat} (hn : n < N) : y n (firOutput s n).1 := wordAt_firEffect s hn
  refine ⟨fun hT hone => ⟨fun n hn => ?_, ?_⟩,
    fun hx0 hxs htaps n hn => ⟨_, hy hn, firOutput_impulse h hx htap hx0 hxs htaps hn⟩,
    fun htaps hxs n hn => ⟨_, hy hn, isZero_firOutput h hx htap htaps hxs hn⟩⟩
  · have hw := hy hn
    rwa [firOutput_unityTap h hx htap hT hone hn, F64.fmul_one, apply_ite Prod.fst] at hw
  · refine (flag_firEffect_iff (f := Flags.nv) (by simp) s).trans
      (or_congr_right (exists_congr fun n => and_congr_right fun hn => ?_))
    rw [firOutput_unityTap h hx htap hT hone hn, F64.fmul_one_nv_iff]

end Sys2Proof.Machine
end

section
/-! Command errors (60_exceptions.md R203 to R207): the two ways every command ends (O7), each command's rows tried one by
one in row order (O10 to O14), and an error that recurs because the checks read nothing an error writes (O9). -/

namespace Sys2Proof.Machine

/-! ## The two ways a command ends (R204, R210) -/

/-- No row of R206 raises NONE. -/
theorem commandError_kind_ne_none {i : Instr} {s : State} {e : CmdError} (h : commandError i s = some e) :
    e.kind ≠ .none := by
  rcases commandError_cases h with ⟨hk, -⟩ | ⟨hk, -⟩ | ⟨hk, -⟩ <;> simp [hk]

/-- Settles O7, by the checks' outcome. -/
theorem commandsEndInOneOfTwoWays : Obligations.CommandsEndInOneOfTwoWays := by
  intro i s
  cases h : commandError i s with
  | some e => exact .inl ⟨_, _, _, _, commandError_kind_ne_none h, failsWith_of_commandError h⟩
  | none => exact .inr (succeeds_of_commandError h)

/-! ## One row at a time (R206, R207)

A command's checks are tried from the front of its rows. `last` is what decides once no row is left: DFT's finiteness scan,
and `none` for the other commands. -/

/-- Where the rows left to try begin with a row whose condition is `p`, the command fails with that row's error if `p`
holds, and is decided by the rows after it otherwise. -/
theorem failsWith_row_else {i : Instr} {s : State} {c : Bool} {e : CmdError} {rows : List CheckRow}
    {last : Option CmdError} {p Q : Prop} [Decidable p]
    (h : commandError i s = (firstError (⟨c, e⟩ :: rows)).or last) (hc : c = true ↔ p)
    (hrest : ¬p → commandError i s = (firstError rows).or last → Q) :
    if p then FailsWith i s e.kind e.stage (BitVec.ofNat 8 (regNum e.param)) e.info else Q := by
  rw [firstError_cons] at h
  split_ifs with hp
  · rw [if_pos (hc.mpr hp)] at h
    exact failsWith_of_commandError h
  · rw [if_neg (mt hc.mp hp)] at h
    exact hrest hp h

section

variable (s : State)

theorem lenRow_iff : (len s == 0) = true ↔ s.regs.nlen.toNat = 0 := beq_iff_eq

theorem rangeRow_iff (b : Word) (n : Nat) : (!inRange s b n) = true ↔ s.params.dmemWords < b.toNat + n := by
  rw [inRange_eq, Bool.not_not, decide_eq_true_eq]

theorem fsRow_iff : (!fsOk s.regs.fs) = true ↔ ¬FsPositive s := by
  rw [Bool.not_eq_true', ← Bool.not_eq_true, fsOk_iff]

end

/-- A row that fails where a region meets either of two others, all three non-empty (R10). -/
theorem overlapRow_iff (b c d : Word) {n k m : Nat} (hn : 0 < n) (hk : 0 < k) (hm : 0 < m) :
    (overlap b n c k || overlap b n d m) = true ↔ ¬Apart b.toNat n c.toNat k ∨ ¬Apart b.toNat n d.toNat m := by
  rw [Bool.or_eq_true, overlap_iff_not_apart b c hn hk, overlap_iff_not_apart b d hn hm]

/-- A row that fails where a region meets any of three others, all of one non-zero length (R10). -/
theorem overlapThreeRow_iff (b c d e : Word) {n : Nat} (hn : 0 < n) :
    (overlap b n c n || overlap b n d n || overlap b n e n) = true ↔
      ¬Apart b.toNat n c.toNat n ∨ ¬Apart b.toNat n d.toNat n ∨ ¬Apart b.toNat n e.toNat n := by
  rw [Bool.or_eq_true, overlapRow_iff b c d hn hn hn, overlap_iff_not_apart b e hn hn, or_assoc]

/-- Settles O10, row by row. -/
theorem firChecksInOrder : Obligations.FirChecksInOrder := by
  intro s
  have h : commandError .fir s = (firstError (firChecks s)).or none := Option.or_none.symm
  refine failsWith_row_else h (lenRow_iff s) fun hN h => ?_
  refine failsWith_row_else h beq_iff_eq fun hT h => ?_
  refine failsWith_row_else h beq_iff_eq fun _ h => ?_
  refine failsWith_row_else h (rangeRow_iff s _ _) fun _ h => ?_
  refine failsWith_row_else h (rangeRow_iff s _ _) fun _ h => ?_
  refine failsWith_row_else h (rangeRow_iff s _ _) fun _ h => ?_
  have hN := Nat.pos_of_ne_zero hN
  refine failsWith_row_else h (overlapRow_iff _ _ _ hN hN (Nat.pos_of_ne_zero hT)) fun _ h => ?_
  exact succeeds_of_commandError h

/-- Settles O11, row by row; after the rows, by the scan's first index that is not finite (R145). -/
theorem dftChecksInOrder : Obligations.DftChecksInOrder := by
  intro s
  have h : commandError .dft s = (firstError (dftChecks s)).or (finitenessError s) := rfl
  refine failsWith_row_else h (lenRow_iff s) fun hN h => ?_
  refine failsWith_row_else h (rangeRow_iff s _ _) fun _ h => ?_
  refine failsWith_row_else h (rangeRow_iff s _ _) fun _ h => ?_
  refine failsWith_row_else h (rangeRow_iff s _ _) fun _ h => ?_
  have hN := Nat.pos_of_ne_zero hN
  refine failsWith_row_else h (overlap_iff_not_apart _ _ hN hN) fun _ h => ?_
  refine failsWith_row_else h (overlapRow_iff _ _ _ hN hN hN) fun _ h => ?_
  have hscan : commandError .dft s = finitenessError s := h
  refine ⟨fun n hn hbad hbefore => ?_, fun hall => ?_⟩
  · have hfirst := (firstNonFinite_eq_some_iff s n).mpr ⟨hn, hbad, hbefore⟩
    rw [finitenessError, hfirst] at hscan
    exact failsWith_of_commandError hscan
  · have hnone := (firstNonFinite_eq_none_iff s).mpr hall
    rw [finitenessError, hnone] at hscan
    exact succeeds_of_commandError hscan

/-- Settles O12, row by row: both axes have the same rows. -/
theorem freqmapChecksInOrder : Obligations.FreqmapChecksInOrder := by
  intro s i hi
  have h : commandError i s = (firstError (freqmapChecks s)).or none := by
    rcases hi with rfl | rfl <;> exact Option.or_none.symm
  refine failsWith_row_else h (lenRow_iff s) fun _ h => ?_
  refine failsWith_row_else h (fsRow_iff s) fun _ h => ?_
  refine failsWith_row_else h (rangeRow_iff s _ _) fun _ h => ?_
  exact succeeds_of_commandError h

/-- Settles O13, row by row. -/
theorem magChecksInOrder : Obligations.MagChecksInOrder := by
  intro s
  have h : commandError .mag s = (firstError (magChecks s)).or none := Option.or_none.symm
  refine failsWith_row_else h (lenRow_iff s) fun hN h => ?_
  refine failsWith_row_else h (rangeRow_iff s _ _) fun _ h => ?_
  refine failsWith_row_else h (rangeRow_iff s _ _) fun _ h => ?_
  refine failsWith_row_else h (rangeRow_iff s _ _) fun _ h => ?_
  have hN := Nat.pos_of_ne_zero hN
  refine failsWith_row_else h (overlapRow_iff _ _ _ hN hN hN) fun _ h => ?_
  exact succeeds_of_commandError h

/-- Settles O14, row by row. -/
theorem halfspecChecksInOrder : Obligations.HalfspecChecksInOrder := by
  intro s
  have h : commandError .halfspec s = (firstError (halfspecChecks s)).or none := Option.or_none.symm
  refine failsWith_row_else h (lenRow_iff s) fun hN h => ?_
  refine failsWith_row_else h (fsRow_iff s) fun _ h => ?_
  refine failsWith_row_else h (rangeRow_iff s _ _) fun _ h => ?_
  refine failsWith_row_else h (rangeRow_iff s _ _) fun _ h => ?_
  refine failsWith_row_else h (rangeRow_iff s _ _) fun _ h => ?_
  refine failsWith_row_else h (rangeRow_iff s _ _) fun _ h => ?_
  have hH : 0 < halfLen s := by simp only [halfLen, len]; omega
  refine failsWith_row_else h (overlapRow_iff _ _ _ hH hH hH) fun _ h => ?_
  refine failsWith_row_else h (overlapThreeRow_iff _ _ _ _ hH) fun _ h => ?_
  exact succeeds_of_commandError h

/-! ## Re-issuing a failed command (R203) -/

theorem inRange_congr {s s' : State} (hparams : s'.params = s.params) (b : Word) (n : Nat) :
    inRange s' b n = inRange s b n := by rw [inRange, hparams, inRange]

/-- What a command's checks read: the parameters, registers 4 to 16, and, for DFT once its regions pass, the scan. -/
theorem commandError_congr {i : Instr} {s s' : State} (hparams : s'.params = s.params) (hregs : s'.regs = s.regs)
    (hscan : i = .dft → firstError (dftChecks s) = none → firstNonFinite s' = firstNonFinite s) :
    commandError i s' = commandError i s := by
  cases i
  case dft =>
    have hrows : firstError (dftChecks s') = firstError (dftChecks s) := by
      simp only [dftChecks, len, inRange_congr hparams, hregs]
    simp only [commandError, hrows]
    cases hpass : firstError (dftChecks s) with
    | some e => rfl
    | none => rw [finitenessError, finitenessError, hscan rfl hpass]
  all_goals
    simp only [commandError, firChecks, freqmapChecks, magChecks, halfspecChecks, len, taps, halfLen,
      inRange_congr hparams, hregs]

/-- Over written samples the scan reads no draw (R64, R145). -/
theorem firstNonFinite_eq_of_holds {s s' : State} {x : Nat → Word} (hregs : s'.regs = s.regs)
    (hdmem : s'.dmem = s.dmem) (hx : Holds s s.regs.xBase (len s) x) : firstNonFinite s' = firstNonFinite s := by
  have hlen : len s' = len s := by rw [len, hregs, len]
  rw [firstNonFinite, firstNonFinite, hlen]
  refine List.find?_congr fun n hn => ?_
  have hw := hx n (List.mem_range.mp hn)
  rw [readWord_of_wordAt hw, hregs, readWord_of_wordAt (hdmem ▸ hw)]

/-- An error that recurs: the checks read the same, and so do the samples where the scan raised it. -/
theorem commandError_recurs {i : Instr} {s s' : State} {e : CmdError} {x : Nat → Word}
    (h : commandError i s = some e) (hparams : s'.params = s.params) (hregs : s'.regs = s.regs)
    (hdmem : s'.dmem = s.dmem) (hx : e.kind = .numericalInstability → Holds s s.regs.xBase (len s) x) :
    commandError i s' = some e := by
  rw [← h]
  refine commandError_congr hparams hregs fun hi hpass => ?_
  subst hi
  refine firstNonFinite_eq_of_holds hregs hdmem (hx ?_)
  rw [commandError, hpass, Option.none_or] at h
  obtain ⟨n, -, rfl⟩ := Option.map_eq_some_iff.mp h
  rfl

/-- A pending command that ends as `FailsWith` says has that error as its checks' outcome: a success would set DONE, which
is 0 while a command is pending (R29, R210). -/
theorem commandError_of_failsWith {i : Instr} {s : State} {kind : ErrKind} {stage : ErrStage} {param : BitVec 8}
    {info : Word} (hdone : s.status.done = false) (h : FailsWith i s kind stage param info) :
    ∃ e, commandError i s = some e ∧ e.kind = kind ∧ e.stage = stage ∧
      BitVec.ofNat 8 (regNum e.param) = param ∧ e.info = info := by
  rcases exec_cases i s with ⟨e, he, hx⟩ | ⟨-, hx⟩
  · have hend := Host.Outcome.next.inj (hx.symm.trans h)
    have hstatus := congrArg State.status hend
    refine ⟨e, he, congrArg Status.errKind hstatus, congrArg Status.errStage hstatus, congrArg Status.errParam hstatus,
      congrArg State.errInfo hend⟩
  · have hend := Host.Outcome.next.inj (hx.symm.trans h)
    have hset : true = s.status.done := congrArg (fun u : State => u.status.done) hend
    simp [hdone] at hset

/-- Settles O9: the error leaves parameters, registers 4 to 16 and DMEM, and so does the acceptance. -/
theorem reissuedErrorRecurs : Obligations.ReissuedErrorRecurs := by
  intro i s t kind stage param info x d hb hcons hx hfails hexec
  obtain ⟨-, hbusy, -⟩ := hcons
  obtain ⟨hdone, -⟩ := hbusy hb
  obtain ⟨e, he, rfl, rfl, rfl, rfl⟩ := commandError_of_failsWith hdone hfails
  obtain rfl := Host.Outcome.next.inj (hfails.symm.trans hexec)
  exact failsWith_of_commandError (commandError_recurs he rfl rfl rfl hx)

end Sys2Proof.Machine
end

section
/-! Bus errors (O47), the IRQ output (O50, O51) and the end of a pending command (O60): 60_exceptions.md R209, R214, R215,
R225. -/

namespace Sys2Proof.Machine

/-! ## Bus errors (R63, R209) -/

/-- R63's three kinds of faulty access. -/
theorem busTarget_eq_none_iff (words : Nat) (a : BusAccess) :
    busTarget words a = none ↔
      a.width ≠ 64 ∨ a.offset.toNat % 8 ≠ 0 ∨ (0x1000 ≤ a.offset.toNat ∧ a.offset.toNat < 0x10000) ∨
        0x10000 + 8 * words ≤ a.offset.toNat := by
  unfold busTarget
  dsimp only
  split_ifs <;> simp only [false_iff, true_iff] <;> omega

/-- An access without a target leaves the core, and a read's data is 0. -/
theorem hostAccess_of_no_target {a : BusAccess} {s : State} (h : busTarget s.params.dmemWords a = none) :
    hostAccess a (s.host.pos + 1) (takeTurn s) =
      afterAccess .busError (if a.op = .read then 0 else s.host.lastRead) s := by
  simp only [hostAccess, busAccess, takeTurn_params, h]
  cases a.op <;> rfl

/-- An access with a target gets no bus error. -/
theorem busAccess_resp_ne_busError {a : BusAccess} {s : State} (h : busTarget s.params.dmemWords a ≠ none) :
    (busAccess a s).1 ≠ .busError := by
  obtain ⟨tg, ht⟩ := Option.ne_none_iff_exists'.mp h
  simp only [busAccess, ht]
  cases a.op <;> simp

/-- Settles O47, by the accesses that have a target. -/
theorem busErrorsChangeNothing : Obligations.BusErrorsChangeNothing := by
  intro s a hmakes
  have hstep := step_of_hostMakes hmakes
  have hbad := busTarget_eq_none_iff s.params.dmemWords a
  refine ⟨fun h => ?_, fun h => ⟨_, hstep, busAccess_resp_ne_busError (s := takeTurn s) (mt hbad.mp h)⟩⟩
  rw [hostAccess_of_no_target (hbad.mpr h)] at hstep
  exact ⟨_, hstep, rfl, rfl⟩

/-! ## The end of a performed command (R204, R210) -/

/-- An engine step on a pending command ends it, with DONE or ERR, and leaves IRQ_EN. -/
theorem step_of_engine_ends {s : State} (h : EnginePerforms s) :
    ∃ t, step s = .next t ∧ t.status.busy = false ∧ (t.status.done = true ∨ t.status.err = true) ∧
      t.irqEn = s.irqEn := by
  rcases step_of_engine h with ⟨-, hstep⟩ | ⟨i, -, hstep⟩
  · exact ⟨_, hstep, rfl, .inr rfl, rfl⟩
  · obtain ⟨hbusy, hend⟩ := finish_completes i (takeTurn s)
    refine ⟨_, hstep, hbusy, hend, ?_⟩
    rw [nextDraws_irqEn]
    rcases finish_cases i (takeTurn s) with ⟨e, -, hf⟩ | ⟨-, hf⟩ <;> rw [hf]
    · rfl
    · obtain ⟨-, hirq, -⟩ := commandEffect_frame i (takeTurn s)
      exact hirq

/-! ## IRQ (R214, R215) -/

theorem irq_iff (s : State) : irq s = true ↔ s.irqEn = true ∧ (s.status.done = true ∨ s.status.err = true) := by
  simp [irq]

/-- With IRQ_EN = 1, a command's end asserts IRQ (R214). -/
theorem irq_of_engine_step {s t : State} (h : EnginePerforms s) (hstep : step s = .next t) (hen : s.irqEn = true) :
    irq t = true := by
  obtain ⟨u, hu, -, hend, hirq⟩ := step_of_engine_ends h
  obtain rfl := Host.Outcome.next.inj (hu.symm.trans hstep)
  exact (irq_iff _).mpr ⟨hirq.trans hen, hend⟩

theorem writeReg_ctrl_without_reset {s : State} {v : Word} (hv : v.getLsbD 1 = false) :
    writeReg .ctrl v s = { s with irqEn := v.getLsbD 0 } := by
  simp only [writeReg, writeCtrl, hv, Bool.false_eq_true, if_false]

/-- Settles O50: a performed command ends with DONE or ERR, and a CTRL write leaves both. -/
theorem irqAsserts : Obligations.IrqAsserts := by
  refine fun s => ⟨irq_iff s, fun hperforms hen => ?_, fun v hw hset hnoReset hend => ?_⟩
  · obtain ⟨t, hstep, hbusy, -⟩ := step_of_engine_ends hperforms
    exact ⟨t, hstep, hbusy, irq_of_engine_step hperforms hstep hen⟩
  · have hstep := step_of_hostWrites_reg (r := .ctrl) hw
    rw [writeReg_ctrl_without_reset hnoReset] at hstep
    exact ⟨_, hstep, (irq_iff _).mpr ⟨hset, hend⟩⟩

/-- A STATUS write with bits 1 and 2 clear leaves IRQ. -/
theorem irq_writeStatus {s : State} {v : Word} (h1 : v.getLsbD 1 = false) (h2 : v.getLsbD 2 = false) :
    irq (writeStatus v s) = irq s := by
  simp only [irq, writeStatus_irqEn, writeStatus_status, h1, h2, Bool.not_false, Bool.and_true]

/-- While IRQ is asserted, it follows IRQ_EN. -/
theorem irq_with_irqEn {s : State} (hs : irq s = true) (b : Bool) : irq { s with irqEn := b } = b := by
  obtain ⟨-, hend⟩ := (irq_iff s).mp hs
  simp [irq, hend]

/-- The accepted host writes by which IRQ falls. -/
theorem busWrite_irq_falls {s : State} {off : Offset} {v : Word} {tg : BusTarget}
    (ht : busTarget s.params.dmemWords ⟨64, off, .write v⟩ = some tg) (hs : irq s = true)
    (hf : irq (busWrite tg v s) = false) :
    (off = 0x010#32 ∧ (v.getLsbD 1 = true ∨ v.getLsbD 2 = true)) ∨
    (off = 0x008#32 ∧ (v.getLsbD 0 = false ∨ v.getLsbD 1 = true)) ∨
    (off = 0x018#32 ∧ s.status.busy = false) := by
  have hchanged : irq (busWrite tg v s) ≠ irq s := by simp [hs, hf]
  rcases busWrite_moves ht with e | ⟨hoff, -, e⟩ | ⟨hoff, hv, -⟩ | ⟨hoff, e⟩ | ⟨-, -, e⟩ | ⟨hb, hoff, -⟩ |
    ⟨-, -, o, e⟩ | ⟨-, -, e⟩ | ⟨-, -, i, -, e⟩
  · exact absurd (congrArg irq e) hchanged
  · rw [e, irq_with_irqEn hs] at hf
    exact .inr (.inl ⟨hoff, .inl hf⟩)
  · exact .inr (.inl ⟨hoff, .inr hv⟩)
  · refine .inl ⟨hoff, ?_⟩
    by_contra hclear
    simp only [not_or, Bool.not_eq_true] at hclear
    exact hchanged (by rw [e, irq_writeStatus hclear.1 hclear.2])
  · exact absurd (congrArg irq e) hchanged
  · exact .inr (.inr ⟨hoff, hb⟩)
  all_goals exact absurd (congrArg irq e) hchanged

/-- Settles O51, by the moves of a step. -/
theorem irqFallsOnlyBy : Obligations.IrqFallsOnlyBy := by
  intro s t hstep hs hf
  have hfell : irq t ≠ true := by simp [hf]
  obtain ⟨hen, -⟩ := (irq_iff s).mp hs
  cases step_moves hstep with
  | idle _ _ e => subst e; exact absurd hs hfell
  | illegal h _ _ => exact absurd (irq_of_engine_step h hstep hen) hfell
  | command h _ _ _ => exact absurd (irq_of_engine_step h hstep hen) hfell
  | rst hm _ => exact .inr (.inr (.inr hm))
  | quiet _ _ _ _ _ e => subst e; exact absurd hs hfell
  | write off v tg h ht e =>
    rw [e] at hf
    rcases busWrite_irq_falls ht hs hf with ⟨rfl, hv⟩ | ⟨rfl, hv⟩ | ⟨rfl, hb⟩
    · exact .inl ⟨v, h, hv⟩
    · exact .inr (.inl ⟨v, h, hv⟩)
    · exact .inr (.inr (.inl ⟨v, h, hb⟩))

/-! ## A pending command ends (R225) -/

/-- A command's end leaves the schedule. -/
theorem finish_sched (i : Instr) (s : State) :
    (finish (commandError i s) (commandEffect i s) s).sched = s.sched := by
  rcases finish_cases i s with ⟨e, -, hf⟩ | ⟨-, hf⟩ <;> rw [hf]
  · rfl
  · obtain ⟨-, -, -, -, -, -, -, -, -, hsched⟩ := commandEffect_frame i s
    exact hsched

/-- Every step takes one turn out of the schedule (R69). -/
theorem step_sched {s t : State} (hstep : step s = .next t) : t.sched = s.sched.tail := by
  cases step_moves hstep with
  | idle _ _ e => rw [e]; rfl
  | illegal _ _ e => rw [e]; rfl
  | command _ i _ e => rw [e, nextDraws_sched, finish_sched]; rfl
  | rst _ e => rw [e]; rfl
  | quiet _ _ _ _ _ e => rw [e]; rfl
  | write off v tg _ _ e =>
    obtain ⟨hsched, -⟩ := busWrite_frame tg v s
    rw [e, ← hsched]
    rfl

/-- A run's first step. -/
theorem run_succ_of_step {s u : State} (h : step s = .next u) (k : Nat) :
    Host.Core.run core (k + 1) s = Host.Core.run core k u := by
  simp only [Host.Core.run, show core.step s = .next u from h]

/-- Settles O60, by induction on the schedule: with no turn scheduled the engine ends the command, and each scheduled turn
ends it or leaves one turn less. -/
theorem pendingCommandEnds : Obligations.PendingCommandEnds := by
  intro s hb
  induction hsched : s.sched generalizing s with
  | nil =>
    have hmoves : whoMoves s = .engine := by simp [whoMoves, hsched, hb]
    obtain ⟨t, hstep, hbusy, -⟩ := step_of_engine_ends ⟨hmoves, hb⟩
    exact ⟨1, t, Nat.le_refl 1, run_succ_of_step hstep 0, hbusy⟩
  | cons turn rest ih =>
    obtain ⟨u, hstep⟩ := step_next s
    cases hbu : u.status.busy with
    | false => exact ⟨1, u, by simp, run_succ_of_step hstep 0, hbu⟩
    | true =>
      have hrest : u.sched = rest := by rw [step_sched hstep, hsched, List.tail_cons]
      obtain ⟨k, t, hk, hrun, hbusy⟩ := ih u hbu hrest
      exact ⟨k + 1, t, Nat.succ_le_succ hk, (run_succ_of_step hstep k).trans hrun, hbusy⟩

end Sys2Proof.Machine
end

section
/-! Resets and hazards (70_reset_and_hazards.md): what a hardware and a soft reset leave (O38, O39), what an abort does to
DMEM (O40), and that the flags are sticky (O57). -/

namespace Sys2Proof.Machine

/-! ## What a reset leaves (R50, R231, R232) -/

theorem statusWord_reset : statusWord {} = 0 := by decide

theorem flagsWord_reset : flagsWord {} = 0 := by decide

/-- With the registers reset, every register but ID reads 0, whatever else the state holds (R24, R50). -/
theorem readReg_resetRegisters (r : RegName) (s : State) :
    readReg r (resetRegisters s) = if r = .id then s.params.id else 0 := by
  cases r
  case status => exact statusWord_reset
  case fflags => exact flagsWord_reset
  all_goals rfl

/-- A hardware reset's registers are the reset ones, over an unwritten DMEM (R231). -/
theorem readReg_hardReset (r : RegName) (s : State) :
    readReg r (hardReset s) = if r = .id then s.params.id else 0 :=
  readReg_resetRegisters r { s with dmem := [] }

/-- A soft reset's registers are the reset ones, over whatever DMEM the reset leaves (R232). -/
theorem readReg_softReset (r : RegName) (s : State) :
    readReg r (softReset s) = if r = .id then s.params.id else 0 :=
  readReg_resetRegisters r { s with dmem := (softReset s).dmem }

theorem wordAt_nil (i : Nat) : wordAt [] i = none := rfl

/-- Settles O38, by what RST leaves; the reset state is its own image under the reset of the registers. -/
theorem hardResetLeaves : Obligations.HardResetLeaves := by
  refine ⟨fun s hrst => ?_, fun r => readReg_resetRegisters r .reset, rfl, wordAt_nil, rfl⟩
  exact ⟨_, step_of_rst hrst, fun r => readReg_hardReset r (takeTurn s), rfl, wordAt_nil, rfl, rfl, rfl, rfl, rfl⟩

/-- Settles O39, by what a soft reset leaves; the access's own bookkeeping shows in no register. -/
theorem softResetLeaves : Obligations.SoftResetLeaves := by
  intro s v hw hv
  refine ⟨_, step_of_softReset hw hv, fun r => ?_, rfl, rfl, rfl, rfl, rfl, fun hidle => ?_⟩
  · rw [readReg_after _ _ _ _ rfl, readReg_softReset]
  · rw [afterAccess_dmem, softReset_dmem, hidle]
    rfl

/-! ## What an abort does to DMEM (R233) -/

theorem abortMemory_of_illegal {s : State} (hd : decode s.pending = none) : abortMemory s = s.dmem := by
  simp only [abortMemory, hd]

/-- A command that its checks would refuse has written nothing. -/
theorem abortMemory_of_not_ready {i : Instr} {s : State} (hd : decode s.pending = some i) (h : ¬Ready i s) :
    abortMemory s = s.dmem := by
  obtain ⟨e, he⟩ := Option.ne_none_iff_exists'.mp (mt (ready_of_commandError i s) h)
  simp only [abortMemory, hd, he]

/-- A ready command may have written any word of its listed regions. -/
theorem abortMemory_of_ready {i : Instr} {s : State} (hd : decode s.pending = some i) (h : Ready i s) :
    abortMemory s = scrambleRegions s.draws s.dmem (tableRegions i s) := by
  simp only [abortMemory, hd, commandError_of_ready i s h, tableRegions_eq]

/-- Ready or not, an abandoned command leaves every byte outside its listed regions. -/
theorem byteAt_abortMemory_outside {i : Instr} {s : State} (hd : decode s.pending = some i) {a : Nat}
    (ha : ∀ r ∈ tableRegions i s, ¬(wordOffset r.1 ≤ a ∧ a < wordOffset (r.1 + r.2))) :
    byteAt (abortMemory s) a = byteAt s.dmem a := by
  by_cases h : Ready i s
  · rw [abortMemory_of_ready hd h]
    exact byteAt_scrambleRegions_outside _ _ _ _ ha
  · rw [abortMemory_of_not_ready hd h]

/-- A soft reset while busy leaves the aborted memory. -/
theorem softReset_dmem_busy {s : State} (hb : s.status.busy = true) : (softReset s).dmem = abortMemory s := by
  rw [softReset_dmem, if_pos hb]

/-- Settles O40, by whether PENDING is legal and its command ready. -/
theorem abortScramblesOnlyOutputs : Obligations.AbortScramblesOnlyOutputs := by
  intro s v hw hv hb
  have hdmem := softReset_dmem_busy hb
  refine ⟨_, step_of_softReset hw hv, rfl, ?_⟩
  simp only [SameBytesOutside, afterAccess_dmem, hdmem]
  refine ⟨abortMemory_of_illegal, fun i hd => ⟨fun a ha => byteAt_abortMemory_outside hd ha,
    abortMemory_of_not_ready hd, fun hready r _ j _ => ?_⟩⟩
  rw [abortMemory_of_ready hd hready]
  exact wordAt_scrambleRegions _ _ _ _

/-! ## Sticky flags (R245) -/

/-- A command's end, with an error or without, drops no flag (R42, R111). -/
theorem finish_keeps_flags (i : Instr) (s : State) :
    ∀ f ∈ [Flags.nx, Flags.uf, Flags.of, Flags.nv], f s.fflags = true →
      f (finish (commandError i s) (commandEffect i s) s).fflags = true := by
  obtain ⟨-, -, -, -, hkeeps, -⟩ := commandsWriteOnlyTheTable i s _ (exec_eq i s)
  exact hkeeps

/-- The accepted host writes that change FFLAGS: an idle one to it, and a CTRL write that resets (R43, R232). -/
theorem busWrite_fflags {s : State} {off : Offset} {v : Word} {tg : BusTarget}
    (ht : busTarget s.params.dmemWords ⟨64, off, .write v⟩ = some tg) (hne : (busWrite tg v s).fflags ≠ s.fflags) :
    (s.status.busy = false ∧ off = 0x090#32) ∨ (off = 0x008#32 ∧ v.getLsbD 1 = true) := by
  rcases busWrite_moves ht with e | ⟨-, -, e⟩ | ⟨hoff, hv, -⟩ | ⟨-, e⟩ | ⟨-, -, e⟩ | ⟨-, -, e⟩ | ⟨-, -, o, e⟩ |
    ⟨hb, hoff, -⟩ | ⟨-, -, i, -, e⟩
  case inr.inr.inl => exact .inr ⟨hoff, hv⟩
  case inr.inr.inr.inr.inr.inr.inr.inl => exact .inl ⟨hb, hoff⟩
  all_goals exact absurd (congrArg State.fflags e) hne

/-- Settles O57, by the moves of a step: commands only add flags, and of the host's writes two change them. -/
theorem flagsAreSticky : Obligations.FlagsAreSticky := by
  intro s t hstep f hf hs hfell
  have hne : t.fflags ≠ s.fflags := fun h => by rw [h, hs] at hfell; cases hfell
  cases step_moves hstep with
  | idle _ _ e => subst e; exact absurd rfl hne
  | illegal _ _ e => subst e; exact absurd rfl hne
  | command _ i _ e =>
    have hkept := finish_keeps_flags i (takeTurn s) f hf hs
    rw [e, nextDraws_fflags, hkept] at hfell
    cases hfell
  | rst hm _ => exact .inr (.inl hm)
  | quiet _ _ _ _ _ e => subst e; exact absurd rfl hne
  | write off v tg h ht e =>
    subst e
    rcases busWrite_fflags ht hne with ⟨hb, rfl⟩ | ⟨rfl, hv⟩
    · exact .inl ⟨hb, v, h⟩
    · exact .inr (.inr ⟨v, hv, h⟩)

end Sys2Proof.Machine
end
